-- ==== Sys2Proof/Word.lean ====
section
/-! DEFINITION. The word and byte types of the block and their plainest arithmetic. -/

namespace Sys2Proof

/-- A register value: 32 bits, unsigned unless a rule says signed (00_scope.md R11, R12). -/
abbrev Word := BitVec 32

/-- A byte of BUF, or an 8-bit field of a register. -/
abbrev Byte := BitVec 8

/-- `ceil_div(a, b)` of 00_scope.md R13. -/
def ceilDiv (a b : Nat) : Nat := (a + b - 1) / b

end Sys2Proof
end

