-- ==== Sys2Proof/Machine/Bits.lean ====
section
/-! DEFINITION. Bit and byte orders: the bits of a byte sequence, soft bits, and multi-byte values
(00_scope.md R13, 20_memory.md R83, R84, 41_packetizer_coding.md R163). -/

namespace Sys2Proof.Machine

/-- The eight bits of a byte, most significant first (20_memory.md R84). -/
def byteBits (b : Byte) : List Bool :=
  [b.getLsbD 7, b.getLsbD 6, b.getLsbD 5, b.getLsbD 4, b.getLsbD 3, b.getLsbD 2, b.getLsbD 1, b.getLsbD 0]

/-- `bits(a)` of 00_scope.md R13: the bits of every byte in turn, most significant first. -/
def bits (a : List Byte) : List Bool := a.flatMap byteBits

/-- The byte whose bits, most significant first, are given. -/
def packByte (b7 b6 b5 b4 b3 b2 b1 b0 : Bool) : Byte :=
  BitVec.ofNat 8 (b7.toNat * 128 + b6.toNat * 64 + b5.toNat * 32 + b4.toNat * 16
    + b3.toNat * 8 + b2.toNat * 4 + b1.toNat * 2 + b0.toNat)

/-- `pack(b)` of 00_scope.md R13, the inverse of `bits` on a list whose length is a multiple of 8. -/
def pack : List Bool → List Byte
  | b7 :: b6 :: b5 :: b4 :: b3 :: b2 :: b1 :: b0 :: rest => packByte b7 b6 b5 b4 b3 b2 b1 b0 :: pack rest
  | _ => []

/-- `soft(a)`: reliability 0 for each 0 bit and 255 for each 1 bit (41_packetizer_coding.md R163). -/
def soft (a : List Byte) : List Byte := (bits a).map fun b => if b then 255#8 else 0#8

/-- The hard decision of one reliability byte: 1 iff it is at least 128, so the erasure 127 decides 0
(41_packetizer_coding.md R163). -/
def sliceByte (s : Byte) : Bool := decide (128 ≤ s.toNat)

/-- `slice(s)` of 00_scope.md R13. -/
def slice (s : List Byte) : List Bool := s.map sliceByte

/-- Toggle the bits at the listed positions, position 8i + j being bit (7 - j) of byte i (20_memory.md R84). -/
def flipBits (ps : List Nat) (b : List Byte) : List Byte :=
  pack ((bits b).mapIdx fun k x => xor x (decide (k ∈ ps)))

/-- A 16-bit little-endian quantity (20_memory.md R83(a)). -/
def le16 (b0 b1 : Byte) : BitVec 16 := b1 ++ b0

/-- Bytes composed little-endian into a register value (20_memory.md R83(c)). -/
def leWord (bs : List Byte) : Word := BitVec.ofNat 32 (bs.foldr (fun b acc => b.toNat + 256 * acc) 0)

/-- The `n` low bytes of a value, least significant first (20_memory.md R83(c)). -/
def leBytes : Nat → Nat → List Byte
  | 0, _ => []
  | n + 1, v => BitVec.ofNat 8 v :: leBytes n (v / 256)

/-- The `k` low bytes of a value, most significant first (20_memory.md R83(b)). -/
def beBytes (k v : Nat) : List Byte := (leBytes k v).reverse

end Sys2Proof.Machine
end

