-- ==== Sys2Proof/Machine/Params.lean ====
section
/-! DEFINITION. The parameters a model takes as arguments (00_scope.md R10) and the types they speak of. Their laws
are in Sys2Proof/Config.lean. -/

namespace Sys2Proof.Machine

/-- FS_CTRL.PROFILE (10_state.md R60, 45_frame_sync.md R201). -/
inductive Profile where
  | fixed
  | flex
deriving DecidableEq, Repr

/-- FS_CTRL.HDR_FAIL (10_state.md R60, 45_frame_sync.md R224). -/
inductive HdrFail where
  | abort
  | continue
deriving DecidableEq, Repr

/-- FS.cfg, the configuration latched at FS.CREATE (10_state.md R78). -/
structure FsCfg where
  profile : Profile
  hdrFail : HdrFail
  hdrEd : Byte
  hdrInner : Byte
  hdrOuter : Byte
  hdrMod : Byte
  payEd : Byte
  payInner : Byte
  payOuter : Byte
  payMod : Byte
  payLen : Word
  thresh : Word
  outAddr : Word
  /-- L_h, the header's decoded length (45_frame_sync.md R202). -/
  hdrLen : Nat
  /-- E_h = f(L_h, hdrEd, hdrInner, hdrOuter). -/
  hdrEncLen : Nat
deriving DecidableEq, Repr

/-- All fields 0 (10_state.md R79). -/
def FsCfg.zero : FsCfg :=
  { profile := .fixed, hdrFail := .abort, hdrEd := 0, hdrInner := 0, hdrOuter := 0, hdrMod := 0, payEd := 0,
    payInner := 0, payOuter := 0, payMod := 0, payLen := 0, thresh := 0, outAddr := 0, hdrLen := 0, hdrEncLen := 0 }

/-- FEState: the front end's opaque state, its persistent part P(fe) and its per-frame part F(fe)
(45_frame_sync.md R203). DESIGN CHOICE (log 8): each part is a number that stands for any countable data. Safe:
every front end with countably many states is one of these. -/
structure FeState where
  persist : Nat
  frame : Nat
deriving DecidableEq, Repr, Inhabited

/-- A value whose type the front end gives: tau, cfo and a symbol y (10_state.md R77). DESIGN CHOICE (log 8), safe. -/
abbrev FeCode := Nat

/-- One complex baseband sample: two signed 16-bit integers (45_frame_sync.md R204). -/
structure Sample where
  i : BitVec 16
  q : BitVec 16
deriving DecidableEq, Repr

/-- The modes of FE_STEP (45_frame_sync.md R203). -/
inductive FeMode where
  | det (thresh : Word)
  | sync (tau cfo : FeCode)
  | hdr (mod : Byte)
  | pay (mod : Byte)
deriving DecidableEq, Repr

/-- The events of FE_STEP (45_frame_sync.md R203). -/
inductive FeEvent where
  | none
  | trigger (tau cfo : FeCode)
  | symbol (y : FeCode)
deriving DecidableEq, Repr

/-- FE_STATS's answer (45_frame_sync.md R203), in the formats of 10_state.md R71 to R73. -/
structure FeStats where
  evm : Word
  rssi : Word
  cfo : Word
deriving DecidableEq, Repr

/-- A payload declaration, DESC_PARSE's answer (45_frame_sync.md R225). -/
structure Decl where
  len : Nat
  mod : Byte
  ed : Byte
  inner : Byte
  outer : Byte
deriving DecidableEq, Repr

/-- One FEC codec (41_packetizer_coding.md R161). `dec` and `decSoft` take the decoded byte count n. `fixes n ps` says that
the codec corrects the error that flips exactly the bit positions `ps` of the code word of an n-byte message, and `bound` is
t(fec, n): "at most t(fec, n) bits, in the positions the codec specifies" (DEDUCED, log 18). -/
structure FecCodec where
  enc : List Byte → List Byte
  dec : List Byte → Nat → List Byte
  decSoft : List Byte → Nat → List Byte
  bound : Nat → Nat
  fixes : Nat → List Nat → Bool

/-- One entry of the FEC_EXTRA registry (00_scope.md R10, 30_encoding.md R105). -/
structure FecEntry where
  name : List Byte
  len : Nat → Nat
  codec : FecCodec

/-- The parameters of 00_scope.md R10. -/
structure BlockParams where
  /-- NUM_CTX. -/
  numCtx : Nat
  /-- MAX_DEC_LEN. -/
  maxDecLen : Nat
  /-- log2(BUF_SIZE). -/
  bufBits : Nat
  /-- REG_BASE and BUF_BASE (20_memory.md R90). -/
  regBase : Nat
  bufBase : Nat
  /-- CRC_FN(w, m) (41_packetizer_coding.md R162). -/
  crc : (w : Nat) → List Byte → BitVec w
  /-- FEC_ENC, FEC_DEC and FEC_DEC_SOFT of Hamming(7,4) (R161). -/
  hamming : FecCodec
  /-- The place of bit j of codeword c of an n-byte message among the encoded bits (R161: "in each 7-bit codeword"). -/
  hammingPos : (n c j : Nat) → Nat
  /-- FEC_EXTRA, by id (30_encoding.md R105). -/
  fecExtra : Byte → Option FecEntry
  /-- INTLV(n): a permutation of the 8n bit positions (R161). -/
  intlv : (n : Nat) → Equiv.Perm (Fin (8 * n))
  /-- MOD_BPS(id), or none (30_encoding.md R107). -/
  modBps : Byte → Option Nat
  /-- SYNC_LEN (45_frame_sync.md R221). -/
  syncLen : Nat
  /-- FE_INIT, FE_STEP, FE_CLEAR, FE_STATS, DEMOD (45_frame_sync.md R203). -/
  feInit : FsCfg → FeState
  feStep : FeState → FeMode → Sample → FeState × FeEvent
  feClear : FeState → FeState
  feStats : FeState → FeStats
  demod : Byte → FeCode → List Byte
  /-- HDR_DESC_LEN and DESC_PARSE (45_frame_sync.md R225). -/
  hdrDescLen : Nat
  descParse : List Byte → Option Decl

/-- The parameters of 00_scope.md R10 and the free values the spec leaves open: what every operation takes as an argument. -/
structure Params extends BlockParams where
  /-- What BUF holds at an address after the given power-on reset (20_memory.md R81), a free value. -/
  bufInit : (epoch addr : Nat) → Byte
  /-- Whether the k-th racing byte read by the host is the new byte (20_memory.md R93), a free value. -/
  raceNew : Nat → Bool
  /-- FS.fe after an FS.DESTROY (45_frame_sync.md R218: undefined), a free value. -/
  undefFe : Nat → FeState
  /-- ERR_INFO's value for an offending length of 2^32 or more, by that length (60_exceptions.md R261; log 34), a free value. -/
  wideLength : Nat → Word

/-- BUF_SIZE (00_scope.md R10: a power of two). -/
def Params.bufSize (P : Params) : Nat := 2 ^ P.bufBits

end Sys2Proof.Machine
end

