-- ==== Sys2Proof/Machine/Schemes.lean ====
section
/-! DEFINITION. Scheme identifiers, lengths and names (30_encoding.md R104 to R107, 40_packetizer_config.md R130, R131, R134,
42_scheme_names.md R190). -/

namespace Sys2Proof.Machine

/-- The scheme None, of both tables (30_encoding.md R104, R105). -/
def schemeNone : Byte := 1#8

/-- "An ED id is known if it is 1..6" (30_encoding.md R106). -/
def knownEd (ed : Byte) : Bool := decide (1 ≤ ed.toNat ∧ ed.toNat ≤ 6)

/-- "A FEC id is known if it is 1, 2 or an id registered in FEC_EXTRA" (30_encoding.md R106); the registry's ids are
3..255 (R105). -/
def knownFec (P : Params) (fec : Byte) : Bool :=
  match fec.toNat with
  | 0 => false
  | 1 => true
  | 2 => true
  | _ => (P.fecExtra fec).isSome

/-- "A modulation id m is known if MOD_BPS(m) is defined" (30_encoding.md R107). -/
def knownMod (P : Params) (m : Byte) : Bool := (P.modBps m).isSome

/-- MOD_BPS of a known modulation id; 0 for an id that is not known, which no run reaches (log 19). -/
def bitsPerSymbol (P : Params) (m : Byte) : Nat := (P.modBps m).getD 0

/-- K(ed), the key length in bytes (30_encoding.md R104); 0 for an id that is not known (log 19). -/
def keyLen (ed : Byte) : Nat :=
  match ed.toNat with
  | 2 => 1
  | 3 => 1
  | 4 => 2
  | 5 => 3
  | 6 => 4
  | _ => 0

/-- FECLEN(Hamming(7,4), n) (30_encoding.md R105). -/
def hammingLen (n : Nat) : Nat := ceilDiv (7 * n) 4

/-- FECLEN(fec, n) (30_encoding.md R105); n for an id that is not known (log 19). -/
def fecLen (P : Params) (fec : Byte) (n : Nat) : Nat :=
  match fec.toNat with
  | 0 => n
  | 1 => n
  | 2 => hammingLen n
  | _ =>
    match P.fecExtra fec with
    | some e => e.len n
    | none => n

/-- f(L, ed, inner, outer), the encoded length (40_packetizer_config.md R131). -/
def encLen (P : Params) (L : Nat) (ed inner outer : Byte) : Nat :=
  fecLen P outer (fecLen P inner (L + keyLen ed))

/-- The largest L in [1, n] with f(L, ed, inner, outer) ≤ E, or 0 if there is none. -/
def largestFit (P : Params) (E : Nat) (ed inner outer : Byte) : Nat → Nat
  | 0 => 0
  | n + 1 => if encLen P (n + 1) ed inner outer ≤ E then n + 1 else largestFit P E ed inner outer n

/-- g(E, ed, inner, outer), the decoded length (40_packetizer_config.md R134). -/
def decLen (P : Params) (E : Nat) (ed inner outer : Byte) : Nat := largestFit P E ed inner outer P.maxDecLen

/-- "unknown" -/
def nameUnknown : List Byte := [0x75, 0x6E, 0x6B, 0x6E, 0x6F, 0x77, 0x6E]

/-- "none" -/
def nameNone : List Byte := [0x6E, 0x6F, 0x6E, 0x65]

/-- "hamming74" -/
def nameHamming : List Byte := [0x68, 0x61, 0x6D, 0x6D, 0x69, 0x6E, 0x67, 0x37, 0x34]

/-- The name column of 30_encoding.md R104. -/
def edName (id : Byte) : List Byte :=
  match id.toNat with
  | 1 => nameNone
  | 2 => [0x63, 0x68, 0x65, 0x63, 0x6B, 0x73, 0x75, 0x6D, 0x38] -- "checksum8"
  | 3 => [0x63, 0x72, 0x63, 0x38] -- "crc8"
  | 4 => [0x63, 0x72, 0x63, 0x31, 0x36] -- "crc16"
  | 5 => [0x63, 0x72, 0x63, 0x32, 0x34] -- "crc24"
  | 6 => [0x63, 0x72, 0x63, 0x33, 0x32] -- "crc32"
  | _ => nameUnknown

/-- The name column of 30_encoding.md R105. -/
def fecName (P : Params) (id : Byte) : List Byte :=
  match id.toNat with
  | 0 => nameUnknown
  | 1 => nameNone
  | 2 => nameHamming
  | _ =>
    match P.fecExtra id with
    | some e => e.name
    | none => nameUnknown

/-- NAME(kind, id) of 42_scheme_names.md R191: kind 0 is the error-detection table, 1 the FEC table
(30_encoding.md R108). -/
def schemeName (P : Params) (kind : Bool) (id : Byte) : List Byte :=
  if kind then fecName P id else edName id

/-- Known ids of the table of a kind (30_encoding.md R106). -/
def knownScheme (P : Params) (kind : Bool) (id : Byte) : Bool :=
  if kind then knownFec P id else knownEd id

/-- "the known id of table kw[8] whose name equals q, or 0 if there is none" (42_scheme_names.md R193). -/
def schemeIdOfName (P : Params) (kind : Bool) (q : List Byte) : Nat :=
  ((List.range 256).find? fun id =>
    knownScheme P kind (BitVec.ofNat 8 id) && decide (schemeName P kind (BitVec.ofNat 8 id) = q)).getD 0

end Sys2Proof.Machine
end

