-- ==== Sys2Proof/Machine/Coding.lean ====
section
/-! DEFINITION. The coding pipeline: key, FEC stages, interleaver, encode, decode, soft decode
(41_packetizer_coding.md R160 to R164). -/

namespace Sys2Proof.Machine

/-- The Checksum8 key: (256 - (sum mod 256)) mod 256 (41_packetizer_coding.md R162). -/
def checksum8 (m : List Byte) : Byte :=
  BitVec.ofNat 8 ((256 - (m.foldr (fun b acc => b.toNat + acc) 0) % 256) % 256)

/-- KEY(ed, m) (41_packetizer_coding.md R162); a CRC key is written most significant byte first (20_memory.md R83). -/
def keyOf (P : Params) (ed : Byte) (m : List Byte) : List Byte :=
  match ed.toNat with
  | 2 => [checksum8 m]
  | 3 => beBytes 1 (P.crc 8 m).toNat
  | 4 => beBytes 2 (P.crc 16 m).toNat
  | 5 => beBytes 3 (P.crc 24 m).toNat
  | 6 => beBytes 4 (P.crc 32 m).toNat
  | _ => []

/-- The codec None, the identity (41_packetizer_coding.md R161); it corrects nothing: t(None, n) = 0. -/
def codecNone : FecCodec :=
  { enc := fun a => a, dec := fun b _ => b, decSoft := fun s _ => pack (slice s), bound := fun _ => 0,
    fixes := fun _ ps => ps.isEmpty }

/-- The codec of a FEC id (30_encoding.md R105); None's for an id that is not known, which no run reaches (log 19). -/
def fecCodec (P : Params) (fec : Byte) : FecCodec :=
  match fec.toNat with
  | 0 => codecNone
  | 1 => codecNone
  | 2 => P.hamming
  | _ =>
    match P.fecExtra fec with
    | some e => e.codec
    | none => codecNone

/-- FEC_ENC(fec, a) (41_packetizer_coding.md R161). -/
def fecEnc (P : Params) (fec : Byte) (a : List Byte) : List Byte := (fecCodec P fec).enc a

/-- FEC_DEC(fec, b, n) (41_packetizer_coding.md R161). -/
def fecDec (P : Params) (fec : Byte) (b : List Byte) (n : Nat) : List Byte := (fecCodec P fec).dec b n

/-- FEC_DEC_SOFT(fec, s, n) (41_packetizer_coding.md R161). -/
def fecDecSoft (P : Params) (fec : Byte) (s : List Byte) (n : Nat) : List Byte := (fecCodec P fec).decSoft s n

/-- ILV(n, b): output position π_n(k) is input position k (41_packetizer_coding.md R161). -/
def ilv (P : Params) (n : Nat) (b : List Byte) : List Byte :=
  pack (List.ofFn fun k : Fin (8 * n) => (bits b).getD ((P.intlv n).symm k).val false)

/-- DILV(n, b): output position k is input position π_n(k) (41_packetizer_coding.md R161). -/
def dilv (P : Params) (n : Nat) (b : List Byte) : List Byte :=
  pack (List.ofFn fun k : Fin (8 * n) => (bits b).getD (P.intlv n k).val false)

/-- DILV_S(n, s), the same on soft values (41_packetizer_coding.md R161). -/
def dilvSoft (P : Params) (n : Nat) (s : List Byte) : List Byte :=
  List.ofFn fun k : Fin (8 * n) => s.getD (P.intlv n k).val 0

/-- A packetizer record: decoded length and scheme triple (41_packetizer_coding.md R160, 45_frame_sync.md R202). -/
structure Pkt where
  len : Nat
  ed : Byte
  inner : Byte
  outer : Byte
deriving DecidableEq, Repr

/-- L1 = L + K(ed) (41_packetizer_coding.md R160). -/
def Pkt.keyedLen (p : Pkt) : Nat := p.len + keyLen p.ed

/-- L2 = FECLEN(inner, L1) (41_packetizer_coding.md R160). -/
def Pkt.innerLen (P : Params) (p : Pkt) : Nat := fecLen P p.inner p.keyedLen

/-- E = f(L, ed, inner, outer) (40_packetizer_config.md R131). -/
def Pkt.encodedLen (P : Params) (p : Pkt) : Nat := encLen P p.len p.ed p.inner p.outer

/-- ENC(m) (41_packetizer_coding.md R160); it has E bytes and DEC of it is (m, true) (R166). -/
def pktEnc (P : Params) (p : Pkt) (m : List Byte) : List Byte :=
  fecEnc P p.outer (ilv P (p.innerLen P) (fecEnc P p.inner (m ++ keyOf P p.ed m)))

/-- SPLIT(a') (41_packetizer_coding.md R164); SPLIT of m ‖ KEY(ed, m) is (m, true) (R166). -/
def pktSplit (P : Params) (p : Pkt) (a : List Byte) : List Byte × Bool :=
  (a.take p.len,
    decide (p.ed = schemeNone) || decide ((a.drop p.len).take (keyLen p.ed) = keyOf P p.ed (a.take p.len)))

/-- DEC(d), hard decision (41_packetizer_coding.md R164); the inverse of ENC (R166). -/
def pktDec (P : Params) (p : Pkt) (d : List Byte) : List Byte × Bool :=
  pktSplit P p (fecDec P p.inner (dilv P (p.innerLen P) (fecDec P p.outer d (p.innerLen P))) p.keyedLen)

/-- The soft values after the outer stage (41_packetizer_coding.md R164, 90_conflicts.md C5). -/
def outerSoft (P : Params) (p : Pkt) (s : List Byte) : List Byte :=
  if p.outer = schemeNone then s else soft (fecDecSoft P p.outer s (p.innerLen P))

/-- DECSOFT(s) (41_packetizer_coding.md R164); on soft(ENC(m)) the inverse of ENC (R166). -/
def pktDecSoft (P : Params) (p : Pkt) (s : List Byte) : List Byte × Bool :=
  pktSplit P p (fecDecSoft P p.inner (dilvSoft P (p.innerLen P) (outerSoft P p s)) p.keyedLen)

end Sys2Proof.Machine
end

