-- ==== Sys2Proof/Config.lean ====
section
/-! DEFINITION. What an implementation fixes: the laws the spec requires of the parameters, the parameters of this machine,
and the free values (00_scope.md R10, 41_packetizer_coding.md R161, 45_frame_sync.md R203, 93_implementation_defined.md). -/

namespace Sys2Proof.Machine

/-- The laws of one FEC codec whose length function is `len` (41_packetizer_coding.md R161). -/
structure FecCodec.Lawful (c : FecCodec) (len : Nat → Nat) : Prop where
  enc_length : ∀ a, (c.enc a).length = len a.length
  dec_length : ∀ b n, b.length = len n → (c.dec b n).length = n
  decSoft_length : ∀ s n, s.length = 8 * len n → (c.decSoft s n).length = n
  /-- "Round trip: FEC_DEC(fec, FEC_ENC(fec, a), n) = a." -/
  round_trip : ∀ a, c.dec (c.enc a) a.length = a
  /-- "Hard-input consistency: FEC_DEC_SOFT(fec, soft(b), n) = FEC_DEC(fec, b, n) for every b." -/
  hard_input : ∀ b n, b.length = len n → c.decSoft (soft b) n = c.dec b n
  /-- Correction capability (DEDUCED, log 18). -/
  corrects : ∀ a ps, c.fixes a.length ps = true → c.dec (flipBits ps (c.enc a)) a.length = a
  fixes_bound : ∀ n ps, c.fixes n ps = true → ps.length ≤ c.bound n

/-- The laws of a length function: "monotonic non-decreasing in n, and FECLEN(fec, n) ≥ n" (R161). -/
structure LenLawful (len : Nat → Nat) : Prop where
  mono : ∀ m n, m ≤ n → len m ≤ len n
  expand : ∀ n, n ≤ len n

/-- "drawn from lowercase ASCII letters and digits" (42_scheme_names.md R190). -/
def nameChar (b : Byte) : Bool :=
  decide (0x61 ≤ b.toNat ∧ b.toNat ≤ 0x7A) || decide (0x30 ≤ b.toNat ∧ b.toNat ≤ 0x39)

/-- "A registered FEC_EXTRA id must carry a distinct name of this form that is not unknown" (42_scheme_names.md R190). -/
structure FecEntry.Lawful (e : FecEntry) : Prop where
  len : LenLawful e.len
  codec : e.codec.Lawful e.len
  name_length : 1 ≤ e.name.length ∧ e.name.length ≤ 15
  name_chars : ∀ b ∈ e.name, nameChar b = true
  name_new : e.name ≠ nameUnknown ∧ e.name ≠ nameNone ∧ e.name ≠ nameHamming

/-- Front-end states that FE_INIT(cfg), FE_STEP and FE_CLEAR can produce. -/
inductive FeReach (P : BlockParams) (cfg : FsCfg) : FeState → Prop where
  | init : FeReach P cfg (P.feInit cfg)
  | step (fe : FeState) (m : FeMode) (x : Sample) : FeReach P cfg fe → FeReach P cfg (P.feStep fe m x).1
  | clear (fe : FeState) : FeReach P cfg fe → FeReach P cfg (P.feClear fe)

/-- The sample I = Q = 0. -/
def Sample.zero : Sample := ⟨0, 0⟩

/-- Front-end states to which, since the last FE_INIT or FE_CLEAR, only zero samples were given
(the premise of the silence law, 45_frame_sync.md R203). -/
inductive FeSilent (P : BlockParams) (cfg : FsCfg) : FeState → Prop where
  | init : FeSilent P cfg (P.feInit cfg)
  | clear (fe : FeState) : FeReach P cfg fe → FeSilent P cfg (P.feClear fe)
  | step (fe : FeState) (m : FeMode) : FeSilent P cfg fe → FeSilent P cfg (P.feStep fe m Sample.zero).1

/-- The laws of the front end (45_frame_sync.md R203). -/
structure FrontEndLawful (P : BlockParams) : Prop where
  /-- "trigger occurs only in mode DET." -/
  trigger_det : ∀ fe m x tau cfo, (P.feStep fe m x).2 = .trigger tau cfo → ∃ th, m = .det th
  /-- "symbol occurs only in the other modes." -/
  symbol_not_det : ∀ fe th x y, (P.feStep fe (.det th) x).2 ≠ .symbol y
  demod_length : ∀ m k y, P.modBps m = some k → (P.demod m y).length = k
  clear_persist : ∀ fe, (P.feClear fe).persist = fe.persist
  clear_frame : ∀ cfg fe, FeReach P cfg fe → (P.feClear fe).frame = (P.feInit cfg).frame
  /-- The silence law. -/
  silence : ∀ cfg fe th tau cfo, FeSilent P cfg fe → (P.feStep fe (.det th) Sample.zero).2 ≠ .trigger tau cfo

/-- The laws the spec requires of the parameters (00_scope.md R10 and the rules it names). -/
structure Params.Lawful (P : Params) : Prop where
  numCtx : 1 ≤ P.numCtx ∧ P.numCtx ≤ 16
  maxDecLen : 1 ≤ P.maxDecLen ∧ P.maxDecLen ≤ 2 ^ 24
  bufBits : 12 ≤ P.bufBits ∧ P.bufBits ≤ 31
  /-- "REG_BASE (4 KiB-aligned) and BUF_BASE (BUF_SIZE-aligned)" (20_memory.md R90). -/
  regBase : P.regBase % 4096 = 0
  bufBase : P.bufBase % P.bufSize = 0
  hamming : P.hamming.Lawful hammingLen
  /-- "Hamming(7,4) corrects one bit error in each 7-bit codeword" (R161): bit j of codeword c has a place of its own, and
  any error of at most one bit a codeword is corrected. -/
  hammingPos_lt : ∀ n c j, c < 2 * n → j < 7 → P.hammingPos n c j < 8 * hammingLen n
  hammingPos_inj : ∀ n c j c' j', c < 2 * n → c' < 2 * n → j < 7 → j' < 7 →
    P.hammingPos n c j = P.hammingPos n c' j' → c = c' ∧ j = j'
  hamming_one_each : ∀ n (es : List (Nat × Nat)), (∀ e ∈ es, e.1 < 2 * n ∧ e.2 < 7) → (es.map Prod.fst).Nodup →
    P.hamming.fixes n (es.map fun e => P.hammingPos n e.1 e.2) = true
  extra_id : ∀ id e, P.fecExtra id = some e → 3 ≤ id.toNat
  extra : ∀ id e, P.fecExtra id = some e → e.Lawful
  extra_distinct : ∀ id id' e e', P.fecExtra id = some e → P.fecExtra id' = some e' → e.name = e'.name → id = id'
  /-- "Range: for every known triple, f(MAX_DEC_LEN, ed, inner, outer) ≤ 2^32 − 1" (R161). -/
  range : ∀ ed inner outer, knownEd ed = true → knownFec P inner = true → knownFec P outer = true →
    encLen P P.maxDecLen ed inner outer ≤ 2 ^ 32 - 1
  /-- MOD_BPS has values 1..8 and none for id 0 (30_encoding.md R107). -/
  modBps : ∀ m k, P.modBps m = some k → 1 ≤ k ∧ k ≤ 8
  modBps_zero : P.modBps 0 = none
  syncLen : 1 ≤ P.syncLen
  frontEnd : FrontEndLawful P.toBlockParams

/-! ## A stand-in instance

The parameters have lawful values: this instance shows it, and no statement rests on it. It is the test instance of
95_test_vectors.md section 0, with the default values of 00_scope.md R10 and the scripted front end SFE. That file leaves the
Hamming codec and CRC_FN open: the stand-in's Hamming code puts codeword c at the encoded bits 7c..7c+6 as p1 p2 d1 p3 d2 d3 d4,
and its CRC_FN is a sum. -/

/-- Bit k of the stand-in's encoded bits, from the message bits x. -/
def standInEncBit (x : Nat → Bool) (k : Nat) : Bool :=
  match k % 7 with
  | 0 => xor (x (4 * (k / 7))) (xor (x (4 * (k / 7) + 1)) (x (4 * (k / 7) + 3)))
  | 1 => xor (x (4 * (k / 7))) (xor (x (4 * (k / 7) + 2)) (x (4 * (k / 7) + 3)))
  | 2 => x (4 * (k / 7))
  | 3 => xor (x (4 * (k / 7) + 1)) (xor (x (4 * (k / 7) + 2)) (x (4 * (k / 7) + 3)))
  | 4 => x (4 * (k / 7) + 1)
  | 5 => x (4 * (k / 7) + 2)
  | _ => x (4 * (k / 7) + 3)

/-- The place of the wrong bit of a received codeword y, counted from 1, or 0. -/
def standInSyndrome (y : Nat → Bool) : Nat :=
  (xor (y 0) (xor (y 2) (xor (y 4) (y 6)))).toNat
    + 2 * (xor (y 1) (xor (y 2) (xor (y 5) (y 6)))).toNat
    + 4 * (xor (y 3) (xor (y 4) (xor (y 5) (y 6)))).toNat

/-- Data bit d of a received codeword y, corrected. -/
def standInDecWord (y : Nat → Bool) (d : Nat) : Bool :=
  match d with
  | 0 => xor (y 2) (decide (standInSyndrome y = 3))
  | 1 => xor (y 4) (decide (standInSyndrome y = 5))
  | 2 => xor (y 5) (decide (standInSyndrome y = 6))
  | _ => xor (y 6) (decide (standInSyndrome y = 7))

/-- Bit k of the stand-in's decoded bits, from the encoded bits x. -/
def standInDecBit (x : Nat → Bool) (k : Nat) : Bool :=
  standInDecWord (fun j => x (7 * (k / 4) + j)) (k % 4)

/-- The stand-in's hard decoder. -/
def standInHammingDec (b : List Byte) (n : Nat) : List Byte :=
  pack ((List.range (8 * n)).map (standInDecBit fun i => (bits b).getD i false))

/-- The stand-in's Hamming(7,4) codec. -/
def standInHamming : FecCodec :=
  { enc := fun a => pack ((List.range (8 * hammingLen a.length)).map fun k =>
      if k < 14 * a.length then standInEncBit (fun i => (bits a).getD i false) k else false)
    dec := standInHammingDec
    decSoft := fun s n => standInHammingDec (pack (slice s)) n
    bound := fun n => 2 * n
    fixes := fun n ps => ps.all (fun p => decide (p < 14 * n)) && decide ((ps.map (· / 7)).Nodup) }

/-- FE_STEP of the scripted front end SFE (95_test_vectors.md section 0). -/
def standInFeStep (fe : FeState) (m : FeMode) (x : Sample) : FeState × FeEvent :=
  match m with
  | .det _ => (fe, if x.i = 0x1000#16 ∧ x.q = 0#16 then .trigger 0 0 else .none)
  | _ => (fe, .symbol (x.i.toNat % 256))

/-- DESC_T of 95_test_vectors.md section 0. -/
def standInDescParse : List Byte → Option Decl
  | [d0, d1] => some { len := d0.toNat, mod := 1, ed := d1, inner := 1, outer := 1 }
  | _ => none

/-- The stand-in instance (95_test_vectors.md section 0). -/
def standInParams : BlockParams :=
  { numCtx := 4
    maxDecLen := 65535
    bufBits := 20
    regBase := 0
    bufBase := 0
    crc := fun w m => BitVec.ofNat w (m.foldr (fun b acc => b.toNat + 31 * acc) 1)
    hamming := standInHamming
    hammingPos := fun _ c j => 7 * c + j
    fecExtra := fun _ => none
    intlv := fun _ => Equiv.refl _
    modBps := fun m => if m = 1 then some 8 else none
    syncLen := 2
    feInit := fun _ => ⟨0, 0⟩
    feStep := standInFeStep
    feClear := fun fe => fe
    feStats := fun _ => ⟨0, 0, 0⟩
    demod := fun m y => if m = 1 then soft [BitVec.ofNat 8 y] else []
    hdrDescLen := 2
    descParse := standInDescParse }

end Sys2Proof.Machine

namespace Sys2Proof

open Sys2Proof.Machine

/-- A free value: what BUF holds at an address after the given power-on reset, "one value per byte, under no law"
(20_memory.md R81; log 5). -/
opaque Config.bufInit : (epoch addr : Nat) → Byte

/-- A free value: whether the k-th racing byte the host reads is the new byte (20_memory.md R93; log 12). -/
opaque Config.raceNew : Nat → Bool

/-- A free value: FS.fe after FS.DESTROY (45_frame_sync.md R218 "undefined"; log 9). -/
opaque Config.undefFe : Nat → FeState

/-- A free value: what ERR_INFO takes for an offending length of 2^32 or more, which no 32-bit register holds
(60_exceptions.md R261, 00_scope.md R11; DESIGN CHOICE, log 34). -/
opaque Config.wideLength : Nat → Word

/-- The parameters `r` of a block with the model's free values. -/
def Config.withFree (r : BlockParams) : Params :=
  { r with
    bufInit := Config.bufInit
    raceNew := Config.raceNew
    undefFe := Config.undefFe
    wideLength := Config.wideLength }

/-- What the implementer of a block chooses for the parameters of 00_scope.md R10: any legal values that keep the laws (log 6, 7). -/
inductive Deployment where
  /-- The stand-in instance. -/
  | standIn
  /-- Any lawful values. -/
  | given (r : BlockParams) (h : (Config.withFree r).Lawful)
deriving Inhabited

/-- The parameters of a deployment. -/
def Deployment.blockParams : Deployment → BlockParams
  | .standIn => standInParams
  | .given r _ => r

/-- The deployment of this block. It has no body: nothing about it can be proved but that its parameters keep the laws
(log 7). -/
opaque Config.deployment : Deployment

/-- The parameters of this block. -/
def Config.params : Params := Config.withFree Config.deployment.blockParams

end Sys2Proof
end

