-- ==== Sys2Proof/Syntax.lean ====
section
/-! DEFINITION. The commands of the block: one constructor per row of the opcode map (30_encoding.md R110). -/

namespace Sys2Proof

/-- A command word, decoded. `c` is the CTX field of 30_encoding.md R100; every other operand is an argument
register or an FS configuration register (R102). -/
inductive Instr where
  | pktEnclen
  | pktDeclen
  | pktCreate (c : Nat)
  | pktReconfig (c : Nat)
  | pktDestroy (c : Nat)
  | pktEncode (c : Nat)
  | pktDecode (c : Nat)
  | pktDecodeSoft (c : Nat)
  | schemeId2name
  | schemeName2id
  | fsCreate
  | fsExecute
  | fsDestroy
deriving DecidableEq, Repr

/-- The CTX operand, for the opcodes whose row of 30_encoding.md R110 says "CTX used". -/
def Instr.ctx? : Instr → Option Nat
  | .pktEnclen => none
  | .pktDeclen => none
  | .pktCreate c => some c
  | .pktReconfig c => some c
  | .pktDestroy c => some c
  | .pktEncode c => some c
  | .pktDecode c => some c
  | .pktDecodeSoft c => some c
  | .schemeId2name => none
  | .schemeName2id => none
  | .fsCreate => none
  | .fsExecute => none
  | .fsDestroy => none

end Sys2Proof
end

