-- ==== Sys2Proof/WellFormed.lean ====
section
/-! DEFINITION. Which commands can be written as a command word. -/

namespace Sys2Proof

/-- The one check: a context number fits the four bits of the CTX field (30_encoding.md R100). Whether the block
has that context is no matter of encoding (R101: a legal word with CTX ≥ NUM_CTX raises CTX_RANGE). -/
def Instr.wellFormed (i : Instr) : Bool :=
  match i.ctx? with
  | none => true
  | some c => decide (c < 16)

end Sys2Proof
end

