-- ==== Sys2Proof/Decode.lean ====
section
/-! DEFINITION. The command word: decoder, then encoder, and the opcode map as the spec prints it
(30_encoding.md R100, R101, R110, R111). -/

namespace Sys2Proof

/-- Why a word is not legal (30_encoding.md R101). -/
inductive DecodeError where
  /-- Bits [31:12] are not zero. -/
  | reservedBits
  /-- OPC is not an opcode of R110. -/
  | reservedOpcode
  /-- CTX is not zero on an opcode that takes no context. -/
  | ctxNotUsed
deriving DecidableEq, Repr

/-- The command an opcode stands for, with its CTX field (30_encoding.md R110). -/
def instrOfOpcode (opc c : Nat) : Option Instr :=
  match opc with
  | 0x01 => some .pktEnclen
  | 0x02 => some .pktDeclen
  | 0x03 => some (.pktCreate c)
  | 0x04 => some (.pktReconfig c)
  | 0x05 => some (.pktDestroy c)
  | 0x06 => some (.pktEncode c)
  | 0x07 => some (.pktDecode c)
  | 0x08 => some (.pktDecodeSoft c)
  | 0x09 => some .schemeId2name
  | 0x0A => some .schemeName2id
  | 0x10 => some .fsCreate
  | 0x11 => some .fsExecute
  | 0x12 => some .fsDestroy
  | _ => none

/-- The command a 32-bit CMD word selects, or the reason it is illegal (30_encoding.md R100, R101, R111). It
depends on the word alone (R112). -/
def decode (w : Word) : Except DecodeError Instr :=
  if w.extractLsb' 12 20 ≠ 0#20 then .error .reservedBits
  else
    match instrOfOpcode (w.extractLsb' 0 8).toNat (w.extractLsb' 8 4).toNat with
    | none => .error .reservedOpcode
    | some i =>
      if i.ctx?.isNone ∧ w.extractLsb' 8 4 ≠ 0#4 then .error .ctxNotUsed else .ok i

/-- `legal(w)` of 30_encoding.md R101. -/
def legal (w : Word) : Bool :=
  match decode w with
  | .ok _ => true
  | .error _ => false

/-- The OPC field of a command (30_encoding.md R110). -/
def Instr.opcode : Instr → Nat
  | .pktEnclen => 0x01
  | .pktDeclen => 0x02
  | .pktCreate _ => 0x03
  | .pktReconfig _ => 0x04
  | .pktDestroy _ => 0x05
  | .pktEncode _ => 0x06
  | .pktDecode _ => 0x07
  | .pktDecodeSoft _ => 0x08
  | .schemeId2name => 0x09
  | .schemeName2id => 0x0A
  | .fsCreate => 0x10
  | .fsExecute => 0x11
  | .fsDestroy => 0x12

/-- The word of a command: OPC in [7:0], CTX in [11:8], zero above (30_encoding.md R100). -/
def encode (i : Instr) : Word := BitVec.ofNat 32 (i.ctx?.getD 0 * 256 + i.opcode)

/-- One row of the opcode map as 30_encoding.md R110 prints it. -/
structure OpcodeRow where
  mnemonic : String
  ctxUsed : Bool
  pattern : Word
  mask : Word
deriving DecidableEq, Repr

/-- The opcode map (30_encoding.md R110). -/
def opcodeRows : List OpcodeRow := [
  ⟨"PKT.ENCLEN", false, 0x00000001, 0xFFFFFFFF⟩,
  ⟨"PKT.DECLEN", false, 0x00000002, 0xFFFFFFFF⟩,
  ⟨"PKT.CREATE", true, 0x00000003, 0xFFFFF0FF⟩,
  ⟨"PKT.RECONFIG", true, 0x00000004, 0xFFFFF0FF⟩,
  ⟨"PKT.DESTROY", true, 0x00000005, 0xFFFFF0FF⟩,
  ⟨"PKT.ENCODE", true, 0x00000006, 0xFFFFF0FF⟩,
  ⟨"PKT.DECODE", true, 0x00000007, 0xFFFFF0FF⟩,
  ⟨"PKT.DECODE_SOFT", true, 0x00000008, 0xFFFFF0FF⟩,
  ⟨"SCHEME.ID2NAME", false, 0x00000009, 0xFFFFFFFF⟩,
  ⟨"SCHEME.NAME2ID", false, 0x0000000A, 0xFFFFFFFF⟩,
  ⟨"FS.CREATE", false, 0x00000010, 0xFFFFFFFF⟩,
  ⟨"FS.EXECUTE", false, 0x00000011, 0xFFFFFFFF⟩,
  ⟨"FS.DESTROY", false, 0x00000012, 0xFFFFFFFF⟩]

/-- "a word w selects the row when (w AND mask) = match" (30_encoding.md R110). -/
def OpcodeRow.selects (r : OpcodeRow) (w : Word) : Bool := decide (w &&& r.mask = r.pattern)

/-- The mnemonic of a command (30_encoding.md R110). -/
def Instr.mnemonic : Instr → String
  | .pktEnclen => "PKT.ENCLEN"
  | .pktDeclen => "PKT.DECLEN"
  | .pktCreate _ => "PKT.CREATE"
  | .pktReconfig _ => "PKT.RECONFIG"
  | .pktDestroy _ => "PKT.DESTROY"
  | .pktEncode _ => "PKT.ENCODE"
  | .pktDecode _ => "PKT.DECODE"
  | .pktDecodeSoft _ => "PKT.DECODE_SOFT"
  | .schemeId2name => "SCHEME.ID2NAME"
  | .schemeName2id => "SCHEME.NAME2ID"
  | .fsCreate => "FS.CREATE"
  | .fsExecute => "FS.EXECUTE"
  | .fsDestroy => "FS.DESTROY"

/-- What the decoder reads from a table word: `w` has `nbits` bits, and a command is one 32-bit word (30_encoding.md R100),
so the bits above `nbits` are 0. -/
def decodeTableWord (nbits w : Nat) : Option Instr :=
  match decode (BitVec.ofNat 32 (w % 2 ^ nbits)) with
  | .ok i => some i
  | .error _ => none

end Sys2Proof
end

