-- ==== Sys2Proof/Machine/State.lean ====
section
/-! DEFINITION. The state of one PFS core, the ways a step can stop, and the state after power-on reset
(10_state.md R30 to R79). -/

namespace Sys2Proof.Machine

/-! ## Error codes -/

/-- The error codes of 60_exceptions.md R260. -/
inductive ErrCode where
  | none
  | illegalCmd
  | illegalArg
  | configScheme
  | configLength
  | ctxRange
  | ctxState
  | bufRange
  | zeroLength
  | fsState
  | configMod
deriving DecidableEq, Repr

/-- What a failing check of a command hands to `raise Error(code, info)` (60_exceptions.md R261). -/
structure CmdError where
  code : ErrCode
  info : Word
deriving DecidableEq, Repr

/-! ## Registers and records -/

/-- ARG0 to ARG3, and their copies ENG.arg[0..3] (10_state.md R38, R47). -/
structure Args where
  a0 : Word
  a1 : Word
  a2 : Word
  a3 : Word
deriving DecidableEq, Repr

/-- REGS: the registers of 10_state.md R32 that hold something of their own. A reserved field holds nothing: it reads 0 and
its writes are ignored (R33). STATUS.BUSY is ENG.busy (R47). -/
structure Regs where
  arg : Args
  result0 : Word
  result1 : Word
  /-- STATUS.DONE, ERR, VALID, ERR_CODE, LAST_OPC (R40). -/
  done : Bool
  err : Bool
  valid : Bool
  errCode : Byte
  lastOpc : Byte
  errInfo : Word
  /-- INT_STATUS: bit 0 DONE, 1 ERR, 2 FRAME, 3 OVR (R42). -/
  intStatus : BitVec 4
  intEnable : BitVec 4
  /-- FS_CTRL: bit 0 PROFILE, bit 1 HDR_FAIL (R60). -/
  fsCtrl : BitVec 2
  fsHdrCfg : Word
  fsPayCfg : Word
  fsPayLen : Word
  fsDetThresh : Word
  fsOutAddr : Word
  /-- FS_EVT.HDR_VALID and FS_EVT.PAY_VALID (R69). -/
  evtHdrValid : Bool
  evtPayValid : Bool
  fsEvtLen : Word
  statEvm : Word
  statRssi : Word
  statCfo : Word
  statNsym : Word
  statMod : Word
  statScheme : Word
deriving DecidableEq, Repr

/-- CTX[c] (10_state.md R45). -/
structure Ctx where
  configured : Bool
  len : Word
  ed : Byte
  inner : Byte
  outer : Byte
  enc : Word
deriving DecidableEq, Repr

/-- "If not configured, every field is 0" (10_state.md R45). -/
def Ctx.unconfigured : Ctx := ⟨false, 0, 0, 0, 0, 0⟩

/-- ENG (10_state.md R47). `started` says that an execution step of the accepted command has run
(60_exceptions.md R266, 45_frame_sync.md R215; DEDUCED, log 4, safe). -/
structure Eng where
  busy : Bool
  opc : Byte
  ctx : BitVec 4
  arg : Args
  started : Bool
deriving DecidableEq, Repr

/-- The state tag of the FS engine (10_state.md R66, R77, 45_frame_sync.md R200). -/
inductive FsTag where
  | detect
  | sync
  | rxHeader
  | rxPayload
  | callback
  | reset
deriving DecidableEq, Repr

/-- FS.cur, the payload configuration of the frame attempt (10_state.md R77). -/
structure Cur where
  len : Nat
  mod : Byte
  ed : Byte
  inner : Byte
  outer : Byte
  enc : Nat
deriving DecidableEq, Repr

/-- All fields 0. -/
def Cur.zero : Cur := ⟨0, 0, 0, 0, 0, 0⟩

/-- FS (10_state.md R77). -/
structure Fs where
  configured : Bool
  tag : FsTag
  cfg : FsCfg
  fe : FeState
  tau : FeCode
  cfo : FeCode
  symCount : Word
  acc : List Byte
  hdr : List Byte
  hdrValid : Bool
  cur : Cur
  paySyms : Word
  evtPending : Bool
  inFlight : Bool
  execOff : Word
  execLeft : Word
deriving DecidableEq, Repr

/-! ## The host's side -/

/-- The width of a host access: 1, 2 or 4 bytes (20_memory.md R85, R86). -/
inductive Width where
  | b1
  | b2
  | b4
deriving DecidableEq, Repr

/-- Where a host access goes: an offset of the register block, an offset of BUF, or a host address
(20_memory.md R82, R90). -/
inductive Target where
  | reg (off : Nat)
  | buf (off : Nat)
  | addr (a : Nat)
deriving DecidableEq, Repr

/-- One turn: an atomic step of one agent (00_scope.md R14, R15; DESIGN CHOICE, log 1, safe: every interleaving of the agents is
a list of turns). -/
inductive Turn where
  /-- The block takes its enabled step, if it has one. -/
  | engine
  | write (t : Target) (w : Width) (v : Word)
  | read (t : Target) (w : Width)
  /-- "repeat rd until (x[REG] AND mask) = v" (30_encoding.md R113). -/
  | poll (off : Nat) (mask v : Word)
  /-- Power-on reset (70_reset_and_hazards.md R291). -/
  | por
deriving DecidableEq, Repr

/-! ## BUF -/

/-- BUF's contents where they differ from what an unlisted address reads as: addresses strictly rising
(20_memory.md R80, R81). The operations are in Machine/Memory.lean. -/
abbrev Memory := List Host.Cell

/-! ## The state -/

/-- The state of one PFS core, `(REGS, CTX, ENG, FS, BUF)` (10_state.md R30), and the model's own fields: the host's coming
turns, what its reads returned, the count of power-on resets and the count of free values drawn (log 1, 5, 11). -/
structure State where
  regs : Regs
  /-- CTX[c] for every value of the four-bit CTX field; those with c ≥ NUM_CTX stay unconfigured (log 24). -/
  ctxs : Vector Ctx 16
  eng : Eng
  fs : Fs
  buf : Memory
  agenda : List Turn
  seen : List Word
  epoch : Nat
  free : Nat
deriving DecidableEq, Repr

/-! ## How a step can stop -/

/-- The machine's faults. -/
inductive Fault where
  /-- Raised by an FS engine step whose MemRead or MemWrite of `len` bytes at `off` does not lie in BUF, which 00_scope.md R13
  leaves undefined. Safe: FS.CREATE and FS.EXECUTE check every such range before the engine runs (45_frame_sync.md R211, R213),
  so no run from reset raises it (log 21). -/
  | bufBounds (off len : Nat)
deriving DecidableEq, Repr

/-- The machine's refusals. -/
inductive Refusal where
  /-- Raised by a command that has no meaning yet. Safe. -/
  | notModelled (mnemonic : String)
  /-- Raised by a host access of the register block at an offset or width that 20_memory.md R85 calls a host-contract violation:
  "the model refuses the host step that makes it". Safe. -/
  | regAccess (off : Nat) (w : Width)
  /-- Raised by a host access that reaches past BUF_SIZE: "outside the block. The platform defines what it does"
  (20_memory.md R86). Safe. -/
  | bufAccess (off : Nat) (w : Width)
  /-- Raised by a host access to an address in neither window of the block (20_memory.md R90). Safe. -/
  | outsideBlock (a : Nat)
  /-- Raised by a host write into the footprint of a running command outside an event hold: "The model refuses the host step"
  (20_memory.md R93, 70_reset_and_hazards.md R304). Safe. -/
  | footprintRace (off : Nat) (w : Width)
deriving DecidableEq, Repr

/-! ## Reset -/

/-- The registers after POR: the reset column of 10_state.md R32 (R79). -/
def Regs.reset : Regs :=
  { arg := ⟨0, 0, 0, 0⟩, result0 := 0, result1 := 0, done := false, err := false, valid := false, errCode := 0,
    lastOpc := 0, errInfo := 0, intStatus := 0, intEnable := 0, fsCtrl := 0, fsHdrCfg := 0, fsPayCfg := 0, fsPayLen := 0,
    fsDetThresh := 0, fsOutAddr := 0, evtHdrValid := false, evtPayValid := false, fsEvtLen := 0, statEvm := 0,
    statRssi := 0, statCfo := 0, statNsym := 0, statMod := 0, statScheme := 0 }

/-- ENG after POR (10_state.md R79). -/
def Eng.reset : Eng := { busy := false, opc := 0, ctx := 0, arg := ⟨0, 0, 0, 0⟩, started := false }

/-- FS after POR (10_state.md R79). The spec leaves fe, tau and cfo undefined; zero is a DESIGN CHOICE (log 9, 10), unsafe. -/
def Fs.reset : Fs :=
  { configured := false, tag := .detect, cfg := FsCfg.zero, fe := ⟨0, 0⟩, tau := 0, cfo := 0, symCount := 0, acc := [],
    hdr := [], hdrValid := false, cur := Cur.zero, paySyms := 0, evtPending := false, inFlight := false, execOff := 0,
    execLeft := 0 }

/-- The machine after power-on reset (10_state.md R79, 70_reset_and_hazards.md R290). The block runs nothing of its own (R294):
how a program comes to run is in log 2. -/
def State.reset : State :=
  { regs := Regs.reset, ctxs := Vector.replicate 16 Ctx.unconfigured, eng := Eng.reset, fs := Fs.reset, buf := [],
    agenda := [], seen := [], epoch := 0, free := 0 }

end Sys2Proof.Machine
end

