-- ==== Sys2Proof/Machine/Flags.lean ====
section
/-! DEFINITION. The status words and flags as the host reads them, the interrupt bits and the interrupt output
(10_state.md R40, R42, R43, R66, R69, 60_exceptions.md R260, R270). -/

namespace Sys2Proof.Machine

/-- The value of an error code in STATUS.ERR_CODE (60_exceptions.md R260). -/
def ErrCode.toByte : ErrCode → Byte
  | .none => 0x00
  | .illegalCmd => 0x01
  | .illegalArg => 0x02
  | .configScheme => 0x03
  | .configLength => 0x04
  | .ctxRange => 0x05
  | .ctxState => 0x06
  | .bufRange => 0x07
  | .zeroLength => 0x08
  | .fsState => 0x09
  | .configMod => 0x0A

/-- One bit as a register field. -/
def flagBit (b : Bool) : BitVec 1 := if b then 1#1 else 0#1

/-- `zext_32` of a truth value. -/
def flagWord (b : Bool) : Word := if b then 1#32 else 0#32

/-- STATUS as the host reads it (10_state.md R40). -/
def statusWord (s : State) : Word :=
  0#8 ++ s.regs.lastOpc ++ s.regs.errCode ++ 0#4
    ++ flagBit s.regs.valid ++ flagBit s.regs.err ++ flagBit s.regs.done ++ flagBit s.eng.busy

/-- The code of a state tag in FS_STATUS.STATE (10_state.md R66). -/
def FsTag.code : FsTag → BitVec 3
  | .detect => 0
  | .sync => 1
  | .rxHeader => 2
  | .rxPayload => 3
  | .callback => 4
  | .reset => 5

/-- FS_STATUS as the host reads it (10_state.md R66). -/
def fsStatusWord (s : State) : Word :=
  0#26 ++ flagBit s.fs.inFlight ++ flagBit s.fs.evtPending ++ flagBit s.fs.configured ++ s.fs.tag.code

/-- FS_EVT as the host reads it (10_state.md R69). -/
def fsEvtWord (s : State) : Word := 0#30 ++ flagBit s.regs.evtPayValid ++ flagBit s.regs.evtHdrValid

/-- The INT_STATUS bits (10_state.md R42). -/
def intDone : BitVec 4 := 0b0001#4
/-- INT_STATUS.ERR. -/
def intErr : BitVec 4 := 0b0010#4
/-- INT_STATUS.FRAME. -/
def intFrame : BitVec 4 := 0b0100#4
/-- INT_STATUS.OVR. -/
def intOvr : BitVec 4 := 0b1000#4

/-- INT_STATUS after a step that writes `clear` to it (W1C) and in which the events `set` occur: "the set wins"
(20_memory.md R97, 60_exceptions.md R272). -/
def intNext (old clear set : BitVec 4) : BitVec 4 := (old &&& ~~~clear) ||| set

/-- The interrupt output (60_exceptions.md R270). -/
def irq (s : State) : Bool := decide (s.regs.intStatus &&& s.regs.intEnable ≠ 0#4)

end Sys2Proof.Machine
end

