-- ==== Sys2Proof/Machine/Memory.lean ====
section
/-! DEFINITION. The operations on BUF, over a list in one canonical form. `d` is what an unlisted address reads as. -/

namespace Sys2Proof.Machine

/-- The byte at an address. -/
def Memory.read (d : Nat → Byte) : Memory → Nat → Byte
  | [], a => d a
  | (k, v) :: rest, a => if k = a then v else Memory.read d rest a

/-- Write one byte, keeping the addresses rising and no entry that says what an unlisted address reads as. -/
def Memory.write (d : Nat → Byte) : Memory → Nat → Byte → Memory
  | [], a, b => if b = d a then [] else [(a, b)]
  | (k, v) :: rest, a, b =>
    if a < k then (if b = d a then (k, v) :: rest else (a, b) :: (k, v) :: rest)
    else if a = k then (if b = d a then rest else (a, b) :: rest)
    else (k, v) :: Memory.write d rest a b

/-- `MemRead(off, n)` (00_scope.md R13). -/
def Memory.readBytes (d : Nat → Byte) (m : Memory) (off : Nat) : Nat → List Byte
  | 0 => []
  | n + 1 => Memory.read d m off :: Memory.readBytes d m (off + 1) n

/-- `MemWrite(off, n, a)` (00_scope.md R13), n being the length of the byte sequence. -/
def Memory.writeBytes (d : Nat → Byte) (m : Memory) (off : Nat) : List Byte → Memory
  | [] => m
  | b :: rest => Memory.writeBytes d (Memory.write d m off b) (off + 1) rest

/-- The canonical form above a bound: addresses strictly rising, all at least `lo`, no entry equal to the default. -/
def Memory.wfFrom (d : Nat → Byte) : Nat → Memory → Bool
  | _, [] => true
  | lo, (k, v) :: rest => decide (lo ≤ k) && decide (v ≠ d k) && Memory.wfFrom d (k + 1) rest

/-- The canonical form. -/
def Memory.wf (d : Nat → Byte) (m : Memory) : Bool := Memory.wfFrom d 0 m

/-- A range of BUF: its first offset and its length in bytes. -/
structure Range where
  off : Nat
  len : Nat
deriving DecidableEq, Repr

/-- Whether an offset lies in a range. -/
def Range.has (r : Range) (a : Nat) : Bool := decide (r.off ≤ a ∧ a < r.off + r.len)

end Sys2Proof.Machine
end

