-- ==== Sys2Proof/Machine/Operands.lean ====
section
/-! DEFINITION. The fields of the argument and configuration words (30_encoding.md R103, R108, R109, 10_state.md R60 to R62). -/

namespace Sys2Proof.Machine

/-- Scheme word [7:0]: the ED id (30_encoding.md R103); the same place in FS_HDR_CFG and FS_PAY_CFG. -/
def swEd (sw : Word) : Byte := sw.extractLsb' 0 8

/-- Scheme word [15:8]: the inner FEC id. -/
def swInner (sw : Word) : Byte := sw.extractLsb' 8 8

/-- Scheme word [23:16]: the outer FEC id. -/
def swOuter (sw : Word) : Byte := sw.extractLsb' 16 8

/-- Bits [31:24]: reserved in a scheme word (30_encoding.md R103), the modulation id in FS_HDR_CFG and FS_PAY_CFG
(10_state.md R61, R62). -/
def swTop (sw : Word) : Byte := sw.extractLsb' 24 8

/-- `{0, outer, inner, ed}`: the layout of CTX_SCHEME and FS_STAT_SCHEME (10_state.md R44, R76). -/
def schemeWord (ed inner outer : Byte) : Word := 0#8 ++ outer ++ inner ++ ed

/-- Kind/id word [7:0] (30_encoding.md R108). -/
def kwId (kw : Word) : Byte := kw.extractLsb' 0 8

/-- Kind/id word [8]: false is the error-detection table, true the FEC table (30_encoding.md R108). -/
def kwKind (kw : Word) : Bool := kw.getLsbD 8

/-- Kind/id word [31:9]: reserved (30_encoding.md R108). -/
def kwReserved (kw : Word) : BitVec 23 := kw.extractLsb' 9 23

/-- FS_CTRL[0] (10_state.md R60). -/
def ctrlProfile (ct : BitVec 2) : Profile := if ct.getLsbD 0 then .flex else .fixed

/-- FS_CTRL[1] (10_state.md R60). -/
def ctrlHdrFail (ct : BitVec 2) : HdrFail := if ct.getLsbD 1 then .continue else .abort

/-- A length or count as a 32-bit register value (00_scope.md R11; log 23). -/
def toWord (n : Nat) : Word := BitVec.ofNat 32 n

end Sys2Proof.Machine
end

