-- ==== Sys2Proof/Machine/Ops.lean ====
section
/-! DEFINITION. The operations every command shares: raising an error and completing (60_exceptions.md R261, R266), checks,
contexts, and access to BUF. -/

namespace Sys2Proof.Machine

/-! ## Ending a command -/

/-- `raise Error(code, info)` (60_exceptions.md R261): the block's one exception. Nothing else changes (R262). -/
def raise (e : CmdError) (s : State) : State :=
  { s with
    regs := { s.regs with
      done := false, err := true, errCode := e.code.toByte, errInfo := e.info
      intStatus := intNext s.regs.intStatus 0 intErr }
    eng := { s.eng with busy := false } }

/-- `complete()` (60_exceptions.md R266). -/
def complete (s : State) : State :=
  { s with
    regs := { s.regs with done := true, intStatus := intNext s.regs.intStatus 0 intDone }
    eng := { s.eng with busy := false } }

/-- The return from an interrupt: a W1C write of `v` to INT_STATUS (60_exceptions.md R272). -/
def clearInterrupts (v : BitVec 4) (s : State) : State :=
  { s with regs := { s.regs with intStatus := intNext s.regs.intStatus v 0 } }

/-! ## Checks -/

/-- One check of a command rule: the error if `bad` holds. -/
def check (bad : Bool) (code : ErrCode) (info : Word) : Option CmdError :=
  if bad then some ⟨code, info⟩ else none

/-- The first error of the checks in the order a command's rule lists them (60_exceptions.md R265). -/
def firstError : List (Option CmdError) → Option CmdError
  | [] => none
  | some e :: _ => some e
  | none :: rest => firstError rest

/-- A command whose checks all come before its first state change (60_exceptions.md R262): the first error raised, or the
effect. -/
def runChecked (checks : List (Option CmdError)) (effect : State → State) (s : State) : State :=
  match firstError checks with
  | some e => raise e s
  | none => effect s

/-- The three checks of `checkScheme(sw)` (40_packetizer_config.md R130); `which` is 0 for a packetizer command and for the
header word of FS.CREATE, 1 for its payload word (60_exceptions.md R261). -/
def schemeChecks (P : Params) (which : Nat) (sw : Word) : List (Option CmdError) :=
  [ check (!knownEd (swEd sw)) .configScheme (toWord (which * 65536 + 0 * 256 + (swEd sw).toNat)),
    check (!knownFec P (swInner sw)) .configScheme (toWord (which * 65536 + 1 * 256 + (swInner sw).toNat)),
    check (!knownFec P (swOuter sw)) .configScheme (toWord (which * 65536 + 2 * 256 + (swOuter sw).toNat)) ]

/-- ERR_INFO for the offending length L (60_exceptions.md R261). DESIGN CHOICE (log 34), safe: an L of 2^32 or more does not
fit the register, and 00_scope.md R11 says that no such value is written to one; the spec states no other, and ERR_INFO takes a
free value. Only FS.CREATE meets one, in FLEX with HDR_DESC_LEN at least 2^32 - 8. -/
def lengthInfo (P : Params) (L : Nat) : Word := if L < 2 ^ 32 then toWord L else P.wideLength L

/-- `checkLen(L)` (40_packetizer_config.md R130). Its ERR_INFO for an L of 2^32 or more is the model's choice (log 34). -/
def lenCheck (P : Params) (L : Nat) : Option CmdError :=
  check (decide (L < 1 ∨ L > P.maxDecLen)) .configLength (lengthInfo P L)

/-- The bound check of a BUF range, on exact numbers (60_exceptions.md R263); ERR_INFO is the range's start offset (R261). -/
def rangeCheck (P : Params) (off : Word) (len : Nat) : Option CmdError :=
  check (decide (off.toNat + len > P.bufSize)) .bufRange off

/-- The check of a modulation id (30_encoding.md R107, 60_exceptions.md R261). -/
def modCheck (P : Params) (which : Nat) (m : Byte) : Option CmdError :=
  check (!knownMod P m) .configMod (toWord (which * 256 + m.toNat))

/-- CTX_RANGE (60_exceptions.md R264). -/
def ctxRangeCheck (P : Params) (c : Nat) : Option CmdError :=
  check (decide (c ≥ P.numCtx)) .ctxRange (toWord c)

/-! ## Contexts -/

/-- CTX[c]. -/
def State.ctx (s : State) (c : Nat) : Ctx := (s.ctxs[c]?).getD Ctx.unconfigured

/-- CTX[c] <- r. -/
def State.setCtx (s : State) (c : Nat) (r : Ctx) : State := { s with ctxs := s.ctxs.setIfInBounds c r }

/-- The packetizer record of a context. -/
def Ctx.pkt (r : Ctx) : Pkt := ⟨r.len.toNat, r.ed, r.inner, r.outer⟩

/-! ## Results -/

/-- x[RESULT0] <- v. -/
def State.setResult0 (s : State) (v : Word) : State := { s with regs := { s.regs with result0 := v } }

/-- x[RESULT1] <- v. -/
def State.setResult1 (s : State) (v : Word) : State := { s with regs := { s.regs with result1 := v } }

/-- STATUS.VALID <- v. -/
def State.setValid (s : State) (v : Bool) : State := { s with regs := { s.regs with valid := v } }

/-! ## BUF -/

/-- What an address of BUF reads as while nothing has written it (20_memory.md R81; log 5). -/
def State.bufDefault (P : Params) (s : State) : Nat → Byte := P.bufInit s.epoch

/-- The byte of BUF at an offset. -/
def State.byte (P : Params) (s : State) (a : Nat) : Byte := Memory.read (s.bufDefault P) s.buf a

/-- `MemRead(off, n)` (00_scope.md R13). -/
def State.memRead (P : Params) (s : State) (off n : Nat) : List Byte :=
  Memory.readBytes (s.bufDefault P) s.buf off n

/-- `MemWrite(off, n, a)` (00_scope.md R13). -/
def State.memWrite (P : Params) (s : State) (off : Nat) (bs : List Byte) : State :=
  { s with buf := Memory.writeBytes (s.bufDefault P) s.buf off bs }

/-! ## The command in the engine -/

/-- The CMD word of the accepted command, from ENG: a legal word has zero bits [31:12] (30_encoding.md R101). -/
def Eng.word (e : Eng) : Word := 0#20 ++ e.ctx ++ e.opc

end Sys2Proof.Machine
end

