-- ==== Sys2Proof/Machine/FrameSync.lean ====
section
/-! DEFINITION. FS.CREATE, FS.EXECUTE and FS.DESTROY (45_frame_sync.md). -/

namespace Sys2Proof.Machine

/-! ## FS.CREATE (R211) -/

/-- L_h: 8 in FIXED, 8 + HDR_DESC_LEN in FLEX (45_frame_sync.md R202). -/
def headerLen (P : Params) (p : Profile) : Nat :=
  match p with
  | .fixed => 8
  | .flex => 8 + P.hdrDescLen

/-- maxPay: the largest payload an event can carry (45_frame_sync.md R211). -/
def maxPayload (P : Params) (p : Profile) (payLen : Word) : Nat :=
  match p with
  | .fixed => payLen.toNat
  | .flex => P.maxDecLen

/-- usePay: "(ct[0] = FIXED) or (ct[1] = CONTINUE)" (45_frame_sync.md R211). -/
def usesPayConfig (ct : BitVec 2) : Bool :=
  decide (ctrlProfile ct = .fixed) || decide (ctrlHdrFail ct = .continue)

/-- The checks of FS.CREATE. -/
def fsCreateChecks (P : Params) (s : State) : List (Option CmdError) :=
  let r := s.regs
  check s.fs.configured .fsState 1
    :: (schemeChecks P 0 r.fsHdrCfg ++ [modCheck P 0 (swTop r.fsHdrCfg)]
    ++ (if usesPayConfig r.fsCtrl then
          schemeChecks P 1 r.fsPayCfg ++ [modCheck P 1 (swTop r.fsPayCfg), lenCheck P r.fsPayLen.toNat]
        else [])
    ++ [ lenCheck P (headerLen P (ctrlProfile r.fsCtrl)),
         rangeCheck P r.fsOutAddr (8 + maxPayload P (ctrlProfile r.fsCtrl) r.fsPayLen) ])

/-- FS.cfg from the FS configuration registers (10_state.md R78). -/
def latchedCfg (P : Params) (r : Regs) : FsCfg :=
  { profile := ctrlProfile r.fsCtrl, hdrFail := ctrlHdrFail r.fsCtrl
    hdrEd := swEd r.fsHdrCfg, hdrInner := swInner r.fsHdrCfg, hdrOuter := swOuter r.fsHdrCfg, hdrMod := swTop r.fsHdrCfg
    payEd := swEd r.fsPayCfg, payInner := swInner r.fsPayCfg, payOuter := swOuter r.fsPayCfg, payMod := swTop r.fsPayCfg
    payLen := r.fsPayLen, thresh := r.fsDetThresh, outAddr := r.fsOutAddr
    hdrLen := headerLen P (ctrlProfile r.fsCtrl)
    hdrEncLen := encLen P (headerLen P (ctrlProfile r.fsCtrl)) (swEd r.fsHdrCfg) (swInner r.fsHdrCfg) (swOuter r.fsHdrCfg) }

/-- Latch the configuration, FE_INIT, and put the engine in DETECT. -/
def fsCreateEffect (P : Params) (s : State) : State :=
  complete { s with
    fs := { s.fs with
      configured := true, tag := .detect, cfg := latchedCfg P s.regs, fe := P.feInit (latchedCfg P s.regs)
      acc := [], symCount := 0, paySyms := 0, hdr := [], hdrValid := false, cur := Cur.zero
      evtPending := false, inFlight := false } }

/-- FS.CREATE on any parameters. -/
def fsCreate (P : Params) (s : State) : State := runChecked (fsCreateChecks P s) (fsCreateEffect P) s

/-- FS.CREATE (45_frame_sync.md R211). -/
def execFsCreate (s : State) : Host.Outcome State Fault Refusal := .next (fsCreate Config.params s)

/-! ## FS.EXECUTE (R213), its first execution step -/

/-- The checks of FS.EXECUTE, made only in the first execution step (R214). -/
def fsExecuteChecks (P : Params) (s : State) : List (Option CmdError) :=
  [ check (!s.fs.configured) .fsState 0,
    check (decide (s.eng.arg.a0 = 0)) .zeroLength 0,
    rangeCheck P s.eng.arg.a2 (4 * s.eng.arg.a0.toNat) ]

/-- FS.exec_off <- src; FS.exec_left <- n. The FS engine's steps follow (Machine/FsEngine.lean). -/
def fsExecuteEffect (s : State) : State :=
  { s with
    fs := { s.fs with execOff := s.eng.arg.a2, execLeft := s.eng.arg.a0 }
    eng := { s.eng with started := true } }

/-- FS.EXECUTE's first execution step on any parameters. -/
def fsExecute (P : Params) (s : State) : State := runChecked (fsExecuteChecks P s) fsExecuteEffect s

/-- FS.EXECUTE, its first execution step (45_frame_sync.md R213). -/
def execFsExecute (s : State) : Host.Outcome State Fault Refusal := .next (fsExecute Config.params s)

/-! ## FS.DESTROY (R218) -/

/-- The checks of FS.DESTROY. -/
def fsDestroyChecks (s : State) : List (Option CmdError) := [check (!s.fs.configured) .fsState 0]

/-- Release the synchronizer; FS.fe becomes a free value (log 9). -/
def fsDestroyEffect (P : Params) (s : State) : State :=
  complete { s with
    fs := { s.fs with
      configured := false, tag := .detect, fe := P.undefFe s.free
      acc := [], symCount := 0, paySyms := 0, hdr := [], hdrValid := false
      cur := Cur.zero, cfg := FsCfg.zero, evtPending := false, inFlight := false }
    free := s.free + 1 }

/-- FS.DESTROY on any parameters. -/
def fsDestroy (P : Params) (s : State) : State := runChecked (fsDestroyChecks s) (fsDestroyEffect P) s

/-- FS.DESTROY (45_frame_sync.md R218). -/
def execFsDestroy (s : State) : Host.Outcome State Fault Refusal := .next (fsDestroy Config.params s)

end Sys2Proof.Machine
end

