-- ==== Sys2Proof/Machine/PktCoding.lean ====
section
/-! DEFINITION. PKT.ENCODE, PKT.DECODE and PKT.DECODE_SOFT (41_packetizer_coding.md). -/

namespace Sys2Proof.Machine

/-- The checks the three commands share: the context, then the source range, then the destination range
(60_exceptions.md R263, R265). -/
def codingChecks (P : Params) (c : Nat) (srcLen dstLen : Nat) (s : State) : List (Option CmdError) :=
  [ ctxRangeCheck P c,
    check (!(s.ctx c).configured) .ctxState (toWord c),
    rangeCheck P s.eng.arg.a2 srcLen,
    rangeCheck P s.eng.arg.a3 dstLen ]

/-! ## PKT.ENCODE (R165) -/

/-- The checks of PKT.ENCODE. -/
def pktEncodeChecks (P : Params) (c : Nat) (s : State) : List (Option CmdError) :=
  codingChecks P c (s.ctx c).len.toNat (s.ctx c).enc.toNat s

/-- The bytes PKT.ENCODE writes at dst: ENC of the L bytes at src, read before any output is written (20_memory.md R95). -/
def encodedBytes (P : Params) (c : Nat) (s : State) : List Byte :=
  pktEnc P (s.ctx c).pkt (s.memRead P s.eng.arg.a2.toNat (s.ctx c).len.toNat)

/-- Write the encoded bytes; RESULT0 <- E. -/
def pktEncodeEffect (P : Params) (c : Nat) (s : State) : State :=
  complete ((s.memWrite P s.eng.arg.a3.toNat (encodedBytes P c s)).setResult0 (s.ctx c).enc)

/-- PKT.ENCODE on any parameters. -/
def pktEncode (P : Params) (c : Nat) (s : State) : State :=
  runChecked (pktEncodeChecks P c s) (pktEncodeEffect P c) s

/-- PKT.ENCODE (41_packetizer_coding.md R165). -/
def execPktEncode (c : Nat) (s : State) : Host.Outcome State Fault Refusal := .next (pktEncode Config.params c s)

/-! ## PKT.DECODE (R167) and PKT.DECODE_SOFT (R169) -/

/-- Write the decoded bytes m'; RESULT0 and STATUS.VALID <- valid; RESULT1 <- L. -/
def decodedEffect (P : Params) (c : Nat) (r : List Byte × Bool) (s : State) : State :=
  complete ((((s.memWrite P s.eng.arg.a3.toNat r.1).setResult0 (flagWord r.2)).setResult1 (s.ctx c).len).setValid r.2)

/-- The checks of PKT.DECODE. -/
def pktDecodeChecks (P : Params) (c : Nat) (s : State) : List (Option CmdError) :=
  codingChecks P c (s.ctx c).enc.toNat (s.ctx c).len.toNat s

/-- DEC of the E bytes at src. -/
def decodedMessage (P : Params) (c : Nat) (s : State) : List Byte × Bool :=
  pktDec P (s.ctx c).pkt (s.memRead P s.eng.arg.a2.toNat (s.ctx c).enc.toNat)

/-- PKT.DECODE on any parameters. -/
def pktDecode (P : Params) (c : Nat) (s : State) : State :=
  runChecked (pktDecodeChecks P c s) (fun t => decodedEffect P c (decodedMessage P c t) t) s

/-- PKT.DECODE (41_packetizer_coding.md R167). -/
def execPktDecode (c : Nat) (s : State) : Host.Outcome State Fault Refusal := .next (pktDecode Config.params c s)

/-- The checks of PKT.DECODE_SOFT: its source is 8·E bytes (70_reset_and_hazards.md R309). -/
def pktDecodeSoftChecks (P : Params) (c : Nat) (s : State) : List (Option CmdError) :=
  codingChecks P c (8 * (s.ctx c).enc.toNat) (s.ctx c).len.toNat s

/-- DECSOFT of the 8·E soft bytes at src. -/
def softDecodedMessage (P : Params) (c : Nat) (s : State) : List Byte × Bool :=
  pktDecSoft P (s.ctx c).pkt (s.memRead P s.eng.arg.a2.toNat (8 * (s.ctx c).enc.toNat))

/-- PKT.DECODE_SOFT on any parameters. -/
def pktDecodeSoft (P : Params) (c : Nat) (s : State) : State :=
  runChecked (pktDecodeSoftChecks P c s) (fun t => decodedEffect P c (softDecodedMessage P c t) t) s

/-- PKT.DECODE_SOFT (41_packetizer_coding.md R169). -/
def execPktDecodeSoft (c : Nat) (s : State) : Host.Outcome State Fault Refusal := .next (pktDecodeSoft Config.params c s)

end Sys2Proof.Machine
end

