-- ==== Sys2Proof/Machine/PktConfig.lean ====
section
/-! DEFINITION. PKT.ENCLEN, PKT.DECLEN, PKT.CREATE, PKT.RECONFIG and PKT.DESTROY (40_packetizer_config.md). Each command is its
checks in the rule's order and its effect. -/

namespace Sys2Proof.Machine

/-! ## PKT.ENCLEN (R132) -/

/-- The checks of PKT.ENCLEN. -/
def pktEnclenChecks (P : Params) (s : State) : List (Option CmdError) :=
  check (decide (swTop s.eng.arg.a1 ≠ 0)) .illegalArg s.eng.arg.a1
    :: (schemeChecks P 0 s.eng.arg.a1 ++ [lenCheck P s.eng.arg.a0.toNat])

/-- RESULT0 <- f(L, ed, inner, outer). -/
def pktEnclenEffect (P : Params) (s : State) : State :=
  let sw := s.eng.arg.a1
  complete (s.setResult0 (toWord (encLen P s.eng.arg.a0.toNat (swEd sw) (swInner sw) (swOuter sw))))

/-- PKT.ENCLEN on any parameters. -/
def pktEnclen (P : Params) (s : State) : State := runChecked (pktEnclenChecks P s) (pktEnclenEffect P) s

/-- PKT.ENCLEN (40_packetizer_config.md R132). -/
def execPktEnclen (s : State) : Host.Outcome State Fault Refusal := .next (pktEnclen Config.params s)

/-! ## PKT.DECLEN (R134) -/

/-- The checks of PKT.DECLEN; "E is never an error". -/
def pktDeclenChecks (P : Params) (s : State) : List (Option CmdError) :=
  check (decide (swTop s.eng.arg.a1 ≠ 0)) .illegalArg s.eng.arg.a1 :: schemeChecks P 0 s.eng.arg.a1

/-- RESULT0 <- g(E, ed, inner, outer). -/
def pktDeclenEffect (P : Params) (s : State) : State :=
  let sw := s.eng.arg.a1
  complete (s.setResult0 (toWord (decLen P s.eng.arg.a0.toNat (swEd sw) (swInner sw) (swOuter sw))))

/-- PKT.DECLEN on any parameters. -/
def pktDeclen (P : Params) (s : State) : State := runChecked (pktDeclenChecks P s) (pktDeclenEffect P) s

/-- PKT.DECLEN (40_packetizer_config.md R134). -/
def execPktDeclen (s : State) : Host.Outcome State Fault Refusal := .next (pktDeclen Config.params s)

/-! ## PKT.CREATE (R136) and PKT.RECONFIG (R138) -/

/-- The checks the two commands share, `stateBad` being the CTX_STATE condition. -/
def configureChecks (P : Params) (stateBad : Bool) (c : Nat) (s : State) : List (Option CmdError) :=
  ctxRangeCheck P c :: check (decide (swTop s.eng.arg.a1 ≠ 0)) .illegalArg s.eng.arg.a1
    :: check stateBad .ctxState (toWord c)
    :: (schemeChecks P 0 s.eng.arg.a1 ++ [lenCheck P s.eng.arg.a0.toNat])

/-- The record `{true, L, ed, inner, outer, E}` that ARG0 and ARG1 describe. -/
def configuredCtx (P : Params) (s : State) : Ctx :=
  let sw := s.eng.arg.a1
  { configured := true, len := s.eng.arg.a0, ed := swEd sw, inner := swInner sw, outer := swOuter sw,
    enc := toWord (encLen P s.eng.arg.a0.toNat (swEd sw) (swInner sw) (swOuter sw)) }

/-- CTX[c] <- the record; RESULT0 <- E. -/
def configureEffect (P : Params) (c : Nat) (s : State) : State :=
  complete ((s.setCtx c (configuredCtx P s)).setResult0 (configuredCtx P s).enc)

/-- The checks of PKT.CREATE. -/
def pktCreateChecks (P : Params) (c : Nat) (s : State) : List (Option CmdError) :=
  configureChecks P (s.ctx c).configured c s

/-- PKT.CREATE on any parameters. -/
def pktCreate (P : Params) (c : Nat) (s : State) : State :=
  runChecked (pktCreateChecks P c s) (configureEffect P c) s

/-- PKT.CREATE (40_packetizer_config.md R136). -/
def execPktCreate (c : Nat) (s : State) : Host.Outcome State Fault Refusal := .next (pktCreate Config.params c s)

/-- The checks of PKT.RECONFIG. -/
def pktReconfigChecks (P : Params) (c : Nat) (s : State) : List (Option CmdError) :=
  configureChecks P (!(s.ctx c).configured) c s

/-- PKT.RECONFIG on any parameters. -/
def pktReconfig (P : Params) (c : Nat) (s : State) : State :=
  runChecked (pktReconfigChecks P c s) (configureEffect P c) s

/-- PKT.RECONFIG (40_packetizer_config.md R138). -/
def execPktReconfig (c : Nat) (s : State) : Host.Outcome State Fault Refusal := .next (pktReconfig Config.params c s)

/-! ## PKT.DESTROY (R140) -/

/-- The checks of PKT.DESTROY. -/
def pktDestroyChecks (P : Params) (c : Nat) (s : State) : List (Option CmdError) :=
  [ctxRangeCheck P c, check (!(s.ctx c).configured) .ctxState (toWord c)]

/-- CTX[c] <- unconfigured. -/
def pktDestroyEffect (c : Nat) (s : State) : State := complete (s.setCtx c Ctx.unconfigured)

/-- PKT.DESTROY on any parameters. -/
def pktDestroy (P : Params) (c : Nat) (s : State) : State :=
  runChecked (pktDestroyChecks P c s) (pktDestroyEffect c) s

/-- PKT.DESTROY (40_packetizer_config.md R140). -/
def execPktDestroy (c : Nat) (s : State) : Host.Outcome State Fault Refusal := .next (pktDestroy Config.params c s)

end Sys2Proof.Machine
end

