-- ==== Sys2Proof/Machine/SchemeNames.lean ====
section
/-! DEFINITION. SCHEME.ID2NAME and SCHEME.NAME2ID (42_scheme_names.md). -/

namespace Sys2Proof.Machine

/-! ## SCHEME.ID2NAME (R191) -/

/-- The checks of SCHEME.ID2NAME: "the bound check always reserves 16 bytes". -/
def schemeId2nameChecks (P : Params) (s : State) : List (Option CmdError) :=
  [ check (decide (kwReserved s.eng.arg.a0 ≠ 0)) .illegalArg s.eng.arg.a0,
    rangeCheck P s.eng.arg.a3 16 ]

/-- NAME(kw[8], kw[7:0]). -/
def askedName (P : Params) (s : State) : List Byte := schemeName P (kwKind s.eng.arg.a0) (kwId s.eng.arg.a0)

/-- Write the name and its NUL; RESULT0 <- len(nm). -/
def schemeId2nameEffect (P : Params) (s : State) : State :=
  complete ((s.memWrite P s.eng.arg.a3.toNat (askedName P s ++ [0])).setResult0 (toWord (askedName P s).length))

/-- SCHEME.ID2NAME on any parameters. -/
def schemeId2name (P : Params) (s : State) : State :=
  runChecked (schemeId2nameChecks P s) (schemeId2nameEffect P) s

/-- SCHEME.ID2NAME (42_scheme_names.md R191). -/
def execSchemeId2name (s : State) : Host.Outcome State Fault Refusal := .next (schemeId2name Config.params s)

/-! ## SCHEME.NAME2ID (R193) -/

/-- The checks of SCHEME.NAME2ID. -/
def schemeName2idChecks (P : Params) (s : State) : List (Option CmdError) :=
  [ check (decide (kwReserved s.eng.arg.a0 ≠ 0 ∨ kwId s.eng.arg.a0 ≠ 0)) .illegalArg s.eng.arg.a0,
    rangeCheck P s.eng.arg.a2 16 ]

/-- The bytes before the first NUL, or none if there is no NUL (42_scheme_names.md R192, R193). -/
def upToNul : List Byte → Option (List Byte)
  | [] => none
  | b :: rest => if b = 0 then some [] else (upToNul rest).map (b :: ·)

/-- The id of the NUL-terminated name in 16 bytes, or 0. -/
def schemeIdOfBytes (P : Params) (kind : Bool) (s : List Byte) : Nat :=
  match upToNul s with
  | some q => schemeIdOfName P kind q
  | none => 0

/-- RESULT0 <- the id. -/
def schemeName2idEffect (P : Params) (s : State) : State :=
  complete (s.setResult0
    (toWord (schemeIdOfBytes P (kwKind s.eng.arg.a0) (s.memRead P s.eng.arg.a2.toNat 16))))

/-- SCHEME.NAME2ID on any parameters. -/
def schemeName2id (P : Params) (s : State) : State :=
  runChecked (schemeName2idChecks P s) (schemeName2idEffect P) s

/-- SCHEME.NAME2ID (42_scheme_names.md R193). -/
def execSchemeName2id (s : State) : Host.Outcome State Fault Refusal := .next (schemeName2id Config.params s)

end Sys2Proof.Machine
end

