-- ==== Sys2Proof/Machine/Dispatch.lean ====
section
/-! DEFINITION. The command a CMD word selects, run: one arm per constructor. -/

namespace Sys2Proof.Machine

/-- The execution step of a command (60_exceptions.md R266). -/
def exec (i : Instr) (s : State) : Host.Outcome State Fault Refusal :=
  match i with
  | .pktEnclen => Sys2Proof.Machine.execPktEnclen s
  | .pktDeclen => Sys2Proof.Machine.execPktDeclen s
  | .pktCreate c => Sys2Proof.Machine.execPktCreate c s
  | .pktReconfig c => Sys2Proof.Machine.execPktReconfig c s
  | .pktDestroy c => Sys2Proof.Machine.execPktDestroy c s
  | .pktEncode c => Sys2Proof.Machine.execPktEncode c s
  | .pktDecode c => Sys2Proof.Machine.execPktDecode c s
  | .pktDecodeSoft c => Sys2Proof.Machine.execPktDecodeSoft c s
  | .schemeId2name => Sys2Proof.Machine.execSchemeId2name s
  | .schemeName2id => Sys2Proof.Machine.execSchemeName2id s
  | .fsCreate => Sys2Proof.Machine.execFsCreate s
  | .fsExecute => Sys2Proof.Machine.execFsExecute s
  | .fsDestroy => Sys2Proof.Machine.execFsDestroy s

end Sys2Proof.Machine
end

