-- ==== Sys2Proof/Machine/Commands.lean ====
section
/-! DEFINITION. The execution step of a command on any parameters. -/

namespace Sys2Proof.Machine

/-- The execution step of a command in a block with the parameters `P` (00_scope.md R10, 60_exceptions.md R266). `exec` is this
in the block of `Config.params`. -/
def execWith (P : Params) (i : Instr) (s : State) : Host.Outcome State Fault Refusal :=
  match i with
  | .pktEnclen => .next (pktEnclen P s)
  | .pktDeclen => .next (pktDeclen P s)
  | .pktCreate c => .next (pktCreate P c s)
  | .pktReconfig c => .next (pktReconfig P c s)
  | .pktDestroy c => .next (pktDestroy P c s)
  | .pktEncode c => .next (pktEncode P c s)
  | .pktDecode c => .next (pktDecode P c s)
  | .pktDecodeSoft c => .next (pktDecodeSoft P c s)
  | .schemeId2name => .next (schemeId2name P s)
  | .schemeName2id => .next (schemeName2id P s)
  | .fsCreate => .next (fsCreate P s)
  | .fsExecute => .next (fsExecute P s)
  | .fsDestroy => .next (fsDestroy P s)

end Sys2Proof.Machine
end

