-- ==== Sys2Proof/Machine/FsEngine.lean ====
section
/-! DEFINITION. The FS engine's steps inside an FS.EXECUTE (45_frame_sync.md R215 to R232). -/

namespace Sys2Proof.Machine

/-- The sample of four BUF bytes: I then Q, little-endian (45_frame_sync.md R204). -/
def sampleOf : List Byte → Sample
  | [b0, b1, b2, b3] => ⟨le16 b0 b1, le16 b2 b3⟩
  | _ => Sample.zero

/-- The sample at FS.exec_off (45_frame_sync.md R205). -/
def nextSample (P : Params) (s : State) : Sample := sampleOf (s.memRead P s.fs.execOff.toNat 4)

/-- FS.exec_off <- FS.exec_off + 4; FS.exec_left <- FS.exec_left - 1 (45_frame_sync.md R205). -/
def consumeSample (s : State) : State :=
  { s with fs := { s.fs with execOff := s.fs.execOff + 4, execLeft := s.fs.execLeft - 1 } }

/-- The header packetizer's record (45_frame_sync.md R202). -/
def FsCfg.hdrPkt (g : FsCfg) : Pkt := ⟨g.hdrLen, g.hdrEd, g.hdrInner, g.hdrOuter⟩

/-- The payload packetizer's record (45_frame_sync.md R202). -/
def Cur.pkt (c : Cur) : Pkt := ⟨c.len, c.ed, c.inner, c.outer⟩

/-- The payload configuration of a declaration, E included (45_frame_sync.md R223). -/
def curOf (P : Params) (r : Decl) : Cur :=
  ⟨r.len, r.mod, r.ed, r.inner, r.outer, encLen P r.len r.ed r.inner r.outer⟩

/-- The latched payload registers as a declaration: FIXED's configuration, and the default one (45_frame_sync.md R223). -/
def FsCfg.payDecl (g : FsCfg) : Decl := ⟨g.payLen.toNat, g.payMod, g.payEd, g.payInner, g.payOuter⟩

/-- A feasible declaration (45_frame_sync.md R226). -/
def feasible (P : Params) (r : Decl) : Bool :=
  decide (1 ≤ r.len ∧ r.len ≤ P.maxDecLen) && knownEd r.ed && knownFec P r.inner && knownFec P r.outer && knownMod P r.mod

/-- Go to RESET with no callback. -/
def discardAttempt (s : State) : State := { s with fs := { s.fs with tag := .reset } }

/-- Go to RXPAYLOAD with a payload configuration. -/
def startPayload (P : Params) (r : Decl) (s : State) : State :=
  { s with fs := { s.fs with cur := curOf P r, paySyms := 0, tag := .rxPayload } }

/-- BRANCH, the choice of payload configuration after the header decode (45_frame_sync.md R223). -/
def branch (P : Params) (s : State) : State :=
  let g := s.fs.cfg
  if s.fs.hdrValid then
    match g.profile with
    | .fixed => startPayload P g.payDecl s
    | .flex =>
      match P.descParse ((s.fs.hdr.take g.hdrLen).drop 8) with
      | none => discardAttempt s
      | some r => if feasible P r then startPayload P r s else discardAttempt s
  else
    match g.hdrFail with
    | .abort => discardAttempt s
    | .continue => startPayload P g.payDecl s

/-- DETECT step, x being the sample consumed (45_frame_sync.md R220). -/
def detectStep (P : Params) (x : Sample) (s : State) : State :=
  let r := P.feStep s.fs.fe (.det s.fs.cfg.thresh) x
  match r.2 with
  | .trigger tau cfo =>
    { s with fs := { s.fs with fe := r.1, tau := tau, cfo := cfo, symCount := 0, inFlight := true, tag := .sync } }
  | _ => { s with fs := { s.fs with fe := r.1 } }

/-- SYNC step (45_frame_sync.md R221). -/
def syncStep (P : Params) (x : Sample) (s : State) : State :=
  let r := P.feStep s.fs.fe (.sync s.fs.tau s.fs.cfo) x
  match r.2 with
  | .symbol _ =>
    if (s.fs.symCount + 1).toNat = P.syncLen then
      { s with fs := { s.fs with fe := r.1, symCount := 0, acc := [], tag := .rxHeader } }
    else { s with fs := { s.fs with fe := r.1, symCount := s.fs.symCount + 1 } }
  | _ => { s with fs := { s.fs with fe := r.1 } }

/-- The header decode of the accumulated soft bits: hard decisions, then DEC_hdr (45_frame_sync.md R222). -/
def decodedHeader (P : Params) (g : FsCfg) (acc : List Byte) : List Byte × Bool :=
  pktDec P g.hdrPkt (pack (slice (acc.take (8 * g.hdrEncLen))))

/-- RXHEADER step (45_frame_sync.md R222). -/
def headerStep (P : Params) (x : Sample) (s : State) : State :=
  let r := P.feStep s.fs.fe (.hdr s.fs.cfg.hdrMod) x
  match r.2 with
  | .symbol y =>
    let acc := s.fs.acc ++ P.demod s.fs.cfg.hdrMod y
    if acc.length ≥ 8 * s.fs.cfg.hdrEncLen then
      let h := decodedHeader P s.fs.cfg acc
      branch P { s with fs := { s.fs with fe := r.1, hdr := h.1, hdrValid := h.2, acc := [], symCount := 0 } }
    else { s with fs := { s.fs with fe := r.1, acc := acc, symCount := s.fs.symCount + 1 } }
  | _ => { s with fs := { s.fs with fe := r.1 } }

/-- FS_STAT_MOD's value: `zext_32({MOD_BPS(mod)[7:0], mod})` (45_frame_sync.md R230). -/
def statModWord (P : Params) (m : Byte) : Word := 0#16 ++ BitVec.ofNat 8 (bitsPerSymbol P m) ++ m

/-- CALLBACK_ENTRY(pl, pv) (45_frame_sync.md R230). -/
def callbackEntry (P : Params) (pl : List Byte) (pv : Bool) (s : State) : State :=
  let out := s.fs.cfg.outAddr.toNat
  let t := (s.memWrite P out (s.fs.hdr.take 8)).memWrite P (out + 8) pl
  let st := P.feStats s.fs.fe
  { t with
    regs := { t.regs with
      evtHdrValid := s.fs.hdrValid, evtPayValid := pv, fsEvtLen := toWord s.fs.cur.len
      statEvm := st.evm, statRssi := st.rssi, statCfo := st.cfo, statNsym := s.fs.paySyms
      statMod := statModWord P s.fs.cur.mod
      statScheme := schemeWord s.fs.cur.ed s.fs.cur.inner s.fs.cur.outer
      intStatus := intNext t.regs.intStatus 0 intFrame }
    fs := { t.fs with evtPending := true, tag := .callback } }

/-- RXPAYLOAD step (45_frame_sync.md R227). CALLBACK entry's event area lies in BUF since FS.CREATE checked it (R211); a
state that breaks this is no run's, and faults (log 21). -/
def payloadStep (P : Params) (x : Sample) (s : State) : Host.Outcome State Fault Refusal :=
  let r := P.feStep s.fs.fe (.pay s.fs.cur.mod) x
  match r.2 with
  | .symbol y =>
    let acc := s.fs.acc ++ P.demod s.fs.cur.mod y
    let t := { s with fs := { s.fs with fe := r.1, acc := acc, paySyms := s.fs.paySyms + 1 } }
    if acc.length ≥ 8 * s.fs.cur.enc then
      let d := pktDecSoft P s.fs.cur.pkt (acc.take (8 * s.fs.cur.enc))
      if s.fs.cfg.outAddr.toNat + 8 + s.fs.cur.len > P.bufSize then
        .fault (.bufBounds s.fs.cfg.outAddr.toNat (8 + s.fs.cur.len))
      else .next (callbackEntry P d.1 d.2 t)
    else .next t
  | _ => .next { s with fs := { s.fs with fe := r.1 } }

/-- RESET step, which consumes no sample (45_frame_sync.md R232). -/
def resetStep (P : Params) (s : State) : State :=
  { s with
    fs := { s.fs with
      acc := [], symCount := 0, paySyms := 0, hdr := [], hdrValid := false, cur := Cur.zero
      fe := P.feClear s.fs.fe, inFlight := false, tag := .detect } }

/-- The rule of a consuming state (45_frame_sync.md R215, first row); the other two states consume nothing. -/
def applySample (P : Params) (x : Sample) (s : State) : Host.Outcome State Fault Refusal :=
  match s.fs.tag with
  | .detect => .next (detectStep P x s)
  | .sync => .next (syncStep P x s)
  | .rxHeader => .next (headerStep P x s)
  | .rxPayload => payloadStep P x s
  | .callback => .next s
  | .reset => .next s

/-- A step of a consuming state: the completion step if no sample is left (45_frame_sync.md R217), else consume one and apply the
state's rule. -/
def sampleStep (P : Params) (s : State) : Host.Outcome State Fault Refusal :=
  if s.fs.execLeft = 0 then .next (complete s)
  else if s.fs.execOff.toNat + 4 > P.bufSize then .fault (.bufBounds s.fs.execOff.toNat 4)
  else applySample P (nextSample P s) (consumeSample s)

/-- The FS engine's one enabled step, chosen by its state (45_frame_sync.md R215); in CALLBACK it is held and takes none
(log 3). -/
def fsEngineStep (P : Params) (s : State) : Host.Outcome State Fault Refusal :=
  match s.fs.tag with
  | .callback => .next s
  | .reset => .next (resetStep P s)
  | .detect => sampleStep P s
  | .sync => sampleStep P s
  | .rxHeader => sampleStep P s
  | .rxPayload => sampleStep P s

/-- Acknowledgement of the event by a host write to FS_ACK (45_frame_sync.md R231, 10_state.md R68). -/
def acknowledge (s : State) : State :=
  if s.fs.evtPending then { s with fs := { s.fs with evtPending := false, tag := .reset } } else s

end Sys2Proof.Machine
end

