-- ==== Sys2Proof/Machine/Engine.lean ====
section
/-! DEFINITION. The block's one enabled step (60_exceptions.md R266, 45_frame_sync.md R215). -/

namespace Sys2Proof.Machine

/-- The execution step of the accepted command. ENG holds a legal command whenever it is busy (60_exceptions.md R266); for an
ENG that no run reaches, the word is treated as R101 treats an illegal one (DESIGN CHOICE, log 20, safe). -/
def executionStep (P : Params) (s : State) : Host.Outcome State Fault Refusal :=
  match decode s.eng.word with
  | .ok i => execWith P i s
  | .error _ => .next (raise ⟨.illegalCmd, s.eng.word⟩ s)

/-- Whether the FS engine has the turn: an FS.EXECUTE whose first execution step has run (45_frame_sync.md R215). -/
def fsRunning (s : State) : Bool := s.eng.busy && s.eng.started && decide (s.eng.opc = 0x11#8)

/-- The block's step: the execution step of a newly accepted command, an FS engine step of a running FS.EXECUTE, or nothing, since
"the block executes nothing of its own" (70_reset_and_hazards.md R294; log 3). -/
def engineStep (P : Params) (s : State) : Host.Outcome State Fault Refusal :=
  if s.eng.busy && !s.eng.started then executionStep P s
  else if fsRunning s then fsEngineStep P s
  else .next s

end Sys2Proof.Machine
end

