-- ==== Sys2Proof/Machine/Registers.lean ====
section
/-! DEFINITION. The register block: its map, host reads and host writes, the acceptance of a command and the overrun
(10_state.md R32 to R44, R60 to R76, 60_exceptions.md R266 to R268). -/

namespace Sys2Proof.Machine

/-- The registers of 10_state.md R32. -/
inductive Reg where
  | id
  | version
  | caps
  | capsMaxLen
  | cmd
  | arg0
  | arg1
  | arg2
  | arg3
  | result0
  | result1
  | status
  | errInfo
  | intStatus
  | intEnable
  | ctxState (c : Nat)
  | ctxDecLen (c : Nat)
  | ctxScheme (c : Nat)
  | ctxEncLen (c : Nat)
  | fsCtrl
  | fsHdrCfg
  | fsPayCfg
  | fsPayLen
  | fsDetThresh
  | fsOutAddr
  | fsStatus
  | fsSamplesLeft
  | fsAck
  | fsEvt
  | fsEvtLen
  | fsStatEvm
  | fsStatRssi
  | fsStatCfo
  | fsStatNsym
  | fsStatMod
  | fsStatScheme
deriving DecidableEq, Repr

/-- The access codes of 10_state.md R32. -/
inductive Access where
  | ro
  | wo
  | rw
  | w1c
deriving DecidableEq, Repr

/-- The offsets of 10_state.md R32 but for the context registers. -/
def registerMap : List (Nat × Reg) := [
  (0x000, .id), (0x004, .version), (0x008, .caps), (0x00C, .capsMaxLen), (0x010, .cmd),
  (0x014, .arg0), (0x018, .arg1), (0x01C, .arg2), (0x020, .arg3), (0x024, .result0), (0x028, .result1),
  (0x02C, .status), (0x030, .errInfo), (0x034, .intStatus), (0x038, .intEnable),
  (0x200, .fsCtrl), (0x204, .fsHdrCfg), (0x208, .fsPayCfg), (0x20C, .fsPayLen), (0x210, .fsDetThresh),
  (0x214, .fsOutAddr), (0x218, .fsStatus), (0x21C, .fsSamplesLeft), (0x220, .fsAck), (0x224, .fsEvt),
  (0x228, .fsEvtLen), (0x22C, .fsStatEvm), (0x230, .fsStatRssi), (0x234, .fsStatCfo), (0x238, .fsStatNsym),
  (0x23C, .fsStatMod), (0x240, .fsStatScheme)]

/-- The register at an offset that is a multiple of 4, or none where the offset is unassigned (10_state.md R32, R33): the four
registers of context c < NUM_CTX are at 0x040 + 16c. -/
def regAt (P : Params) (off : Nat) : Option Reg :=
  if 0x040 ≤ off ∧ off < 0x040 + 16 * P.numCtx then
    match (off - 0x040) % 16 with
    | 0 => some (.ctxState ((off - 0x040) / 16))
    | 4 => some (.ctxDecLen ((off - 0x040) / 16))
    | 8 => some (.ctxScheme ((off - 0x040) / 16))
    | 12 => some (.ctxEncLen ((off - 0x040) / 16))
    | _ => none
  else registerMap.lookup off

/-- The access column of 10_state.md R32. -/
def Reg.access : Reg → Access
  | .id => .ro
  | .version => .ro
  | .caps => .ro
  | .capsMaxLen => .ro
  | .cmd => .wo
  | .arg0 => .rw
  | .arg1 => .rw
  | .arg2 => .rw
  | .arg3 => .rw
  | .result0 => .ro
  | .result1 => .ro
  | .status => .ro
  | .errInfo => .ro
  | .intStatus => .w1c
  | .intEnable => .rw
  | .ctxState _ => .ro
  | .ctxDecLen _ => .ro
  | .ctxScheme _ => .ro
  | .ctxEncLen _ => .ro
  | .fsCtrl => .rw
  | .fsHdrCfg => .rw
  | .fsPayCfg => .rw
  | .fsPayLen => .rw
  | .fsDetThresh => .rw
  | .fsOutAddr => .rw
  | .fsStatus => .ro
  | .fsSamplesLeft => .ro
  | .fsAck => .wo
  | .fsEvt => .ro
  | .fsEvtLen => .ro
  | .fsStatEvm => .ro
  | .fsStatRssi => .ro
  | .fsStatCfo => .ro
  | .fsStatNsym => .ro
  | .fsStatMod => .ro
  | .fsStatScheme => .ro

/-! ## Reads -/

/-- ID (10_state.md R34). -/
def idValue : Word := 0x53464B50#32

/-- VERSION.SPEC_REV (10_state.md R35). -/
def versionValue : Word := 7#32

/-- CAPS: NUM_CTX in [7:0], log2(BUF_SIZE) in [15:8] (10_state.md R36). -/
def capsValue (P : Params) : Word := 0#16 ++ BitVec.ofNat 8 P.bufBits ++ BitVec.ofNat 8 P.numCtx

/-- x[R]: the value a host read of a register returns. No read has a side effect (20_memory.md R89). -/
def readReg (P : Params) (s : State) : Reg → Word
  | .id => idValue
  | .version => versionValue
  | .caps => capsValue P
  | .capsMaxLen => toWord P.maxDecLen
  | .cmd => 0
  | .arg0 => s.regs.arg.a0
  | .arg1 => s.regs.arg.a1
  | .arg2 => s.regs.arg.a2
  | .arg3 => s.regs.arg.a3
  | .result0 => s.regs.result0
  | .result1 => s.regs.result1
  | .status => statusWord s
  | .errInfo => s.regs.errInfo
  | .intStatus => 0#28 ++ s.regs.intStatus
  | .intEnable => 0#28 ++ s.regs.intEnable
  | .ctxState c => flagWord (s.ctx c).configured
  | .ctxDecLen c => (s.ctx c).len
  | .ctxScheme c => schemeWord (s.ctx c).ed (s.ctx c).inner (s.ctx c).outer
  | .ctxEncLen c => (s.ctx c).enc
  | .fsCtrl => 0#30 ++ s.regs.fsCtrl
  | .fsHdrCfg => s.regs.fsHdrCfg
  | .fsPayCfg => s.regs.fsPayCfg
  | .fsPayLen => s.regs.fsPayLen
  | .fsDetThresh => s.regs.fsDetThresh
  | .fsOutAddr => s.regs.fsOutAddr
  | .fsStatus => fsStatusWord s
  | .fsSamplesLeft => s.fs.execLeft
  | .fsAck => 0
  | .fsEvt => fsEvtWord s
  | .fsEvtLen => s.regs.fsEvtLen
  | .fsStatEvm => s.regs.statEvm
  | .fsStatRssi => s.regs.statRssi
  | .fsStatCfo => s.regs.statCfo
  | .fsStatNsym => s.regs.statNsym
  | .fsStatMod => s.regs.statMod
  | .fsStatScheme => s.regs.statScheme

/-- A host read at an offset of the register block; an unassigned offset reads 0 (10_state.md R33). -/
def readOffset (P : Params) (s : State) (off : Nat) : Word :=
  match regAt P off with
  | some r => readReg P s r
  | none => 0

/-! ## Acceptance -/

/-- `OVERRUN()` (60_exceptions.md R267). -/
def overrun (s : State) : State :=
  { s with regs := { s.regs with intStatus := intNext s.regs.intStatus 0 intOvr } }

/-- The first four lines of the acceptance step: STATUS.DONE, ERR and ERR_CODE cleared, LAST_OPC set (60_exceptions.md R266). -/
def noteCommand (w : Word) (s : State) : State :=
  { s with regs := { s.regs with done := false, err := false, errCode := 0, lastOpc := w.extractLsb' 0 8 } }

/-- Latch a legal command into ENG, with the four argument registers (60_exceptions.md R266, 10_state.md R38). -/
def latchCommand (w : Word) (s : State) : State :=
  { s with
    eng := { busy := true, opc := w.extractLsb' 0 8, ctx := w.extractLsb' 8 4, arg := s.regs.arg, started := false } }

/-- The acceptance step of an idle engine. -/
def acceptIdle (w : Word) (s : State) : State :=
  if legal w then latchCommand w (noteCommand w s) else raise ⟨.illegalCmd, w⟩ (noteCommand w s)

/-- A host write of `w` to CMD (60_exceptions.md R266). -/
def acceptCommand (w : Word) (s : State) : State := if s.eng.busy then overrun s else acceptIdle w s

/-! ## Writes -/

/-- A host write of `v` to a register. A write to a read-only register, or to a reserved field, is ignored (10_state.md R32, R33). -/
def writeReg (v : Word) (s : State) : Reg → State
  | .cmd => acceptCommand v s
  | .arg0 => { s with regs := { s.regs with arg := { s.regs.arg with a0 := v } } }
  | .arg1 => { s with regs := { s.regs with arg := { s.regs.arg with a1 := v } } }
  | .arg2 => { s with regs := { s.regs with arg := { s.regs.arg with a2 := v } } }
  | .arg3 => { s with regs := { s.regs with arg := { s.regs.arg with a3 := v } } }
  | .intStatus => clearInterrupts (v.extractLsb' 0 4) s
  | .intEnable => { s with regs := { s.regs with intEnable := v.extractLsb' 0 4 } }
  | .fsCtrl => { s with regs := { s.regs with fsCtrl := v.extractLsb' 0 2 } }
  | .fsHdrCfg => { s with regs := { s.regs with fsHdrCfg := v } }
  | .fsPayCfg => { s with regs := { s.regs with fsPayCfg := v } }
  | .fsPayLen => { s with regs := { s.regs with fsPayLen := v } }
  | .fsDetThresh => { s with regs := { s.regs with fsDetThresh := v } }
  | .fsOutAddr => { s with regs := { s.regs with fsOutAddr := v } }
  | .fsAck => acknowledge s
  | .id => s
  | .version => s
  | .caps => s
  | .capsMaxLen => s
  | .result0 => s
  | .result1 => s
  | .status => s
  | .errInfo => s
  | .ctxState _ => s
  | .ctxDecLen _ => s
  | .ctxScheme _ => s
  | .ctxEncLen _ => s
  | .fsStatus => s
  | .fsSamplesLeft => s
  | .fsEvt => s
  | .fsEvtLen => s
  | .fsStatEvm => s
  | .fsStatRssi => s
  | .fsStatCfo => s
  | .fsStatNsym => s
  | .fsStatMod => s
  | .fsStatScheme => s

/-- A host write at an offset of the register block; a write to an unassigned offset is ignored (10_state.md R33). -/
def writeOffset (P : Params) (s : State) (off : Nat) (v : Word) : State :=
  match regAt P off with
  | some r => writeReg v s r
  | none => s

end Sys2Proof.Machine
end

