-- ==== Sys2Proof/Machine/HostPort.lean ====
section
/-! DEFINITION. The host's steps: accesses to the register block and to BUF, the footprint race, power-on reset, and one turn
of the agenda (20_memory.md R85 to R98, 70_reset_and_hazards.md R291). -/

namespace Sys2Proof.Machine

/-- The bytes of a width. -/
def Width.bytes : Width → Nat
  | .b1 => 1
  | .b2 => 2
  | .b4 => 4

/-! ## Footprints (20_memory.md R93) -/

/-- The event hold: FS_STATUS.EVT_PENDING = 1 (20_memory.md R98). -/
def eventHold (s : State) : Bool := s.fs.evtPending

/-- The event area of a configuration: 8 header bytes and the largest payload (60_exceptions.md R263: n = 8 + maxPay). -/
def eventArea (P : Params) (g : FsCfg) : Range := ⟨g.outAddr.toNat, 8 + maxPayload P g.profile g.payLen⟩

/-- The error a command's execution step would raise. -/
def commandError (P : Params) (s : State) : Instr → Option CmdError
  | .pktEnclen => firstError (pktEnclenChecks P s)
  | .pktDeclen => firstError (pktDeclenChecks P s)
  | .pktCreate c => firstError (pktCreateChecks P c s)
  | .pktReconfig c => firstError (pktReconfigChecks P c s)
  | .pktDestroy c => firstError (pktDestroyChecks P c s)
  | .pktEncode c => firstError (pktEncodeChecks P c s)
  | .pktDecode c => firstError (pktDecodeChecks P c s)
  | .pktDecodeSoft c => firstError (pktDecodeSoftChecks P c s)
  | .schemeId2name => firstError (schemeId2nameChecks P s)
  | .schemeName2id => firstError (schemeName2idChecks P s)
  | .fsCreate => firstError (fsCreateChecks P s)
  | .fsExecute => firstError (fsExecuteChecks P s)
  | .fsDestroy => firstError (fsDestroyChecks s)

/-- The BUF ranges a command's rule reads. -/
def commandReads (s : State) : Instr → List Range
  | .pktEncode c => [⟨s.eng.arg.a2.toNat, (s.ctx c).len.toNat⟩]
  | .pktDecode c => [⟨s.eng.arg.a2.toNat, (s.ctx c).enc.toNat⟩]
  | .pktDecodeSoft c => [⟨s.eng.arg.a2.toNat, 8 * (s.ctx c).enc.toNat⟩]
  | .schemeName2id => [⟨s.eng.arg.a2.toNat, 16⟩]
  | .fsExecute => [⟨s.eng.arg.a2.toNat, 4 * s.eng.arg.a0.toNat⟩]
  | .pktEnclen => []
  | .pktDeclen => []
  | .pktCreate _ => []
  | .pktReconfig _ => []
  | .pktDestroy _ => []
  | .schemeId2name => []
  | .fsCreate => []
  | .fsDestroy => []

/-- The BUF ranges a command's rule writes. -/
def commandWrites (P : Params) (s : State) : Instr → List Range
  | .pktEncode c => [⟨s.eng.arg.a3.toNat, (s.ctx c).enc.toNat⟩]
  | .pktDecode c => [⟨s.eng.arg.a3.toNat, (s.ctx c).len.toNat⟩]
  | .pktDecodeSoft c => [⟨s.eng.arg.a3.toNat, (s.ctx c).len.toNat⟩]
  | .schemeId2name => [⟨s.eng.arg.a3.toNat, (askedName P s).length + 1⟩]
  | .fsExecute => [eventArea P s.fs.cfg]
  | .pktEnclen => []
  | .pktDeclen => []
  | .pktCreate _ => []
  | .pktReconfig _ => []
  | .pktDestroy _ => []
  | .schemeName2id => []
  | .fsCreate => []
  | .fsDestroy => []

/-- The command that is accepted and has not had its execution step, if it will raise no error: one that will makes no BUF access
(20_memory.md R87; DEDUCED, log 13). -/
def pendingCommand (P : Params) (s : State) : Option Instr :=
  if s.eng.busy && !s.eng.started then
    match decode s.eng.word with
    | .ok i => if (commandError P s i).isNone then some i else none
    | .error _ => none
  else none

/-- The ranges the running command still reads: for FS.EXECUTE the unconsumed samples (20_memory.md R93). -/
def runningReads (P : Params) (s : State) : List Range :=
  if fsRunning s then [⟨s.fs.execOff.toNat, 4 * s.fs.execLeft.toNat⟩]
  else
    match pendingCommand P s with
    | some i => commandReads s i
    | none => []

/-- The ranges the running command still writes: for FS.EXECUTE the event area (20_memory.md R93). -/
def runningWrites (P : Params) (s : State) : List Range :=
  if fsRunning s then [eventArea P s.fs.cfg]
  else
    match pendingCommand P s with
    | some i => commandWrites P s i
    | none => []

/-- Whether a host access to `n` bytes at `off` meets one of the ranges. -/
def touches (rs : List Range) (off n : Nat) : Bool :=
  (List.range n).any fun k => rs.any fun r => r.has (off + k)

/-- A host write that races: into the footprint of a running command, outside an event hold (20_memory.md R93). -/
def writeRaces (P : Params) (s : State) (off n : Nat) : Bool :=
  !eventHold s && touches (runningReads P s ++ runningWrites P s) off n

/-! ## What a racing read may return (20_memory.md R93; log 12) -/

/-- The block's steps up to the next event hold or the end of the command, at most `fuel` of them. -/
def runAhead (P : Params) : Nat → State → State
  | 0, s => s
  | fuel + 1, s =>
    if s.eng.busy && !eventHold s then
      match engineStep P s with
      | .next t => runAhead P fuel t
      | .fault _ => s
      | .refused _ => s
    else s

/-- Steps enough for the running command: its execution step, one step a sample, one RESET and the completion. -/
def aheadFuel (s : State) : Nat := 2 * (s.eng.arg.a0.toNat + s.fs.execLeft.toNat) + 4

/-- One byte as a host read returns it: a byte that the running command writes is the old or the new one, as the k-th free choice
says. -/
def hostByte (P : Params) (s ahead : State) (k a : Nat) : Byte :=
  if !eventHold s && (runningWrites P s).any (fun r => r.has a) && P.raceNew k then ahead.byte P a else s.byte P a

/-- The bytes a host read of BUF returns. -/
def hostBytes (P : Params) (s : State) (off n : Nat) : List Byte :=
  (List.range n).map fun k => hostByte P s (runAhead P (aheadFuel s) s) (s.free + k) (off + k)

/-! ## Accesses -/

/-- A register access the host may make: 32 bits at a multiple of 4 in the 4 KiB block (20_memory.md R85). -/
def regAccessOk (off : Nat) (w : Width) : Bool := decide (w = .b4) && decide (off % 4 = 0) && decide (off < 4096)

/-- The value a host read returned, for the host. -/
def State.deliver (s : State) (v : Word) : State := { s with seen := v :: s.seen }

/-- A host read of the register block. -/
def hostReadReg (P : Params) (off : Nat) (w : Width) (s : State) : Host.Outcome State Fault Refusal :=
  if regAccessOk off w then .next (s.deliver (readOffset P s off)) else .refused (.regAccess off w)

/-- A host write of the register block. -/
def hostWriteReg (P : Params) (off : Nat) (w : Width) (v : Word) (s : State) : Host.Outcome State Fault Refusal :=
  if regAccessOk off w then .next (writeOffset P s off v) else .refused (.regAccess off w)

/-- A host read of BUF, little-endian, at any offset that fits (20_memory.md R86, R93); it draws one free choice a byte. -/
def hostReadBuf (P : Params) (off : Nat) (w : Width) (s : State) : Host.Outcome State Fault Refusal :=
  if off + w.bytes ≤ P.bufSize then
    .next { s.deliver (leWord (hostBytes P s off w.bytes)) with free := s.free + w.bytes }
  else .refused (.bufAccess off w)

/-- A host write of BUF, little-endian, at any offset that fits, unless it races (20_memory.md R86, R93). -/
def hostWriteBuf (P : Params) (off : Nat) (w : Width) (v : Word) (s : State) : Host.Outcome State Fault Refusal :=
  if off + w.bytes ≤ P.bufSize then
    if writeRaces P s off w.bytes then .refused (.footprintRace off w)
    else .next (s.memWrite P off (leBytes w.bytes v.toNat))
  else .refused (.bufAccess off w)

/-- The window of a host address: REG at REG_BASE, BUF at BUF_BASE (20_memory.md R82, R90; log 16). -/
def locate (P : Params) (a : Nat) : Option Target :=
  if P.regBase ≤ a ∧ a < P.regBase + 4096 then some (.reg (a - P.regBase))
  else if P.bufBase ≤ a ∧ a < P.bufBase + P.bufSize then some (.buf (a - P.bufBase))
  else none

/-- A host read. -/
def hostRead (P : Params) (t : Target) (w : Width) (s : State) : Host.Outcome State Fault Refusal :=
  match t with
  | .reg off => hostReadReg P off w s
  | .buf off => hostReadBuf P off w s
  | .addr a =>
    match locate P a with
    | some (.reg off) => hostReadReg P off w s
    | some (.buf off) => hostReadBuf P off w s
    | _ => .refused (.outsideBlock a)

/-- A host write. -/
def hostWrite (P : Params) (t : Target) (w : Width) (v : Word) (s : State) : Host.Outcome State Fault Refusal :=
  match t with
  | .reg off => hostWriteReg P off w v s
  | .buf off => hostWriteBuf P off w v s
  | .addr a =>
    match locate P a with
    | some (.reg off) => hostWriteReg P off w v s
    | some (.buf off) => hostWriteBuf P off w v s
    | _ => .refused (.outsideBlock a)

/-- Put a turn back at the head of the agenda. -/
def requeue (t : Turn) : Host.Outcome State Fault Refusal → Host.Outcome State Fault Refusal
  | .next s => .next { s with agenda := t :: s.agenda }
  | .fault r => .fault r
  | .refused r => .refused r

/-- One poll: done when the masked register has the value; else the block takes its turn and the host polls again
(30_encoding.md R113; log 26). -/
def hostPoll (P : Params) (off : Nat) (mask v : Word) (s : State) : Host.Outcome State Fault Refusal :=
  if regAccessOk off .b4 then
    if readOffset P s off &&& mask = v then .next s else requeue (.poll off mask v) (engineStep P s)
  else .refused (.regAccess off .b4)

/-- Power-on reset: every piece of state back to its reset value, BUF's contents unspecified again, the running command abandoned
(70_reset_and_hazards.md R290, R291). The model's own fields go on (log 25). -/
def powerOnReset (s : State) : State :=
  { State.reset with agenda := s.agenda, seen := s.seen, epoch := s.epoch + 1, free := s.free }

/-- One turn, taken off the agenda, of a block with the parameters `P`. -/
def takeTurn (P : Params) (t : Turn) (s : State) : Host.Outcome State Fault Refusal :=
  match t with
  | .engine => engineStep P s
  | .write tgt w v => hostWrite P tgt w v s
  | .read tgt w => hostRead P tgt w s
  | .poll off mask v => hostPoll P off mask v s
  | .por => .next (powerOnReset s)

/-- One atomic step: the head of the agenda, or the block's own step when the host has nothing to do (log 1). -/
def nextTurn (P : Params) (s : State) : Host.Outcome State Fault Refusal :=
  match s.agenda with
  | [] => engineStep P s
  | t :: rest => takeTurn P t { s with agenda := rest }

/-- The state right after the host's CMD write of a word, the block's turn next (log 2). -/
def commandArrives (w : Word) (s : State) : State :=
  { acceptIdle w s with agenda := .engine :: s.agenda }

end Sys2Proof.Machine
end

