-- ==== Sys2Proof/Machine/Step.lean ====
section
/-! DEFINITION. The machine's step, and the state in which the next step runs a given command. -/

namespace Sys2Proof.Machine

/-- One atomic step of the machine, a block with the parameters `Config.params` (00_scope.md R10, R14). -/
def step (s : State) : Host.Outcome State Fault Refusal := nextTurn Config.params s

/-- `s` after the host's CMD write of the command whose bits are `w`, with the block's turn next. A command is one 32-bit word
(30_encoding.md R100). -/
def State.withFetchWord (s : State) (nbits w : Nat) : State := commandArrives (BitVec.ofNat 32 (w % 2 ^ nbits)) s

end Sys2Proof.Machine
end

