-- ==== Sys2Proof/Machine/Script.lean ====
section
/-! DEFINITION. Host command scripts: what each command mnemonic expands into (30_encoding.md R113, R114). -/

namespace Sys2Proof.Machine

/-- `wr REG, v`. -/
def wr (off : Nat) (v : Word) : Turn := .write (.reg off) .b4 v

/-- `rd $t, REG`. -/
def rd (off : Nat) : Turn := .read (.reg off) .b4

/-- `bstore off, [b0, b1, ...]`. -/
def bstore (off : Nat) (bs : List Byte) : List Turn :=
  bs.mapIdx fun k b => .write (.buf (off + k)) .b1 (toWord b.toNat)

/-- `bload $t, off, n`. -/
def bload (off n : Nat) : List Turn := (List.range n).map fun k => .read (.buf (off + k)) .b1

/-- WAITCMD. -/
def waitCmd : Turn := .poll 0x02C 0x1 0x0

/-- WAITEVT. -/
def waitEvt : Turn := .poll 0x218 0x10 0x10

/-- `wr CMD, w`. -/
def wrCmd (i : Instr) : Turn := wr 0x010 (encode i)

/-- PKT.ENCLEN L, e, i, o. -/
def scriptEnclen (L : Word) (e i o : Byte) : List Turn := [wr 0x014 L, wr 0x018 (schemeWord e i o), wrCmd .pktEnclen]

/-- PKT.DECLEN E, e, i, o. -/
def scriptDeclen (E : Word) (e i o : Byte) : List Turn := [wr 0x014 E, wr 0x018 (schemeWord e i o), wrCmd .pktDeclen]

/-- PKT.CREATE c, L, e, i, o. -/
def scriptCreate (c : Nat) (L : Word) (e i o : Byte) : List Turn :=
  [wr 0x014 L, wr 0x018 (schemeWord e i o), wrCmd (.pktCreate c)]

/-- PKT.RECONFIG c, L, e, i, o. -/
def scriptReconfig (c : Nat) (L : Word) (e i o : Byte) : List Turn :=
  [wr 0x014 L, wr 0x018 (schemeWord e i o), wrCmd (.pktReconfig c)]

/-- PKT.DESTROY c. -/
def scriptDestroy (c : Nat) : List Turn := [wrCmd (.pktDestroy c)]

/-- PKT.ENCODE c, s, d. -/
def scriptEncode (c : Nat) (src dst : Word) : List Turn := [wr 0x01C src, wr 0x020 dst, wrCmd (.pktEncode c)]

/-- PKT.DECODE c, s, d. -/
def scriptDecode (c : Nat) (src dst : Word) : List Turn := [wr 0x01C src, wr 0x020 dst, wrCmd (.pktDecode c)]

/-- PKT.DECODE_SOFT c, s, d. -/
def scriptDecodeSoft (c : Nat) (src dst : Word) : List Turn := [wr 0x01C src, wr 0x020 dst, wrCmd (.pktDecodeSoft c)]

/-- `k << 8`, k being 0 for `ed` and 1 for `fec`. -/
def kindWord (kind : Bool) : Word := if kind then 0x100 else 0

/-- SCHEME.ID2NAME k, id, d. -/
def scriptId2name (kind : Bool) (id : Byte) (dst : Word) : List Turn :=
  [wr 0x014 (kindWord kind ||| toWord id.toNat), wr 0x020 dst, wrCmd .schemeId2name]

/-- SCHEME.NAME2ID k, s. -/
def scriptName2id (kind : Bool) (src : Word) : List Turn :=
  [wr 0x014 (kindWord kind), wr 0x01C src, wrCmd .schemeName2id]

/-- FS.CREATE. -/
def scriptFsCreate : List Turn := [wrCmd .fsCreate]

/-- FS.EXECUTE s, n. -/
def scriptFsExecute (src n : Word) : List Turn := [wr 0x014 n, wr 0x01C src, wrCmd .fsExecute]

/-- FS.DESTROY. -/
def scriptFsDestroy : List Turn := [wrCmd .fsDestroy]

end Sys2Proof.Machine
end

