-- ==== Sys2Proof/Safety.lean ====
section
/-! DEFINITION. What a good state is: the invariant that every step keeps, and the terms statements about runs use. -/

namespace Sys2Proof.Machine

/-- The invariant of CTX[c] (10_state.md R45); a context number the block has not stays unconfigured (log 24). -/
structure CtxOk (P : Params) (c : Nat) (r : Ctx) : Prop where
  unconfigured : r.configured = false → r = Ctx.unconfigured
  inRange : r.configured = true → c < P.numCtx
  length : r.configured = true → 1 ≤ r.len.toNat ∧ r.len.toNat ≤ P.maxDecLen
  known : r.configured = true → knownEd r.ed = true ∧ knownFec P r.inner = true ∧ knownFec P r.outer = true
  encoded : r.configured = true → r.enc.toNat = encLen P r.len.toNat r.ed r.inner r.outer

/-- The invariant of STATUS and ENG (10_state.md R40, R47, 60_exceptions.md R266). -/
structure EngineOk (s : State) : Prop where
  /-- "At most one of DONE and ERR is 1." -/
  doneOrErr : ¬(s.regs.done = true ∧ s.regs.err = true)
  /-- "error code of the last command, 0 if none" -/
  noCode : s.regs.err = false → s.regs.errCode = 0
  /-- "While BUSY = 1 both are 0." -/
  busyClear : s.eng.busy = true → s.regs.done = false ∧ s.regs.err = false
  /-- A busy engine holds a legal command, the one STATUS.LAST_OPC shows. -/
  busyLegal : s.eng.busy = true → legal s.eng.word = true ∧ s.regs.lastOpc = s.eng.opc
  /-- Only FS.EXECUTE is still busy after an execution step. -/
  startedFs : s.eng.busy = true → s.eng.started = true → s.eng.opc = 0x11#8 ∧ s.fs.configured = true

/-- What FS.CREATE has checked and latched (45_frame_sync.md R211). -/
structure FsCfgOk (P : Params) (g : FsCfg) : Prop where
  hdrLen : g.hdrLen = headerLen P g.profile ∧ 1 ≤ g.hdrLen ∧ g.hdrLen ≤ P.maxDecLen
  hdrKnown : knownEd g.hdrEd = true ∧ knownFec P g.hdrInner = true ∧ knownFec P g.hdrOuter = true
    ∧ knownMod P g.hdrMod = true
  hdrEnc : g.hdrEncLen = encLen P g.hdrLen g.hdrEd g.hdrInner g.hdrOuter
  pay : g.profile = .fixed ∨ g.hdrFail = .continue → feasible P g.payDecl = true
  area : g.outAddr.toNat + 8 + maxPayload P g.profile g.payLen ≤ P.bufSize

/-- The payload configuration of an attempt in RXPAYLOAD or CALLBACK: feasible, and its event fits the event area
(45_frame_sync.md R226). -/
structure CurOk (P : Params) (g : FsCfg) (c : Cur) : Prop where
  feasible : feasible P ⟨c.len, c.mod, c.ed, c.inner, c.outer⟩ = true
  enc : c.enc = encLen P c.len c.ed c.inner c.outer
  fits : c.len ≤ maxPayload P g.profile g.payLen

/-- The invariant of FS (10_state.md R66, R77, 45_frame_sync.md R208, R215). -/
structure FsOk (P : Params) (s : State) : Prop where
  idle : s.fs.configured = false → s.fs.tag = .detect ∧ s.fs.cfg = FsCfg.zero ∧ s.fs.cur = Cur.zero
  cfg : s.fs.configured = true → FsCfgOk P s.fs.cfg
  /-- EVT_PENDING is 1 exactly in CALLBACK. -/
  hold : s.fs.evtPending = true ↔ s.fs.tag = .callback
  /-- IN_FLIGHT is 0 exactly in DETECT (R208). -/
  flight : s.fs.inFlight = false ↔ s.fs.tag = .detect
  /-- CALLBACK and RESET are passed inside an FS.EXECUTE. -/
  inside : s.fs.tag = .callback ∨ s.fs.tag = .reset → fsRunning s = true
  /-- FS_SAMPLES_LEFT "is 0 when no FS.EXECUTE is in progress" (10_state.md R67). -/
  left : fsRunning s = false → s.fs.execLeft = 0
  /-- The unconsumed samples lie in BUF. -/
  range : s.fs.execOff.toNat + 4 * s.fs.execLeft.toNat ≤ P.bufSize
  sync : s.fs.tag = .sync → s.fs.symCount.toNat < P.syncLen
  header : s.fs.tag = .rxHeader → s.fs.acc.length < 8 * s.fs.cfg.hdrEncLen
  payload : s.fs.tag = .rxPayload → s.fs.acc.length < 8 * s.fs.cur.enc
  cur : s.fs.tag = .rxPayload ∨ s.fs.tag = .callback → CurOk P s.fs.cfg s.fs.cur ∧ s.fs.hdr.length = s.fs.cfg.hdrLen
  front : s.fs.configured = true → FeReach P.toBlockParams s.fs.cfg s.fs.fe

/-- The invariant of BUF: the canonical form, and nothing listed outside BUF (20_memory.md R80). -/
structure BufOk (P : Params) (s : State) : Prop where
  wf : Memory.wf (s.bufDefault P) s.buf = true
  inside : ∀ e ∈ s.buf, e.1 < P.bufSize

/-- The reserved fields of FS_STAT_MOD and FS_STAT_SCHEME are 0 (10_state.md R75, R76). -/
structure StatsOk (r : Regs) : Prop where
  mod : r.statMod.extractLsb' 16 16 = 0#16
  scheme : r.statScheme.extractLsb' 24 8 = 0#8

/-- The invariant of the machine. -/
structure Inv (P : Params) (s : State) : Prop where
  ctx : ∀ c, c < 16 → CtxOk P c (s.ctx c)
  engine : EngineOk s
  stats : StatsOk s.regs
  fs : FsOk P s
  buf : BufOk P s

/-- The model's own fields are the same. -/
def SameHostSide (s t : State) : Prop :=
  t.agenda = s.agenda ∧ t.seen = s.seen ∧ t.epoch = s.epoch ∧ t.free = s.free

/-- The three ids of a scheme or configuration word are known (30_encoding.md R103, R106). -/
abbrev TripleOk (P : Params) (sw : Word) : Prop :=
  knownEd (swEd sw) = true ∧ knownFec P (swInner sw) = true ∧ knownFec P (swOuter sw) = true

/-- A scheme word that passes its checks (30_encoding.md R103, R106). -/
abbrev SchemeWordOk (P : Params) (sw : Word) : Prop := swTop sw = 0 ∧ TripleOk P sw

/-- A decoded length that `checkLen` passes (40_packetizer_config.md R130). -/
abbrev LengthOk (P : Params) (L : Nat) : Prop := 1 ≤ L ∧ L ≤ P.maxDecLen

/-- A range inside BUF (60_exceptions.md R263). -/
abbrev InBuf (P : Params) (off : Word) (len : Nat) : Prop := off.toNat + len ≤ P.bufSize

/-- The error of `checkScheme` on a word, as R130 and R261 write it, or `rest` if the three ids are known. -/
def schemeErrorOr (P : Params) (which : Nat) (sw : Word) (rest : CmdError) : CmdError :=
  if knownEd (swEd sw) = false then ⟨.configScheme, BitVec.ofNat 32 (which * 65536 + (swEd sw).toNat)⟩
  else if knownFec P (swInner sw) = false then ⟨.configScheme, BitVec.ofNat 32 (which * 65536 + 256 + (swInner sw).toNat)⟩
  else if knownFec P (swOuter sw) = false then ⟨.configScheme, BitVec.ofNat 32 (which * 65536 + 512 + (swOuter sw).toNat)⟩
  else rest

/-- STATUS, ERR_INFO and INT_STATUS after `complete()`, the other registers being `r` (60_exceptions.md R266). -/
def completedRegs (r : Regs) : Regs := { r with done := true, intStatus := r.intStatus ||| 0b0001#4 }

/-- `s` after a completed command that wrote the registers `r` and nothing else (60_exceptions.md R266). -/
def completed (r : Regs) (s : State) : State := { s with regs := completedRegs r, eng := { s.eng with busy := false } }

/-- FS but for the position in the current FS.EXECUTE (45_frame_sync.md R234). -/
def Fs.forgetPosition (f : Fs) : Fs := { f with execOff := 0, execLeft := 0 }

/-- The sample at an offset of BUF (45_frame_sync.md R204). -/
def sampleAt (P : Params) (s : State) (off : Nat) : Sample :=
  ⟨s.byte P (off + 1) ++ s.byte P off, s.byte P (off + 3) ++ s.byte P (off + 2)⟩

/-- A state whose FS engine has a sample to consume: running, with samples left that lie in BUF. -/
def CanConsume (P : Params) (s : State) : Prop :=
  fsRunning s = true ∧ s.fs.execLeft ≠ 0 ∧ s.fs.execOff.toNat + 4 ≤ P.bufSize

/-- The states that consume a sample (45_frame_sync.md R200). -/
def FsTag.Consuming (t : FsTag) : Prop := t = .detect ∨ t = .sync ∨ t = .rxHeader ∨ t = .rxPayload

/-- FS after consuming one sample, the rest being `f` (45_frame_sync.md R205). -/
def Fs.consumed (f : Fs) : Fs := { f with execOff := f.execOff + 4, execLeft := f.execLeft - 1 }

/-! ## Runs in which the host acknowledges every event at once -/

/-- What a host sees of an event: FS_EVT, FS_EVT_LEN, the FS_STAT registers, the 8 header bytes and the payload bytes
(45_frame_sync.md R230). -/
structure SeenEvent where
  hdrValid : Bool
  payValid : Bool
  len : Word
  evm : Word
  rssi : Word
  cfo : Word
  nsym : Word
  mod : Word
  scheme : Word
  header : List Byte
  payload : List Byte
deriving DecidableEq, Repr

/-- The event of a state that holds one. -/
def seenEvent (P : Params) (s : State) : SeenEvent :=
  { hdrValid := s.regs.evtHdrValid, payValid := s.regs.evtPayValid, len := s.regs.fsEvtLen
    evm := s.regs.statEvm, rssi := s.regs.statRssi, cfo := s.regs.statCfo, nsym := s.regs.statNsym
    mod := s.regs.statMod, scheme := s.regs.statScheme
    header := s.memRead P s.fs.cfg.outAddr.toNat 8
    payload := s.memRead P (s.fs.cfg.outAddr.toNat + 8) s.regs.fsEvtLen.toNat }

/-- `n` steps of the block, the host's only action being to write FS_ACK whenever an event is held; with the events held, in
order. None if the block stops. -/
def ackRun (P : Params) : Nat → State → Option (State × List SeenEvent)
  | 0, s => some (s, [])
  | n + 1, s =>
    if s.fs.evtPending then (ackRun P n (acknowledge s)).map fun r => (r.1, seenEvent P s :: r.2)
    else
      match engineStep P s with
      | .next t => ackRun P n t
      | _ => none

/-- `s` after the acceptance of FS.EXECUTE on `n` samples at `src` (60_exceptions.md R266, 30_encoding.md R114). -/
def acceptedExecute (src n : Word) (s : State) : State :=
  acceptIdle 0x00000011#32 { s with regs := { s.regs with arg := { s.regs.arg with a0 := n, a2 := src } } }

end Sys2Proof.Machine
end

