-- ==== Sys2Proof/Certificates/Slice0/Obligations.lean ====
section
/-! DEFINITION. The statements for the provers. `step { s with agenda := t :: s.agenda }` is the machine's step in which the turn
`t` is next and after which the turns of `s` remain. -/

open Sys2Proof Sys2Proof.Machine

/-! ## The command word -/

/-- Decoder and encoder agree: every command that can be written decodes back from its word, and every legal word is the word of the
command it decodes to (30_encoding.md R100, R101, R110). -/
def Obligations.DecodeAndEncodeAgree : Prop :=
  (∀ i : Instr, i.wellFormed = true → decode (encode i) = .ok i) ∧
  (∀ (w : Word) (i : Instr), decode w = .ok i → encode i = w ∧ i.wellFormed = true)

/-- A word selects at most one row of the opcode map, the row of the command it decodes to, and none if it is illegal
(30_encoding.md R110). -/
def Obligations.DecodeSelectsOneRow : Prop :=
  ∀ w : Word,
    (∀ i, decode w = .ok i → (opcodeRows.filter fun r => r.selects w).map OpcodeRow.mnemonic = [i.mnemonic]) ∧
    (legal w = false → opcodeRows.filter (fun r => r.selects w) = [])

/-- The legal words, what an illegal one does, and CTX_RANGE for a legal word whose CTX names no context (30_encoding.md R101). -/
def Obligations.LegalWords : Prop :=
  (∀ w : Word, legal w = true ↔
    w.extractLsb' 0 8 ∈ [0x01#8, 0x02#8, 0x03#8, 0x04#8, 0x05#8, 0x06#8, 0x07#8, 0x08#8, 0x09#8, 0x0A#8, 0x10#8, 0x11#8, 0x12#8] ∧
    w.extractLsb' 12 20 = 0#20 ∧
    (w.extractLsb' 0 8 ∉ [0x03#8, 0x04#8, 0x05#8, 0x06#8, 0x07#8, 0x08#8] → w.extractLsb' 8 4 = 0#4)) ∧
  (∀ (s : State) (w : Word), legal w = false → s.eng.busy = false →
    step { s with agenda := wr 0x010 w :: s.agenda } = .next { s with
      regs := { s.regs with
        done := false, err := true, errCode := 0x01#8, errInfo := w, lastOpc := w.extractLsb' 0 8
        intStatus := s.regs.intStatus ||| 0b0010#4 } }) ∧
  (∀ (s : State) (i : Instr) (c : Nat), i.ctx? = some c → Config.params.numCtx ≤ c →
    exec i s = .next (raise ⟨.ctxRange, BitVec.ofNat 32 c⟩ s))

/-- Words written out from the layout of 30_encoding.md R100 and the opcodes of R110. -/
def Obligations.WrittenWordsDecode : Prop :=
  decode 0b00000000_00000000_00000000_00000001#32 = .ok .pktEnclen ∧
  decode 0b00000000_00000000_00001111_00000011#32 = .ok (.pktCreate 15) ∧
  decode 0b00000000_00000000_00000010_00000110#32 = .ok (.pktEncode 2) ∧
  decode 0b00000000_00000000_00000101_00001000#32 = .ok (.pktDecodeSoft 5) ∧
  decode 0b00000000_00000000_00000000_00001010#32 = .ok .schemeName2id ∧
  decode 0b00000000_00000000_00000000_00010001#32 = .ok .fsExecute ∧
  decode 0b00000000_00000000_00000001_00010001#32 = .error .ctxNotUsed ∧
  decode 0b00000000_00000000_00010000_00000011#32 = .error .reservedBits ∧
  decode 0b00000000_00000000_00000000_00000000#32 = .error .reservedOpcode

/-- Every reserved encoding is illegal, and every reserved or illegal word raises ILLEGAL_CMD with no other effect
(30_encoding.md R111, 60_exceptions.md R262). -/
def Obligations.ReservedEncodingsAreRefused : Prop :=
  (∀ w : Word,
    ((w.extractLsb' 0 8).toNat = 0x00 ∨ (0x0B ≤ (w.extractLsb' 0 8).toNat ∧ (w.extractLsb' 0 8).toNat ≤ 0x0F)
      ∨ 0x13 ≤ (w.extractLsb' 0 8).toNat ∨ w.extractLsb' 12 20 ≠ 0#20) → legal w = false) ∧
  (∀ (s : State) (w : Word), s.eng.busy = false → legal w = false →
    step { s with agenda := wr 0x010 w :: s.agenda } = .next { s with
      regs := { s.regs with
        done := false, err := true, errCode := 0x01#8, errInfo := w, lastOpc := w.extractLsb' 0 8
        intStatus := s.regs.intStatus ||| 0b0010#4 } })

/-! ## The life of a command -/

/-- A step runs the decoded command: when the accepted word in ENG decodes to a command whose execution step has not run, the
block's step is `exec` of it, and in a block with any parameters `execWith` of it; the block's step is the machine's step when the
agenda is empty or gives the block its turn; and after `withFetchWord` the next step runs the command of the word
(60_exceptions.md R266, 00_scope.md R10; the agenda is the model's, log 1, log 2). -/
def Obligations.StepRunsTheDecodedCommand : Prop :=
  (∀ (s : State) (i : Instr), s.eng.busy = true → s.eng.started = false → decode s.eng.word = .ok i →
    engineStep Config.params s = exec i s ∧ ∀ P : Params, engineStep P s = execWith P i s) ∧
  (∀ s : State, s.agenda = [] → step s = engineStep Config.params s) ∧
  (∀ s : State, step { s with agenda := .engine :: s.agenda } = engineStep Config.params s) ∧
  (∀ (s : State) (nbits w : Nat) (i : Instr), s.eng.busy = false → decodeTableWord nbits w = some i →
    step (s.withFetchWord nbits w) = exec i { s with
      regs := { s.regs with
        done := false, err := false, errCode := 0, lastOpc := (BitVec.ofNat 32 (w % 2 ^ nbits)).extractLsb' 0 8 }
      eng := {
        busy := true, opc := (BitVec.ofNat 32 (w % 2 ^ nbits)).extractLsb' 0 8
        ctx := (BitVec.ofNat 32 (w % 2 ^ nbits)).extractLsb' 8 4, arg := s.regs.arg, started := false } })

/-- A host write to CMD: a legal word at an idle engine is latched with the four argument registers, and any word at a busy engine
is dropped and sets OVR (60_exceptions.md R266, R267, 10_state.md R37). -/
def Obligations.CommandAcceptance : Prop :=
  ∀ (s : State) (w : Word),
    (s.eng.busy = false → legal w = true →
      step { s with agenda := wr 0x010 w :: s.agenda } = .next { s with
        regs := { s.regs with done := false, err := false, errCode := 0, lastOpc := w.extractLsb' 0 8 }
        eng := {
          busy := true, opc := w.extractLsb' 0 8, ctx := w.extractLsb' 8 4, arg := s.regs.arg, started := false } }) ∧
    (s.eng.busy = true →
      step { s with agenda := wr 0x010 w :: s.agenda } = .next { s with
        regs := { s.regs with intStatus := s.regs.intStatus ||| 0b1000#4 } })

/-- Errors are precise: a command that raises an error changes STATUS.DONE, ERR and ERR_CODE, ERR_INFO, INT_STATUS.ERR and ENG.busy,
and nothing else (60_exceptions.md R262). -/
def Obligations.ErrorsArePrecise : Prop :=
  ∀ (s : State) (i : Instr) (e : CmdError), commandError Config.params s i = some e →
    exec i s = .next { s with
      regs := { s.regs with
        done := false, err := true, errCode := e.code.toByte, errInfo := e.info
        intStatus := s.regs.intStatus ||| 0b0010#4 }
      eng := { s.eng with busy := false } }

/-- Every command but FS.EXECUTE ends in its one execution step, with DONE or with ERR and never both; FS.EXECUTE ends there only with
an error (60_exceptions.md R266, 70_reset_and_hazards.md R312). -/
def Obligations.OneExecutionStep : Prop :=
  ∀ (s : State) (i : Instr), s.regs.done = false → s.regs.err = false →
    ∃ t, exec i s = .next t ∧
      (i ≠ .fsExecute → t.eng.busy = false ∧ t.regs.done = !t.regs.err) ∧
      (i = .fsExecute → (t.regs.err = true ∧ t.regs.done = false ∧ t.eng.busy = false)
        ∨ (t.regs = s.regs ∧ t.eng = { s.eng with started := true }))

/-! ## The packetizer's length and context commands -/

/-- PKT.ENCLEN (40_packetizer_config.md R132). -/
def Obligations.EnclenResult : Prop :=
  decode 0x00000001#32 = .ok .pktEnclen ∧
  ∀ s : State,
    let P := Config.params
    let L := s.eng.arg.a0
    let sw := s.eng.arg.a1
    let E := fecLen P (swOuter sw) (fecLen P (swInner sw) (L.toNat + keyLen (swEd sw)))
    (SchemeWordOk P sw ∧ LengthOk P L.toNat →
      E < 2 ^ 32 ∧ exec .pktEnclen s = .next (completed { s.regs with result0 := BitVec.ofNat 32 E } s)) ∧
    (¬(SchemeWordOk P sw ∧ LengthOk P L.toNat) →
      exec .pktEnclen s = .next (raise
        (if swTop sw ≠ 0 then ⟨.illegalArg, sw⟩ else schemeErrorOr P 0 sw ⟨.configLength, L⟩) s))

/-- PKT.DECLEN, and g: the largest length whose encoding fits, or 0 (40_packetizer_config.md R134). -/
def Obligations.DeclenResult : Prop :=
  decode 0x00000002#32 = .ok .pktDeclen ∧
  ∀ s : State,
    let P := Config.params
    let E := s.eng.arg.a0
    let sw := s.eng.arg.a1
    (SchemeWordOk P sw → ∃ L : Nat,
      exec .pktDeclen s = .next (completed { s.regs with result0 := BitVec.ofNat 32 L } s) ∧
      L ≤ P.maxDecLen ∧
      (1 ≤ L → encLen P L (swEd sw) (swInner sw) (swOuter sw) ≤ E.toNat) ∧
      (∀ n, LengthOk P n → encLen P n (swEd sw) (swInner sw) (swOuter sw) ≤ E.toNat → n ≤ L)) ∧
    (¬SchemeWordOk P sw →
      exec .pktDeclen s = .next (raise
        (if swTop sw ≠ 0 then ⟨.illegalArg, sw⟩ else schemeErrorOr P 0 sw ⟨.none, 0⟩) s))

/-- PKT.CREATE (40_packetizer_config.md R136). -/
def Obligations.CreateResult : Prop :=
  (∀ c, c < 16 → decode (BitVec.ofNat 32 (0x03 + 256 * c)) = .ok (.pktCreate c)) ∧
  ∀ (s : State) (c : Nat),
    let P := Config.params
    let L := s.eng.arg.a0
    let sw := s.eng.arg.a1
    let E := encLen P L.toNat (swEd sw) (swInner sw) (swOuter sw)
    (c < P.numCtx ∧ SchemeWordOk P sw ∧ (s.ctx c).configured = false ∧ LengthOk P L.toNat →
      E < 2 ^ 32 ∧
      exec (.pktCreate c) s = .next (completed { s.regs with result0 := BitVec.ofNat 32 E } { s with
        ctxs := s.ctxs.setIfInBounds c ⟨true, L, swEd sw, swInner sw, swOuter sw, BitVec.ofNat 32 E⟩ })) ∧
    (¬(c < P.numCtx ∧ SchemeWordOk P sw ∧ (s.ctx c).configured = false ∧ LengthOk P L.toNat) →
      exec (.pktCreate c) s = .next (raise
        (if c ≥ P.numCtx then ⟨.ctxRange, BitVec.ofNat 32 c⟩
         else if swTop sw ≠ 0 then ⟨.illegalArg, sw⟩
         else if (s.ctx c).configured = true then ⟨.ctxState, BitVec.ofNat 32 c⟩
         else schemeErrorOr P 0 sw ⟨.configLength, L⟩) s))

/-- PKT.RECONFIG (40_packetizer_config.md R138). -/
def Obligations.ReconfigResult : Prop :=
  (∀ c, c < 16 → decode (BitVec.ofNat 32 (0x04 + 256 * c)) = .ok (.pktReconfig c)) ∧
  ∀ (s : State) (c : Nat),
    let P := Config.params
    let L := s.eng.arg.a0
    let sw := s.eng.arg.a1
    let E := encLen P L.toNat (swEd sw) (swInner sw) (swOuter sw)
    (c < P.numCtx ∧ SchemeWordOk P sw ∧ (s.ctx c).configured = true ∧ LengthOk P L.toNat →
      E < 2 ^ 32 ∧
      exec (.pktReconfig c) s = .next (completed { s.regs with result0 := BitVec.ofNat 32 E } { s with
        ctxs := s.ctxs.setIfInBounds c ⟨true, L, swEd sw, swInner sw, swOuter sw, BitVec.ofNat 32 E⟩ })) ∧
    (¬(c < P.numCtx ∧ SchemeWordOk P sw ∧ (s.ctx c).configured = true ∧ LengthOk P L.toNat) →
      exec (.pktReconfig c) s = .next (raise
        (if c ≥ P.numCtx then ⟨.ctxRange, BitVec.ofNat 32 c⟩
         else if swTop sw ≠ 0 then ⟨.illegalArg, sw⟩
         else if (s.ctx c).configured = false then ⟨.ctxState, BitVec.ofNat 32 c⟩
         else schemeErrorOr P 0 sw ⟨.configLength, L⟩) s))

/-- PKT.DESTROY (40_packetizer_config.md R140). -/
def Obligations.DestroyResult : Prop :=
  (∀ c, c < 16 → decode (BitVec.ofNat 32 (0x05 + 256 * c)) = .ok (.pktDestroy c)) ∧
  ∀ (s : State) (c : Nat),
    (c < Config.params.numCtx ∧ (s.ctx c).configured = true →
      exec (.pktDestroy c) s = .next (completed s.regs { s with
        ctxs := s.ctxs.setIfInBounds c ⟨false, 0, 0, 0, 0, 0⟩ })) ∧
    (¬(c < Config.params.numCtx ∧ (s.ctx c).configured = true) →
      exec (.pktDestroy c) s = .next (raise
        (if c ≥ Config.params.numCtx then ⟨.ctxRange, BitVec.ofNat 32 c⟩ else ⟨.ctxState, BitVec.ofNat 32 c⟩) s))

/-! ## The packetizer's coding commands -/

/-- PKT.ENCODE (41_packetizer_coding.md R165), with the bytes it stores and those it leaves. -/
def Obligations.EncodeResult : Prop :=
  (∀ c, c < 16 → decode (BitVec.ofNat 32 (0x06 + 256 * c)) = .ok (.pktEncode c)) ∧
  ∀ (s : State) (c : Nat),
    let P := Config.params
    let r := s.ctx c
    let src := s.eng.arg.a2
    let dst := s.eng.arg.a3
    let d := pktEnc P ⟨r.len.toNat, r.ed, r.inner, r.outer⟩ (s.memRead P src.toNat r.len.toNat)
    (c < P.numCtx ∧ r.configured = true ∧ InBuf P src r.len.toNat ∧ InBuf P dst r.enc.toNat →
      exec (.pktEncode c) s = .next (completed { s.regs with result0 := r.enc } (s.memWrite P dst.toNat d)) ∧
      (Inv P s → d.length = r.enc.toNat ∧ ∀ a : Nat,
        (s.memWrite P dst.toNat d).byte P a =
          if dst.toNat ≤ a ∧ a < dst.toNat + r.enc.toNat then d.getD (a - dst.toNat) 0 else s.byte P a)) ∧
    (¬(c < P.numCtx ∧ r.configured = true ∧ InBuf P src r.len.toNat ∧ InBuf P dst r.enc.toNat) →
      exec (.pktEncode c) s = .next (raise
        (if c ≥ P.numCtx then ⟨.ctxRange, BitVec.ofNat 32 c⟩
         else if r.configured = false then ⟨.ctxState, BitVec.ofNat 32 c⟩
         else if ¬InBuf P src r.len.toNat then ⟨.bufRange, src⟩
         else ⟨.bufRange, dst⟩) s))

/-- PKT.DECODE (41_packetizer_coding.md R167), with the bytes it stores and those it leaves. -/
def Obligations.DecodeResult : Prop :=
  (∀ c, c < 16 → decode (BitVec.ofNat 32 (0x07 + 256 * c)) = .ok (.pktDecode c)) ∧
  ∀ (s : State) (c : Nat),
    let P := Config.params
    let r := s.ctx c
    let src := s.eng.arg.a2
    let dst := s.eng.arg.a3
    let m := pktDec P ⟨r.len.toNat, r.ed, r.inner, r.outer⟩ (s.memRead P src.toNat r.enc.toNat)
    (c < P.numCtx ∧ r.configured = true ∧ InBuf P src r.enc.toNat ∧ InBuf P dst r.len.toNat →
      exec (.pktDecode c) s = .next (completed
        { s.regs with result0 := if m.2 then 1 else 0, result1 := r.len, valid := m.2 } (s.memWrite P dst.toNat m.1)) ∧
      (r.ed = 1#8 → m.2 = true) ∧
      (Inv P s → m.1.length = r.len.toNat ∧ ∀ a : Nat,
        (s.memWrite P dst.toNat m.1).byte P a =
          if dst.toNat ≤ a ∧ a < dst.toNat + r.len.toNat then m.1.getD (a - dst.toNat) 0 else s.byte P a)) ∧
    (¬(c < P.numCtx ∧ r.configured = true ∧ InBuf P src r.enc.toNat ∧ InBuf P dst r.len.toNat) →
      exec (.pktDecode c) s = .next (raise
        (if c ≥ P.numCtx then ⟨.ctxRange, BitVec.ofNat 32 c⟩
         else if r.configured = false then ⟨.ctxState, BitVec.ofNat 32 c⟩
         else if ¬InBuf P src r.enc.toNat then ⟨.bufRange, src⟩
         else ⟨.bufRange, dst⟩) s))

/-- PKT.DECODE_SOFT (41_packetizer_coding.md R169), with the bytes it stores and those it leaves. -/
def Obligations.DecodeSoftResult : Prop :=
  (∀ c, c < 16 → decode (BitVec.ofNat 32 (0x08 + 256 * c)) = .ok (.pktDecodeSoft c)) ∧
  ∀ (s : State) (c : Nat),
    let P := Config.params
    let r := s.ctx c
    let src := s.eng.arg.a2
    let dst := s.eng.arg.a3
    let m := pktDecSoft P ⟨r.len.toNat, r.ed, r.inner, r.outer⟩ (s.memRead P src.toNat (8 * r.enc.toNat))
    (c < P.numCtx ∧ r.configured = true ∧ InBuf P src (8 * r.enc.toNat) ∧ InBuf P dst r.len.toNat →
      exec (.pktDecodeSoft c) s = .next (completed
        { s.regs with result0 := if m.2 then 1 else 0, result1 := r.len, valid := m.2 } (s.memWrite P dst.toNat m.1)) ∧
      (r.ed = 1#8 → m.2 = true) ∧
      (r.inner = 1#8 → r.outer = 1#8 → m = pktDec P ⟨r.len.toNat, r.ed, r.inner, r.outer⟩
        (pack (slice (s.memRead P src.toNat (8 * r.enc.toNat))))) ∧
      (Inv P s → m.1.length = r.len.toNat ∧ ∀ a : Nat,
        (s.memWrite P dst.toNat m.1).byte P a =
          if dst.toNat ≤ a ∧ a < dst.toNat + r.len.toNat then m.1.getD (a - dst.toNat) 0 else s.byte P a)) ∧
    (¬(c < P.numCtx ∧ r.configured = true ∧ InBuf P src (8 * r.enc.toNat) ∧ InBuf P dst r.len.toNat) →
      exec (.pktDecodeSoft c) s = .next (raise
        (if c ≥ P.numCtx then ⟨.ctxRange, BitVec.ofNat 32 c⟩
         else if r.configured = false then ⟨.ctxState, BitVec.ofNat 32 c⟩
         else if ¬InBuf P src (8 * r.enc.toNat) then ⟨.bufRange, src⟩
         else ⟨.bufRange, dst⟩) s))

/-! ## Scheme names -/

/-- SCHEME.ID2NAME (42_scheme_names.md R191): the name and its NUL, and no other byte, are written. -/
def Obligations.Id2nameResult : Prop :=
  decode 0x00000009#32 = .ok .schemeId2name ∧
  ∀ s : State,
    let P := Config.params
    let kw := s.eng.arg.a0
    let dst := s.eng.arg.a3
    let nm := if kw.getLsbD 8 then fecName P (kw.extractLsb' 0 8) else edName (kw.extractLsb' 0 8)
    (kw.extractLsb' 9 23 = 0#23 ∧ InBuf P dst 16 →
      exec .schemeId2name s = .next (completed { s.regs with result0 := BitVec.ofNat 32 nm.length }
        (s.memWrite P dst.toNat (nm ++ [0x00#8]))) ∧
      1 ≤ nm.length ∧ nm.length ≤ 15 ∧
      ((if kw.getLsbD 8 then knownFec P (kw.extractLsb' 0 8) else knownEd (kw.extractLsb' 0 8)) = false → nm = nameUnknown) ∧
      (Memory.wf (s.bufDefault P) s.buf = true → ∀ a : Nat,
        (s.memWrite P dst.toNat (nm ++ [0x00#8])).byte P a =
          if dst.toNat ≤ a ∧ a < dst.toNat + (nm.length + 1) then (nm ++ [0x00#8]).getD (a - dst.toNat) 0 else s.byte P a)) ∧
    (¬(kw.extractLsb' 9 23 = 0#23 ∧ InBuf P dst 16) →
      exec .schemeId2name s = .next (raise
        (if kw.extractLsb' 9 23 ≠ 0#23 then ⟨.illegalArg, kw⟩ else ⟨.bufRange, dst⟩) s))

/-- SCHEME.NAME2ID (42_scheme_names.md R193). -/
def Obligations.Name2idResult : Prop :=
  decode 0x0000000A#32 = .ok .schemeName2id ∧
  ∀ s : State,
    let P := Config.params
    let kw := s.eng.arg.a0
    let src := s.eng.arg.a2
    let k := kw.getLsbD 8
    let ok := kw.extractLsb' 9 23 = 0#23 ∧ kw.extractLsb' 0 8 = 0#8
    (ok ∧ InBuf P src 16 → ∃ id : Byte,
      exec .schemeName2id s = .next (completed { s.regs with result0 := BitVec.ofNat 32 id.toNat } s) ∧
      (∀ n, n < 16 → s.byte P (src.toNat + n) = 0 → (∀ j, j < n → s.byte P (src.toNat + j) ≠ 0) →
        (knownScheme P k id = true ∧ schemeName P k id = s.memRead P src.toNat n) ∨
        (id = 0 ∧ ∀ x, knownScheme P k x = true → schemeName P k x ≠ s.memRead P src.toNat n)) ∧
      ((∀ n, n < 16 → s.byte P (src.toNat + n) ≠ 0) → id = 0)) ∧
    (¬(ok ∧ InBuf P src 16) →
      exec .schemeName2id s = .next (raise (if ¬ok then ⟨.illegalArg, kw⟩ else ⟨.bufRange, src⟩) s))

/-! ## The frame synchronizer's commands -/

/-- FS.CREATE (45_frame_sync.md R211), run in this block (`exec`) and in a block with any parameters (`execWith P`): one that knows no
modulation, which 00_scope.md R10 allows, completes none. ERR_INFO for an L_h of 2^32 or more, of which the spec states no value, is a
free value (DESIGN CHOICE, log 34). -/
def Obligations.FsCreateResult : Prop :=
  decode 0x00000010#32 = .ok .fsCreate ∧
  ∀ (P : Params) (run : State → Host.Outcome State Fault Refusal),
    (P = Config.params ∧ run = exec .fsCreate) ∨ run = execWith P .fsCreate → ∀ s : State,
    let ct := s.regs.fsCtrl
    let h := s.regs.fsHdrCfg
    let p := s.regs.fsPayCfg
    let pl := s.regs.fsPayLen
    let oa := s.regs.fsOutAddr
    let flex := ct.getLsbD 0
    let cont := ct.getLsbD 1
    let usePay := flex = false ∨ cont = true
    let Lh := if flex then 8 + P.hdrDescLen else 8
    let maxPay := if flex then P.maxDecLen else pl.toNat
    let payOk := TripleOk P p ∧ knownMod P (swTop p) = true ∧ LengthOk P pl.toNat
    let ok := s.fs.configured = false ∧ TripleOk P h ∧ knownMod P (swTop h) = true ∧ (usePay → payOk) ∧ LengthOk P Lh
      ∧ InBuf P oa (8 + maxPay)
    let cfg : FsCfg := {
      profile := if flex then .flex else .fixed, hdrFail := if cont then .continue else .abort
      hdrEd := swEd h, hdrInner := swInner h, hdrOuter := swOuter h, hdrMod := swTop h
      payEd := swEd p, payInner := swInner p, payOuter := swOuter p, payMod := swTop p
      payLen := pl, thresh := s.regs.fsDetThresh, outAddr := oa
      hdrLen := Lh, hdrEncLen := encLen P Lh (swEd h) (swInner h) (swOuter h) }
    let tailError : CmdError :=
      if ¬LengthOk P Lh then ⟨.configLength, if Lh < 2 ^ 32 then BitVec.ofNat 32 Lh else P.wideLength Lh⟩ else ⟨.bufRange, oa⟩
    let payError := schemeErrorOr P 1 p
      (if knownMod P (swTop p) = false then ⟨.configMod, BitVec.ofNat 32 (256 + (swTop p).toNat)⟩
       else if ¬LengthOk P pl.toNat then ⟨.configLength, pl⟩ else tailError)
    (ok →
      run s = .next (completed s.regs { s with
        fs := { s.fs with
          configured := true, tag := .detect, cfg := cfg, fe := P.feInit cfg, acc := [], symCount := 0, paySyms := 0
          hdr := [], hdrValid := false, cur := ⟨0, 0, 0, 0, 0, 0⟩, evtPending := false, inFlight := false } })) ∧
    (¬ok →
      run s = .next (raise
        (if s.fs.configured = true then ⟨.fsState, 1⟩
         else schemeErrorOr P 0 h
          (if knownMod P (swTop h) = false then ⟨.configMod, BitVec.ofNat 32 (swTop h).toNat⟩
           else if flex = false ∨ cont = true then payError else tailError)) s))

/-- FS.EXECUTE's first execution step (45_frame_sync.md R213; `started` is the model's, log 4). The steps that follow are in
FsEnabledStep, and that the command completes in ExecuteCompletes. -/
def Obligations.FsExecuteStarts : Prop :=
  decode 0x00000011#32 = .ok .fsExecute ∧
  ∀ s : State,
    let P := Config.params
    let n := s.eng.arg.a0
    let src := s.eng.arg.a2
    (s.fs.configured = true ∧ n ≠ 0 ∧ InBuf P src (4 * n.toNat) →
      exec .fsExecute s = .next { s with
        fs := { s.fs with execOff := src, execLeft := n }, eng := { s.eng with started := true } }) ∧
    (¬(s.fs.configured = true ∧ n ≠ 0 ∧ InBuf P src (4 * n.toNat)) →
      exec .fsExecute s = .next (raise
        (if s.fs.configured = false then ⟨.fsState, 0⟩ else if n = 0 then ⟨.zeroLength, 0⟩ else ⟨.bufRange, src⟩) s))

/-- FS.DESTROY; the front end's state afterwards is a free value (45_frame_sync.md R218; log 9). -/
def Obligations.FsDestroyResult : Prop :=
  decode 0x00000012#32 = .ok .fsDestroy ∧
  ∀ s : State,
    (s.fs.configured = true → ∃ (fe : FeState) (drawn : Nat),
      exec .fsDestroy s = .next (completed s.regs { s with
        fs := { s.fs with
          configured := false, tag := .detect, fe := fe, acc := [], symCount := 0, paySyms := 0, hdr := [], hdrValid := false
          cur := ⟨0, 0, 0, 0, 0, 0⟩, cfg := FsCfg.zero, evtPending := false, inFlight := false }
        free := drawn })) ∧
    (s.fs.configured = false → exec .fsDestroy s = .next (raise ⟨.fsState, 0⟩ s))

/-! ## Coding -/

/-- Encoding has length f, and decoding an encoded message, hard or soft, gives it back, valid (41_packetizer_coding.md R166). -/
def Obligations.PacketRoundTrip : Prop :=
  ∀ (P : Params) (p : Pkt) (m : List Byte), P.Lawful →
    knownEd p.ed = true → knownFec P p.inner = true → knownFec P p.outer = true → m.length = p.len →
      (pktEnc P p m).length = encLen P p.len p.ed p.inner p.outer ∧
      pktDec P p (pktEnc P p m) = (m, true) ∧
      pktDecSoft P p (soft (pktEnc P p m)) = (m, true)

/-- PKT.ENCODE and then PKT.DECODE of the bytes it wrote give the message back, with VALID (41_packetizer_coding.md R165 to R167). -/
def Obligations.EncodeThenDecode : Prop :=
  ∀ (s : State) (c : Nat) (dst2 : Word),
    let P := Config.params
    let L := (s.ctx c).len
    let E := (s.ctx c).enc
    let src := s.eng.arg.a2
    let dst := s.eng.arg.a3
    Inv P s → c < P.numCtx → (s.ctx c).configured = true → InBuf P src L.toNat → InBuf P dst E.toNat → InBuf P dst2 L.toNat →
    ∃ t u : State, exec (.pktEncode c) s = .next t ∧
      exec (.pktDecode c) { t with eng := { t.eng with arg := { t.eng.arg with a2 := dst, a3 := dst2 } } } = .next u ∧
      u.memRead P dst2.toNat L.toNat = s.memRead P src.toNat L.toNat ∧
      u.regs.result0 = 1 ∧ u.regs.result1 = L ∧ u.regs.valid = true ∧ u.regs.done = true

/-- The soft decode of hard soft bits is the hard decode (41_packetizer_coding.md R170). -/
def Obligations.SoftAgreesWithHard : Prop :=
  ∀ (P : Params) (p : Pkt) (d : List Byte), P.Lawful →
    knownEd p.ed = true → knownFec P p.inner = true → knownFec P p.outer = true →
    d.length = encLen P p.len p.ed p.inner p.outer → pktDecSoft P p (soft d) = pktDec P p d

/-- Bit errors that the outer FEC corrects, or, with no outer FEC, errors whose de-interleaved positions the inner FEC corrects,
leave the decode valid and right (41_packetizer_coding.md R171; what a codec corrects is `FecCodec.fixes`, log 18). -/
def Obligations.CorrectableErrorsVanish : Prop :=
  ∀ (P : Params) (p : Pkt) (m : List Byte), P.Lawful →
    knownEd p.ed = true → knownFec P p.inner = true → knownFec P p.outer = true → m.length = p.len →
      (∀ ps : List Nat, (fecCodec P p.outer).fixes (p.innerLen P) ps = true →
        pktDec P p (flipBits ps (pktEnc P p m)) = (m, true)) ∧
      (p.outer = schemeNone → ∀ ps : List (Fin (8 * p.innerLen P)),
        (fecCodec P p.inner).fixes p.keyedLen (ps.map fun k => ((P.intlv (p.innerLen P)).symm k).val) = true →
        pktDec P p (flipBits (ps.map Fin.val) (pktEnc P p m)) = (m, true))

/-- The keys: none, the checksum that makes the bytes sum to 0 mod 256, and the CRC's value most significant byte first
(41_packetizer_coding.md R162). -/
def Obligations.ErrorDetectionKeys : Prop :=
  ∀ (P : Params) (m : List Byte),
    keyOf P 1 m = [] ∧
    (∃ k : Byte, keyOf P 2 m = [k] ∧ k.toNat = (256 - (m.map BitVec.toNat).sum % 256) % 256 ∧
      ((m ++ keyOf P 2 m).map BitVec.toNat).sum % 256 = 0) ∧
    keyOf P 3 m = [P.crc 8 m] ∧
    keyOf P 4 m = [(P.crc 16 m).extractLsb' 8 8, (P.crc 16 m).extractLsb' 0 8] ∧
    keyOf P 5 m = [(P.crc 24 m).extractLsb' 16 8, (P.crc 24 m).extractLsb' 8 8, (P.crc 24 m).extractLsb' 0 8] ∧
    keyOf P 6 m =
      [(P.crc 32 m).extractLsb' 24 8, (P.crc 32 m).extractLsb' 16 8, (P.crc 32 m).extractLsb' 8 8, (P.crc 32 m).extractLsb' 0 8]

/-! ## Lengths and names -/

/-- f is monotonic, and strictly increasing when both FECs are None or Hamming(7,4) (40_packetizer_config.md R133). -/
def Obligations.EncodedLengthIsMonotonic : Prop :=
  ∀ (P : Params) (ed inner outer : Byte), P.Lawful →
    (∀ m n, m ≤ n → encLen P m ed inner outer ≤ encLen P n ed inner outer) ∧
    ((inner = 1#8 ∨ inner = 2#8) → (outer = 1#8 ∨ outer = 2#8) →
      ∀ m n, m < n → encLen P m ed inner outer < encLen P n ed inner outer)

/-- The left-inverse law of g (40_packetizer_config.md R135). -/
def Obligations.DecodedLengthLeftInverse : Prop :=
  ∀ (P : Params) (L : Nat) (ed inner outer : Byte), P.Lawful → LengthOk P L →
    let f := fun n => encLen P n ed inner outer
    let g := fun n => decLen P n ed inner outer
    L ≤ g (f L) ∧
    ((f L < f (L + 1) ∨ L = P.maxDecLen) → g (f L) = L) ∧
    ((inner = 1#8 ∨ inner = 2#8) → (outer = 1#8 ∨ outer = 2#8) → g (f L) = L) ∧
    f (g (f L)) = f L ∧
    (∀ n, LengthOk P n → f n = f L → n ≤ g (f L))

/-- Reconfiguring a second time with the same operands changes nothing of the context and gives the same result, and no
reconfiguration changes what PKT.ENCLEN answers, which reads no context (40_packetizer_config.md R139). -/
def Obligations.ReconfigIsIdempotent : Prop :=
  (∀ (s t u : State) (c : Nat), exec (.pktReconfig c) s = .next t → t.regs.done = true → s.regs.done = false →
    exec (.pktReconfig c) { t with eng := s.eng, regs := { t.regs with done := false } } = .next u →
    u.ctxs = t.ctxs ∧ u.regs.result0 = t.regs.result0 ∧
    t.regs.result0 = BitVec.ofNat 32 (encLen Config.params s.eng.arg.a0.toNat
      (swEd s.eng.arg.a1) (swInner s.eng.arg.a1) (swOuter s.eng.arg.a1)) ∧ u.regs.done = true) ∧
  (∀ (s : State) (ctxs : Vector Ctx 16), ∃ (r : Regs) (e : Eng),
    exec .pktEnclen s = .next { s with regs := r, eng := e } ∧
    exec .pktEnclen { s with ctxs := ctxs } = .next { s with ctxs := ctxs, regs := r, eng := e })

/-- The two name lookups are inverse on known ids, and what is no name gives 0 (42_scheme_names.md R194). -/
def Obligations.NameLookupsAreInverse : Prop :=
  ∀ (P : Params) (k : Bool), P.Lawful →
    (∀ x : Byte, knownScheme P k x = true → schemeIdOfName P k (schemeName P k x) = x.toNat) ∧
    (∀ q : List Byte, (∀ x : Byte, knownScheme P k x = true → schemeName P k x ≠ q) → schemeIdOfName P k q = 0) ∧
    schemeName P k 0 = nameUnknown ∧ schemeIdOfName P k nameUnknown = 0

/-- The scheme tables: which ids are known, key lengths, FECLEN, and the names as the ASCII codes of the tables' strings
(30_encoding.md R104, R105). -/
def Obligations.SchemeTables : Prop :=
  let ascii := fun (n : String) => n.toList.map fun ch => BitVec.ofNat 8 ch.toNat
  (∀ id : Byte, knownEd id = true ↔ 1 ≤ id.toNat ∧ id.toNat ≤ 6) ∧
  [1#8, 2#8, 3#8, 4#8, 5#8, 6#8].map keyLen = [0, 1, 1, 2, 3, 4] ∧
  [0#8, 1#8, 2#8, 3#8, 4#8, 5#8, 6#8].map edName =
    ["unknown", "none", "checksum8", "crc8", "crc16", "crc24", "crc32"].map ascii ∧
  (∀ id : Byte, 7 ≤ id.toNat → edName id = ascii "unknown") ∧
  ∀ (P : Params) (n : Nat),
    fecLen P 1 n = n ∧ fecLen P 2 n = (7 * n + 3) / 4 ∧
    [0#8, 1#8, 2#8].map (fecName P) = ["unknown", "none", "hamming74"].map ascii ∧
    [0#8, 1#8, 2#8].map (knownFec P) = [false, true, true] ∧
    ∀ id : Byte, 3 ≤ id.toNat →
      (∀ e, P.fecExtra id = some e → knownFec P id = true ∧ fecLen P id n = e.len n ∧ fecName P id = e.name) ∧
      (P.fecExtra id = none → knownFec P id = false ∧ fecName P id = ascii "unknown")

/-! ## The frame-synchronizer engine -/

/-- The FS engine has exactly one enabled step while an FS.EXECUTE runs, chosen by its state, and takes none outside
(45_frame_sync.md R215). -/
def Obligations.FsEnabledStep : Prop :=
  ∀ (P : Params) (s : State),
    (fsRunning s = true → engineStep P s = fsEngineStep P s) ∧
    (s.eng.busy = false → engineStep P s = .next s) ∧
    (s.fs.tag.Consuming → CanConsume P s →
      fsEngineStep P s = applySample P (sampleAt P s s.fs.execOff.toNat) { s with fs := s.fs.consumed }) ∧
    (s.fs.tag = .callback → fsEngineStep P s = .next s) ∧
    (s.fs.tag = .reset → fsEngineStep P s = .next (resetStep P s)) ∧
    (s.fs.tag.Consuming → s.fs.execLeft = 0 → fsEngineStep P s = .next (completed s.regs s))

/-- The DETECT step (45_frame_sync.md R220). -/
def Obligations.DetectStepResult : Prop :=
  ∀ (P : Params) (s : State), CanConsume P s → s.fs.tag = .detect →
    let r := P.feStep s.fs.fe (.det s.fs.cfg.thresh) (sampleAt P s s.fs.execOff.toNat)
    (∀ tau cfo, r.2 = .trigger tau cfo → fsEngineStep P s = .next { s with
      fs := { s.fs.consumed with fe := r.1, tau := tau, cfo := cfo, symCount := 0, inFlight := true, tag := .sync } }) ∧
    ((∀ tau cfo, r.2 ≠ .trigger tau cfo) → fsEngineStep P s = .next { s with fs := { s.fs.consumed with fe := r.1 } })

/-- The SYNC step (45_frame_sync.md R221). That FS.symCount wraps from 2^32 - 1 to 0, and that SYNC_LEN is compared after the wrap, the
spec does not say: it is the model's reading (DEDUCED, unsafe, log 22). -/
def Obligations.SyncStepResult : Prop :=
  ∀ (P : Params) (s : State), CanConsume P s → s.fs.tag = .sync →
    let r := P.feStep s.fs.fe (.sync s.fs.tau s.fs.cfo) (sampleAt P s s.fs.execOff.toNat)
    (∀ y, r.2 = .symbol y → (s.fs.symCount + 1).toNat = P.syncLen → fsEngineStep P s = .next { s with
      fs := { s.fs.consumed with fe := r.1, symCount := 0, acc := [], tag := .rxHeader } }) ∧
    (∀ y, r.2 = .symbol y → (s.fs.symCount + 1).toNat ≠ P.syncLen → fsEngineStep P s = .next { s with
      fs := { s.fs.consumed with fe := r.1, symCount := s.fs.symCount + 1 } }) ∧
    ((∀ y, r.2 ≠ .symbol y) → fsEngineStep P s = .next { s with fs := { s.fs.consumed with fe := r.1 } })

/-- The RXHEADER step, with the header decode and the choice of the payload configuration (45_frame_sync.md R222, R223, and the
feasibility of R226). That FS.symCount + 1 wraps from 2^32 - 1 to 0 the spec does not say: it is the model's reading (DEDUCED, unsafe,
log 22). -/
def Obligations.HeaderStepResult : Prop :=
  ∀ (P : Params) (s : State), CanConsume P s → s.fs.tag = .rxHeader →
    let g := s.fs.cfg
    let r := P.feStep s.fs.fe (.hdr g.hdrMod) (sampleAt P s s.fs.execOff.toNat)
    (∀ y, r.2 = .symbol y →
      let acc := s.fs.acc ++ P.demod g.hdrMod y
      let h := pktDec P ⟨g.hdrLen, g.hdrEd, g.hdrInner, g.hdrOuter⟩ (pack (slice (acc.take (8 * g.hdrEncLen))))
      let decoded := { s.fs.consumed with fe := r.1, hdr := h.1, hdrValid := h.2, acc := [], symCount := 0 }
      let toReset : State := { s with fs := { decoded with tag := .reset } }
      let toPayload := fun (L : Nat) (m ed i o : Byte) => ({ s with
        fs := { decoded with cur := ⟨L, m, ed, i, o, encLen P L ed i o⟩, paySyms := 0, tag := .rxPayload } } : State)
      let toLatched := toPayload g.payLen.toNat g.payMod g.payEd g.payInner g.payOuter
      (acc.length < 8 * g.hdrEncLen → fsEngineStep P s = .next { s with
        fs := { s.fs.consumed with fe := r.1, acc := acc, symCount := s.fs.symCount + 1 } }) ∧
      (8 * g.hdrEncLen ≤ acc.length →
        (h.2 = true → g.profile = .fixed → fsEngineStep P s = .next toLatched) ∧
        (h.2 = true → g.profile = .flex → P.descParse ((h.1.take g.hdrLen).drop 8) = none →
          fsEngineStep P s = .next toReset) ∧
        (h.2 = true → g.profile = .flex → ∀ d : Decl, P.descParse ((h.1.take g.hdrLen).drop 8) = some d →
          let feasible := LengthOk P d.len ∧ knownEd d.ed = true ∧ knownFec P d.inner = true ∧ knownFec P d.outer = true
            ∧ knownMod P d.mod = true
          (feasible → fsEngineStep P s = .next (toPayload d.len d.mod d.ed d.inner d.outer)) ∧
          (¬feasible → fsEngineStep P s = .next toReset)) ∧
        (h.2 = false → g.hdrFail = .abort → fsEngineStep P s = .next toReset) ∧
        (h.2 = false → g.hdrFail = .continue → fsEngineStep P s = .next toLatched))) ∧
    ((∀ y, r.2 ≠ .symbol y) → fsEngineStep P s = .next { s with fs := { s.fs.consumed with fe := r.1 } })

/-- The RXPAYLOAD step and CALLBACK entry, with the bytes of the event area it stores and those it leaves
(45_frame_sync.md R227, R230). That FS.paySyms + 1, and with it FS_STAT_NSYM (10_state.md R74: the count), wraps from 2^32 - 1 to 0 the
spec does not say: it is the model's reading (DEDUCED, unsafe, log 22). -/
def Obligations.PayloadStepResult : Prop :=
  ∀ (P : Params) (s : State), CanConsume P s → s.fs.tag = .rxPayload →
    let out := s.fs.cfg.outAddr.toNat
    let c := s.fs.cur
    let r := P.feStep s.fs.fe (.pay c.mod) (sampleAt P s s.fs.execOff.toNat)
    (∀ y, r.2 = .symbol y →
      let acc := s.fs.acc ++ P.demod c.mod y
      let d := pktDecSoft P ⟨c.len, c.ed, c.inner, c.outer⟩ (acc.take (8 * c.enc))
      let st := P.feStats r.1
      let stored := (s.memWrite P out (s.fs.hdr.take 8)).memWrite P (out + 8) d.1
      (acc.length < 8 * c.enc → fsEngineStep P s = .next { s with
        fs := { s.fs.consumed with fe := r.1, acc := acc, paySyms := s.fs.paySyms + 1 } }) ∧
      (8 * c.enc ≤ acc.length → out + 8 + c.len ≤ P.bufSize →
        fsEngineStep P s = .next { stored with
          regs := { s.regs with
            evtHdrValid := s.fs.hdrValid, evtPayValid := d.2, fsEvtLen := BitVec.ofNat 32 c.len
            statEvm := st.evm, statRssi := st.rssi, statCfo := st.cfo, statNsym := s.fs.paySyms + 1
            statMod := 0#16 ++ BitVec.ofNat 8 (bitsPerSymbol P c.mod) ++ c.mod
            statScheme := 0#8 ++ c.outer ++ c.inner ++ c.ed
            intStatus := s.regs.intStatus ||| 0b0100#4 }
          fs := { s.fs.consumed with
            fe := r.1, acc := acc, paySyms := s.fs.paySyms + 1, evtPending := true, tag := .callback } } ∧
        (P.Lawful → FsOk P s → BufOk P s → d.1.length = c.len ∧ ∀ a : Nat,
          stored.byte P a =
            if out ≤ a ∧ a < out + 8 then s.fs.hdr.getD (a - out) 0
            else if out + 8 ≤ a ∧ a < out + 8 + c.len then d.1.getD (a - (out + 8)) 0
            else s.byte P a))) ∧
    ((∀ y, r.2 ≠ .symbol y) → fsEngineStep P s = .next { s with fs := { s.fs.consumed with fe := r.1 } })

/-- A host write to FS_ACK ends the event hold, whatever value is written, and is ignored when no event is held; until then the engine
takes no step (45_frame_sync.md R231, 10_state.md R68). -/
def Obligations.AcknowledgeEndsTheHold : Prop :=
  ∀ (s : State) (v : Word),
    (s.fs.evtPending = true → step { s with agenda := wr 0x220 v :: s.agenda } = .next { s with
      fs := { s.fs with evtPending := false, tag := .reset } }) ∧
    (s.fs.evtPending = false → step { s with agenda := wr 0x220 v :: s.agenda } = .next s) ∧
    (∀ P : Params, P.Lawful → Inv P s → s.fs.evtPending = true → engineStep P s = .next s)

/-- The RESET step: it consumes no sample, clears the attempt and the front end's per-frame part, and keeps its persistent part
(45_frame_sync.md R232, R203). -/
def Obligations.ResetStepResult : Prop :=
  ∀ (P : Params) (s : State), s.fs.tag = .reset →
    fsEngineStep P s = .next { s with
      fs := { s.fs with
        acc := [], symCount := 0, paySyms := 0, hdr := [], hdrValid := false, cur := ⟨0, 0, 0, 0, 0, 0⟩
        fe := P.feClear s.fs.fe, inFlight := false, tag := .detect } } ∧
    (P.Lawful → (P.feClear s.fs.fe).persist = s.fs.fe.persist) ∧
    (P.Lawful → FeReach P.toBlockParams s.fs.cfg s.fs.fe → (P.feClear s.fs.fe).frame = (P.feInit s.fs.cfg).frame)

/-- Chunk independence: n1 + n2 samples in one FS.EXECUTE, or n1 and then n2 in two, end in the same FS state and the same BUF and give
the same events in the same order, the host acknowledging each (45_frame_sync.md R234). -/
def Obligations.ChunkIndependence : Prop :=
  ∀ (P : Params) (s : State) (off n1 n2 : Word),
    P.Lawful → Inv P s → s.eng.busy = false → s.fs.configured = true → n1 ≠ 0 → n2 ≠ 0 →
    off.toNat + 4 * (n1.toNat + n2.toNat) ≤ P.bufSize →
    ∃ (k k1 k2 : Nat) (t t1 t2 : State) (ev ev1 ev2 : List SeenEvent),
      ackRun P k (acceptedExecute off (n1 + n2) s) = some (t, ev) ∧ t.eng.busy = false ∧
      ackRun P k1 (acceptedExecute off n1 s) = some (t1, ev1) ∧ t1.eng.busy = false ∧
      ackRun P k2 (acceptedExecute (off + 4 * n1) n2 t1) = some (t2, ev2) ∧ t2.eng.busy = false ∧
      t2.fs = t.fs ∧ t2.buf = t.buf ∧ ev = ev1 ++ ev2

/-- No false frame on silence: FS.CREATE and RESET leave the front end silent, and from there all-zero samples never trigger and give no
event (45_frame_sync.md R235; the premise of the silence law is FeSilent, log 17). -/
def Obligations.SilenceNeverTriggers : Prop :=
  ∀ P : Params, P.Lawful →
  (∀ s t : State, execWith P .fsCreate s = .next t → s.fs.configured = false → t.fs.configured = true →
    t.fs.tag = .detect ∧ FeSilent P.toBlockParams t.fs.cfg t.fs.fe) ∧
  (∀ s t : State, s.fs.tag = .reset → FeReach P.toBlockParams s.fs.cfg s.fs.fe → fsEngineStep P s = .next t →
    t.fs.tag = .detect ∧ FeSilent P.toBlockParams t.fs.cfg t.fs.fe) ∧
  (∀ (s : State) (k : Nat), fsRunning s = true → s.fs.tag = .detect → s.fs.evtPending = false →
    FeSilent P.toBlockParams s.fs.cfg s.fs.fe → s.fs.execOff.toNat + 4 * s.fs.execLeft.toNat ≤ P.bufSize →
    (∀ a, s.fs.execOff.toNat ≤ a → a < s.fs.execOff.toNat + 4 * s.fs.execLeft.toNat → s.byte P a = 0) →
    k ≤ s.fs.execLeft.toNat →
    ∃ t, ackRun P k s = some (t, []) ∧ t.fs.tag = .detect ∧ t.fs.inFlight = s.fs.inFlight ∧
      t.fs.execLeft.toNat = s.fs.execLeft.toNat - k ∧ t.regs = s.regs ∧ t.buf = s.buf ∧
      FeSilent P.toBlockParams t.fs.cfg t.fs.fe)

/-- A running FS.EXECUTE completes, without error and with every sample consumed, in at most three steps a sample and three more,
if the host acknowledges every event at once; and one that passes its checks runs (45_frame_sync.md R236). -/
def Obligations.ExecuteCompletes : Prop :=
  ∀ (P : Params) (s : State), P.Lawful → Inv P s →
    (fsRunning s = true → ∃ (k : Nat) (t : State) (ev : List SeenEvent),
      k ≤ 3 * s.fs.execLeft.toNat + 3 ∧ ackRun P k s = some (t, ev) ∧ ev.length ≤ s.fs.execLeft.toNat + 1 ∧
      t.eng.busy = false ∧ t.regs.done = true ∧ t.regs.err = false ∧ t.fs.execLeft = 0 ∧
      (t.fs.tag ≠ .callback ∧ t.fs.tag ≠ .reset)) ∧
    (s.eng.busy = true → s.eng.started = false → decode s.eng.word = .ok .fsExecute → s.fs.configured = true →
      s.eng.arg.a0 ≠ 0 → InBuf P s.eng.arg.a2 (4 * s.eng.arg.a0.toNat) →
      ∃ t, engineStep P s = .next t ∧ fsRunning t = true ∧ Inv P t ∧ t.fs.execLeft = s.eng.arg.a0)

/-! ## The invariant -/

/-- The reset state meets the invariant. -/
def Obligations.InvHoldsAtReset : Prop := Inv Config.params State.reset

/-- Every step keeps the invariant: the contexts' and the event registers' fields (10_state.md R45, R75, R76), STATUS (R40), the latched
configuration and the frame attempt (45_frame_sync.md R208, R211, R226), and BUF's canonical form. -/
def Obligations.StepKeepsInv : Prop :=
  ∀ s t : State, Inv Config.params s → step s = .next t → Inv Config.params t

/-- Under the invariant no step faults, and the block's own step always answers a next state (log 21). -/
def Obligations.NoStepFaults : Prop :=
  ∀ s : State, Inv Config.params s → (∀ r, step s ≠ .fault r) ∧ ∃ t, engineStep Config.params s = .next t

/-! ## The host's side -/

/-- What the host writes to BUF it reads back, little-endian, at any alignment, and no other byte changes (20_memory.md R86). -/
def Obligations.BufWriteReadsBack : Prop :=
  ∀ (s : State) (off : Nat) (w : Width) (v : Word),
    let P := Config.params
    Memory.wf (s.bufDefault P) s.buf = true → s.eng.busy = false → off + w.bytes ≤ P.bufSize →
    ∃ t u : State,
      step { s with agenda := .write (.buf off) w v :: s.agenda } = .next t ∧
      step { t with agenda := .read (.buf off) w :: t.agenda } = .next u ∧
      u.seen = BitVec.ofNat 32 (v.toNat % 2 ^ (8 * w.bytes)) :: s.seen ∧
      (∀ k, k < w.bytes → t.byte P (off + k) = v.extractLsb' (8 * k) 8) ∧
      (∀ a, a < off ∨ off + w.bytes ≤ a → t.byte P a = s.byte P a) ∧
      t.regs = s.regs ∧ t.ctxs = s.ctxs ∧ t.eng = s.eng ∧ t.fs = s.fs ∧ t.agenda = s.agenda

/-- The footprint race: a host write that meets the running command's footprint outside an event hold is refused, every other write that
fits is done, and a read returns the stored bytes but where the command writes, where it returns for each byte the old or another
value (20_memory.md R93, R98). -/
def Obligations.FootprintRace : Prop :=
  ∀ (s : State) (off : Nat) (w : Width) (v : Word),
    let P := Config.params
    let meets := fun (rs : List Range) => ∃ k, k < w.bytes ∧ ∃ r ∈ rs, r.off ≤ off + k ∧ off + k < r.off + r.len
    off + w.bytes ≤ P.bufSize →
    (s.fs.evtPending = false → meets (runningReads P s ++ runningWrites P s) →
      step { s with agenda := .write (.buf off) w v :: s.agenda } = .refused (.footprintRace off w)) ∧
    ((s.fs.evtPending = true ∨ ¬meets (runningReads P s ++ runningWrites P s)) →
      step { s with agenda := .write (.buf off) w v :: s.agenda } = .next (s.memWrite P off (leBytes w.bytes v.toNat))) ∧
    (∃ (bs : List Byte) (drawn : Nat),
      step { s with agenda := .read (.buf off) w :: s.agenda } = .next { s with seen := leWord bs :: s.seen, free := drawn } ∧
      bs.length = w.bytes ∧
      ∀ k, k < w.bytes →
        (s.fs.evtPending = true ∨ ∀ r ∈ runningWrites P s, ¬(r.off ≤ off + k ∧ off + k < r.off + r.len)) →
        bs.getD k 0 = s.byte P (off + k)) ∧
    (fsRunning s = true →
      runningReads P s = [⟨s.fs.execOff.toNat, 4 * s.fs.execLeft.toNat⟩] ∧
      runningWrites P s = [⟨s.fs.cfg.outAddr.toNat, 8 + maxPayload P s.fs.cfg.profile s.fs.cfg.payLen⟩]) ∧
    (s.eng.busy = false → runningReads P s = [] ∧ runningWrites P s = [])

/-- A register access of another width, or at an offset that is no multiple of 4, is refused (20_memory.md R85). That one past the
4 KiB block is refused too is the model's choice (DESIGN CHOICE, log 15). -/
def Obligations.RegisterAccessForm : Prop :=
  ∀ (s : State) (off : Nat) (w : Width) (v : Word), (w ≠ .b4 ∨ off % 4 ≠ 0 ∨ 4096 ≤ off) →
    step { s with agenda := .read (.reg off) w :: s.agenda } = .refused (.regAccess off w) ∧
    step { s with agenda := .write (.reg off) w v :: s.agenda } = .refused (.regAccess off w)

/-- What a host read of each register delivers, with the positions of the fields (10_state.md R32 to R44, R60 to R76), and what the host
finds after power-on reset (70_reset_and_hazards.md R290). The read at host address REG_BASE + off is the read at off: for an address in
one window only 10_state.md R32 and 20_memory.md R90 say so, and for one that lies in BUF's window too it is the model's choice, which
the spec leaves open (DESIGN CHOICE, unsafe, log 16). -/
def Obligations.HostReadings : Prop :=
  let P := Config.params
  (∀ (s : State) (off : Nat), off % 4 = 0 → off < 4096 →
    step { s with agenda := rd off :: s.agenda } = .next { s with seen := readOffset P s off :: s.seen } ∧
    step { s with agenda := .read (.addr (P.regBase + off)) .b4 :: s.agenda } = step { s with agenda := rd off :: s.agenda }) ∧
  (∀ s : State,
    let x := readOffset P s
    x 0x000 = 0x53464B50#32 ∧ x 0x004 = 7#32 ∧
    ((x 0x008).extractLsb' 0 8).toNat = P.numCtx ∧ 2 ^ ((x 0x008).extractLsb' 8 8).toNat = P.bufSize ∧
    (x 0x008).extractLsb' 16 16 = 0#16 ∧ (x 0x00C).toNat = P.maxDecLen ∧ x 0x010 = 0 ∧
    x 0x014 = s.regs.arg.a0 ∧ x 0x018 = s.regs.arg.a1 ∧ x 0x01C = s.regs.arg.a2 ∧ x 0x020 = s.regs.arg.a3 ∧
    x 0x024 = s.regs.result0 ∧ x 0x028 = s.regs.result1 ∧
    ((x 0x02C).getLsbD 0 = s.eng.busy ∧ (x 0x02C).getLsbD 1 = s.regs.done ∧ (x 0x02C).getLsbD 2 = s.regs.err ∧
      (x 0x02C).getLsbD 3 = s.regs.valid ∧ (x 0x02C).extractLsb' 4 4 = 0#4 ∧ (x 0x02C).extractLsb' 8 8 = s.regs.errCode ∧
      (x 0x02C).extractLsb' 16 8 = s.regs.lastOpc ∧ (x 0x02C).extractLsb' 24 8 = 0#8) ∧
    x 0x030 = s.regs.errInfo ∧ x 0x034 = s.regs.intStatus.setWidth 32 ∧ x 0x038 = s.regs.intEnable.setWidth 32 ∧
    (∀ c, c < P.numCtx →
      (x (0x040 + 16 * c)).getLsbD 0 = (s.ctx c).configured ∧ (x (0x040 + 16 * c)).extractLsb' 1 31 = 0#31 ∧
      x (0x044 + 16 * c) = (s.ctx c).len ∧
      (x (0x048 + 16 * c)).extractLsb' 0 8 = (s.ctx c).ed ∧ (x (0x048 + 16 * c)).extractLsb' 8 8 = (s.ctx c).inner ∧
      (x (0x048 + 16 * c)).extractLsb' 16 8 = (s.ctx c).outer ∧ (x (0x048 + 16 * c)).extractLsb' 24 8 = 0#8 ∧
      x (0x04C + 16 * c) = (s.ctx c).enc) ∧
    x 0x200 = s.regs.fsCtrl.setWidth 32 ∧ x 0x204 = s.regs.fsHdrCfg ∧ x 0x208 = s.regs.fsPayCfg ∧ x 0x20C = s.regs.fsPayLen ∧
    x 0x210 = s.regs.fsDetThresh ∧ x 0x214 = s.regs.fsOutAddr ∧
    ((x 0x218).extractLsb' 0 3 =
        (match s.fs.tag with
          | .detect => 0#3 | .sync => 1#3 | .rxHeader => 2#3 | .rxPayload => 3#3 | .callback => 4#3 | .reset => 5#3) ∧
      (x 0x218).getLsbD 3 = s.fs.configured ∧ (x 0x218).getLsbD 4 = s.fs.evtPending ∧
      (x 0x218).getLsbD 5 = s.fs.inFlight ∧ (x 0x218).extractLsb' 6 26 = 0#26) ∧
    x 0x21C = s.fs.execLeft ∧ x 0x220 = 0 ∧
    ((x 0x224).getLsbD 0 = s.regs.evtHdrValid ∧ (x 0x224).getLsbD 1 = s.regs.evtPayValid ∧
      (x 0x224).extractLsb' 2 30 = 0#30) ∧
    x 0x228 = s.regs.fsEvtLen ∧ x 0x22C = s.regs.statEvm ∧ x 0x230 = s.regs.statRssi ∧ x 0x234 = s.regs.statCfo ∧
    x 0x238 = s.regs.statNsym ∧ x 0x23C = s.regs.statMod ∧ x 0x240 = s.regs.statScheme) ∧
  (∀ off : Nat, readOffset P State.reset off =
    if off = 0x000 then 0x53464B50#32 else if off = 0x004 then 7#32
    else if off = 0x008 then BitVec.ofNat 32 (P.bufBits * 256 + P.numCtx)
    else if off = 0x00C then BitVec.ofNat 32 P.maxDecLen else 0#32) ∧
  (∀ c, (State.reset.ctx c).configured = false) ∧ State.reset.eng.busy = false ∧
  State.reset.fs.configured = false ∧ State.reset.fs.tag = .detect ∧ State.reset.fs.evtPending = false ∧
  State.reset.fs.inFlight = false ∧ (∀ a, State.reset.byte P a = Config.bufInit 0 a) ∧ irq State.reset = false

/-- Unassigned offsets read 0 and ignore writes, read-only registers ignore writes, write-only registers read 0, and the reserved fields
read 0 and stay 0 (10_state.md R33 and the access codes of R32). -/
def Obligations.UnassignedAndReserved : Prop :=
  let P := Config.params
  (∀ (s : State) (off : Nat) (v : Word), off % 4 = 0 → off < 4096 →
    (off = 0x03C ∨ (0x040 + 16 * P.numCtx ≤ off ∧ off < 0x200) ∨ 0x244 ≤ off) →
    step { s with agenda := rd off :: s.agenda } = .next { s with seen := 0 :: s.seen } ∧
    step { s with agenda := wr off v :: s.agenda } = .next s) ∧
  (∀ (s : State) (r : Reg) (v : Word), r.access = .ro → writeReg v s r = s) ∧
  (∀ (s : State) (r : Reg), r.access = .wo → readReg P s r = 0) ∧
  (∀ s : State, Inv P s →
    (readReg P s .version).extractLsb' 8 24 = 0#24 ∧ (readReg P s .caps).extractLsb' 16 16 = 0#16 ∧
    (readReg P s .status).extractLsb' 4 4 = 0#4 ∧ (readReg P s .status).extractLsb' 24 8 = 0#8 ∧
    (readReg P s .intStatus).extractLsb' 4 28 = 0#28 ∧ (readReg P s .intEnable).extractLsb' 4 28 = 0#28 ∧
    (∀ c, (readReg P s (.ctxState c)).extractLsb' 1 31 = 0#31 ∧ (readReg P s (.ctxScheme c)).extractLsb' 24 8 = 0#8) ∧
    (readReg P s .fsCtrl).extractLsb' 2 30 = 0#30 ∧ (readReg P s .fsStatus).extractLsb' 6 26 = 0#26 ∧
    (readReg P s .fsEvt).extractLsb' 2 30 = 0#30 ∧ (readReg P s .fsStatMod).extractLsb' 16 16 = 0#16 ∧
    (readReg P s .fsStatScheme).extractLsb' 24 8 = 0#8) ∧
  (∀ (s : State) (v : Word),
    readReg P (writeReg v s .fsCtrl) .fsCtrl = 0#30 ++ v.extractLsb' 0 2 ∧
    readReg P (writeReg v s .intEnable) .intEnable = 0#28 ++ v.extractLsb' 0 4)

/-- Power-on reset at any step: every piece of the block's state takes its reset value, the running command is abandoned with no interrupt,
and BUF's contents are free values again (70_reset_and_hazards.md R291, 10_state.md R79). FS.fe, FS.tau and FS.cfo, which R79 leaves
undefined, take the values the model names for reset (DESIGN CHOICE, unsafe, log 9 and log 10). -/
def Obligations.PowerOnResetAtAnyStep : Prop :=
  ∀ s : State, ∃ t : State, step { s with agenda := .por :: s.agenda } = .next t ∧
    t.regs = State.reset.regs ∧ t.ctxs = State.reset.ctxs ∧ t.eng = State.reset.eng ∧ t.fs = State.reset.fs ∧
    t.buf = [] ∧ (∀ a, t.byte Config.params a = Config.bufInit (s.epoch + 1) a) ∧ irq t = false

/-- Register writes follow each register's own rule, whether the engine is idle (10_state.md R38, R43, R60 to R65, R68) or a command runs
(60_exceptions.md R268): each stores to its own register and changes nothing else. The write at host address REG_BASE + off is the write
at off: for an address in one window only 10_state.md R32 and 20_memory.md R90 say so, and for one that lies in BUF's window too it is the model's
choice, which the spec leaves open (DESIGN CHOICE, unsafe, log 16). -/
def Obligations.RegisterWrites : Prop :=
  ∀ (s : State) (v : Word),
    let after := fun (off : Nat) => step { s with agenda := wr off v :: s.agenda }
    (∀ off, off < 4096 →
      step { s with agenda := .write (.addr (Config.params.regBase + off)) .b4 v :: s.agenda } = after off) ∧
    after 0x014 = .next { s with regs := { s.regs with arg := { s.regs.arg with a0 := v } } } ∧
    after 0x018 = .next { s with regs := { s.regs with arg := { s.regs.arg with a1 := v } } } ∧
    after 0x01C = .next { s with regs := { s.regs with arg := { s.regs.arg with a2 := v } } } ∧
    after 0x020 = .next { s with regs := { s.regs with arg := { s.regs.arg with a3 := v } } } ∧
    after 0x034 = .next { s with regs := { s.regs with intStatus := s.regs.intStatus &&& ~~~(v.extractLsb' 0 4) } } ∧
    after 0x038 = .next { s with regs := { s.regs with intEnable := v.extractLsb' 0 4 } } ∧
    after 0x200 = .next { s with regs := { s.regs with fsCtrl := v.extractLsb' 0 2 } } ∧
    after 0x204 = .next { s with regs := { s.regs with fsHdrCfg := v } } ∧
    after 0x208 = .next { s with regs := { s.regs with fsPayCfg := v } } ∧
    after 0x20C = .next { s with regs := { s.regs with fsPayLen := v } } ∧
    after 0x210 = .next { s with regs := { s.regs with fsDetThresh := v } } ∧
    after 0x214 = .next { s with regs := { s.regs with fsOutAddr := v } } ∧
    (s.fs.evtPending = true → after 0x220 = .next { s with fs := { s.fs with evtPending := false, tag := .reset } }) ∧
    (s.fs.evtPending = false → after 0x220 = .next s) ∧
    (∀ off r, off % 4 = 0 → off < 4096 → regAt Config.params off = some r → r.access = .ro → after off = .next s)

/-- A command reads the copies of ARG0 to ARG3 taken at its acceptance: whatever the registers hold when it runs, its outcome is the same
but for those registers, which it never writes (10_state.md R38). -/
def Obligations.CommandsReadOnlyTheCopies : Prop :=
  ∀ (i : Instr) (s t : State) (a : Args), exec i s = .next t →
    t.regs.arg = s.regs.arg ∧
    exec i { s with regs := { s.regs with arg := a } } = .next { t with regs := { t.regs with arg := a } }

/-- The interrupt output and the W1C write of INT_STATUS; clearing FRAME does not end the event hold (60_exceptions.md R270, R272). That a
set wins over a clear is said of `intNext`, the operation by which every step updates INT_STATUS: no step of the model has both
(DEDUCED, log 32). -/
def Obligations.InterruptOutputAndReturn : Prop :=
  ∀ s : State,
    (irq s = true ↔ ∃ i, i < 4 ∧ s.regs.intStatus.getLsbD i = true ∧ s.regs.intEnable.getLsbD i = true) ∧
    ∀ v : Word, ∃ t, step { s with agenda := wr 0x034 v :: s.agenda } = .next t ∧
      (∀ i, i < 4 → t.regs.intStatus.getLsbD i = (s.regs.intStatus.getLsbD i && !v.getLsbD i)) ∧
      t.regs.intEnable = s.regs.intEnable ∧ t.fs = s.fs ∧ t.eng = s.eng ∧
      (∀ i old clear set, i < 4 → set.getLsbD i = true → (intNext old clear set).getLsbD i = true)

/-- Side effects of accesses: a host read leaves every piece of the block's state as it was (what it delivers is in HostReadings,
BufWriteReadsBack and FootprintRace); a register write other than to CMD, FS_ACK and INT_STATUS changes no register but its own and
nothing outside the registers; a BUF write changes BUF alone (20_memory.md R89). -/
def Obligations.AccessSideEffects : Prop :=
  (∀ (s t : State) (tgt : Target) (w : Width), step { s with agenda := .read tgt w :: s.agenda } = .next t →
    ∃ (v : Word) (drawn : Nat), t = { s with seen := v :: s.seen, free := drawn }) ∧
  (∀ (s : State) (v : Word) (r : Reg), r ≠ .cmd → r ≠ .fsAck → r ≠ .intStatus →
    writeReg v s r = { s with regs := (writeReg v s r).regs } ∧
    ∀ x, x ≠ r → readReg Config.params (writeReg v s r) x = readReg Config.params s x) ∧
  (∀ (s t : State) (off : Nat) (w : Width) (v : Word), step { s with agenda := .write (.buf off) w v :: s.agenda } = .next t →
    t = { s with buf := t.buf })

/-! ## Promises about the whole machine -/

/-- Only PKT.CREATE, PKT.RECONFIG, PKT.DESTROY and power-on reset change a context, and each command changes its own alone
(10_state.md R45). -/
def Obligations.OnlyThreeCommandsChangeContexts : Prop :=
  ∀ s t : State, step s = .next t → t.ctxs ≠ s.ctxs →
    s.agenda.head? = some .por ∨
    ∃ c, (decode s.eng.word = .ok (.pktCreate c) ∨ decode s.eng.word = .ok (.pktReconfig c)
        ∨ decode s.eng.word = .ok (.pktDestroy c)) ∧
      s.eng.busy = true ∧ s.eng.started = false ∧ t.regs.done = true ∧ ∀ x, x ≠ c → t.ctx x = s.ctx x

/-- FS_EVT, FS_EVT_LEN and the FS_STAT registers change only at CALLBACK entry and power-on reset (10_state.md R76). -/
def Obligations.EventRegistersChangeOnlyAtCallback : Prop :=
  ∀ s t : State, step s = .next t →
    (t.regs.evtHdrValid, t.regs.evtPayValid, t.regs.fsEvtLen, t.regs.statEvm, t.regs.statRssi, t.regs.statCfo, t.regs.statNsym,
      t.regs.statMod, t.regs.statScheme) ≠
    (s.regs.evtHdrValid, s.regs.evtPayValid, s.regs.fsEvtLen, s.regs.statEvm, s.regs.statRssi, s.regs.statCfo, s.regs.statNsym,
      s.regs.statMod, s.regs.statScheme) →
    s.agenda.head? = some .por ∨
    (fsRunning s = true ∧ s.fs.tag = .rxPayload ∧ t.fs.tag = .callback ∧ t.fs.evtPending = true ∧
      t.regs.intStatus.getLsbD 2 = true)

/-- An INT_STATUS bit is cleared only by a host write of 1 to it, or by power-on reset (10_state.md R42). -/
def Obligations.InterruptBitsClearedOnlyByHost : Prop :=
  ∀ (s t : State) (i : Nat), step s = .next t → s.regs.intStatus.getLsbD i = true → t.regs.intStatus.getLsbD i = false →
    s.agenda.head? = some .por ∨
    ∃ (tgt : Target) (v : Word), s.agenda.head? = some (.write tgt .b4 v) ∧ v.getLsbD i = true ∧
      (tgt = .reg 0x034 ∨ tgt = .addr (Config.params.regBase + 0x034))

/-- RESULT0, RESULT1 and STATUS.VALID change only in the execution step of a command that completes, VALID and RESULT1 only in that of a
decode, or at power-on reset (10_state.md R39, R40, 60_exceptions.md R269). -/
def Obligations.ResultsChangeOnlyAtCompletion : Prop :=
  ∀ s t : State, step s = .next t →
    (t.regs.result0, t.regs.result1, t.regs.valid) ≠ (s.regs.result0, s.regs.result1, s.regs.valid) →
    s.agenda.head? = some .por ∨
    ∃ i, decode s.eng.word = .ok i ∧ s.eng.busy = true ∧ s.eng.started = false ∧ t.eng.busy = false ∧ t.regs.done = true ∧
      ((t.regs.result1, t.regs.valid) ≠ (s.regs.result1, s.regs.valid) → ∃ c, i = .pktDecode c ∨ i = .pktDecodeSoft c)

/-- The registers that belong to the host, ARG0 to ARG3, INT_ENABLE and the FS configuration registers, change only at a host write to
the register block and at power-on reset; and the latched FS.cfg changes only in the completing execution step of FS.CREATE or
FS.DESTROY and at power-on reset, never at a host write (10_state.md R38, R78, R79, 70_reset_and_hazards.md R307). -/
def Obligations.BlockLeavesHostRegisters : Prop :=
  ∀ s t : State, step s = .next t →
    let owned := fun (r : Regs) =>
      (r.arg, r.intEnable, r.fsCtrl, r.fsHdrCfg, r.fsPayCfg, r.fsPayLen, r.fsDetThresh, r.fsOutAddr)
    (owned t.regs ≠ owned s.regs →
      s.agenda.head? = some .por ∨
      ∃ (tgt : Target) (off : Nat) (v : Word), s.agenda.head? = some (.write tgt .b4 v) ∧ off < 4096 ∧
        (tgt = .reg off ∨ tgt = .addr (Config.params.regBase + off))) ∧
    (t.fs.cfg ≠ s.fs.cfg →
      s.agenda.head? = some .por ∨
      ((decode s.eng.word = .ok .fsCreate ∨ decode s.eng.word = .ok .fsDestroy) ∧
        s.eng.busy = true ∧ s.eng.started = false ∧ t.eng.busy = false ∧ t.regs.done = true ∧
        ∀ tgt w v, s.agenda.head? ≠ some (.write tgt w v)))
end

