-- ==== Sys2Proof/Laws/Bits.lean ====
section
/-! SUPPORT. Lemmas of the bit and byte orders. -/

namespace Sys2Proof.Machine

@[simp] theorem byteBits_length (b : Byte) : (byteBits b).length = 8 := rfl

theorem bits_cons (b : Byte) (a : List Byte) : bits (b :: a) = byteBits b ++ bits a := rfl

@[simp] theorem bits_length (a : List Byte) : (bits a).length = 8 * a.length := by
  induction a with
  | nil => rfl
  | cons b t ih => rw [bits_cons, List.length_append, byteBits_length, ih, List.length_cons]; omega

theorem packByte_byteBits (b : Byte) :
    packByte (b.getLsbD 7) (b.getLsbD 6) (b.getLsbD 5) (b.getLsbD 4) (b.getLsbD 3) (b.getLsbD 2) (b.getLsbD 1)
      (b.getLsbD 0) = b := by
  revert b; decide

theorem byteBits_packByte (b7 b6 b5 b4 b3 b2 b1 b0 : Bool) :
    byteBits (packByte b7 b6 b5 b4 b3 b2 b1 b0) = [b7, b6, b5, b4, b3, b2, b1, b0] := by
  revert b7 b6 b5 b4 b3 b2 b1 b0; decide

/-- `pack` inverts `bits`. -/
@[simp] theorem pack_bits (a : List Byte) : pack (bits a) = a := by
  induction a with
  | nil => rfl
  | cons b t ih =>
    rw [bits_cons]
    show packByte _ _ _ _ _ _ _ _ :: pack (bits t) = _
    rw [packByte_byteBits, ih]

/-- `bits` inverts `pack` on whole bytes, and `pack` makes one byte of eight bits. -/
theorem bits_pack_and_length (n : Nat) : ∀ l : List Bool, l.length = 8 * n → bits (pack l) = l ∧ (pack l).length = n := by
  induction n with
  | zero => intro l h; have : l = [] := by simpa using h
            subst this; exact ⟨rfl, rfl⟩
  | succ n ih =>
    intro l h
    match l, h with
    | b7 :: b6 :: b5 :: b4 :: b3 :: b2 :: b1 :: b0 :: rest, h =>
      have hr : rest.length = 8 * n := by simp only [List.length_cons] at h; omega
      obtain ⟨h1, h2⟩ := ih rest hr
      refine ⟨?_, by rw [pack, List.length_cons, h2]⟩
      rw [pack, bits_cons, byteBits_packByte, h1]; rfl
    | [], h => simp at h
    | [_], h | [_, _], h | [_, _, _], h | [_, _, _, _], h | [_, _, _, _, _], h | [_, _, _, _, _, _], h
    | [_, _, _, _, _, _, _], h => simp only [List.length_cons, List.length_nil] at h; omega

theorem bits_pack {n : Nat} {l : List Bool} (h : l.length = 8 * n) : bits (pack l) = l := (bits_pack_and_length n l h).1

theorem pack_length {n : Nat} {l : List Bool} (h : l.length = 8 * n) : (pack l).length = n := (bits_pack_and_length n l h).2

@[simp] theorem soft_length (a : List Byte) : (soft a).length = 8 * a.length := by simp [soft]

@[simp] theorem slice_length (s : List Byte) : (slice s).length = s.length := by simp [slice]

/-- Hard decisions of hard soft bits are the bits (41_packetizer_coding.md R163). -/
@[simp] theorem slice_soft (a : List Byte) : slice (soft a) = bits a := by
  have h : sliceByte ∘ (fun b : Bool => if b then 255#8 else 0#8) = id := by
    funext b; cases b <;> decide
  rw [slice, soft, List.map_map, h, List.map_id]

@[simp] theorem flipBits_length (ps : List Nat) (b : List Byte) : (flipBits ps b).length = b.length :=
  pack_length (by simp)

/-- The bits of a flipped byte sequence. -/
theorem bits_flipBits (ps : List Nat) (b : List Byte) :
    bits (flipBits ps b) = (bits b).mapIdx fun k x => xor x (decide (k ∈ ps)) :=
  bits_pack (n := b.length) (by simp)

@[simp] theorem leBytes_length (n v : Nat) : (leBytes n v).length = n := by
  induction n generalizing v with
  | zero => rfl
  | succ n ih => simp [leBytes, ih]

@[simp] theorem beBytes_length (n v : Nat) : (beBytes n v).length = n := by simp [beBytes]

end Sys2Proof.Machine
end

