-- ==== Sys2Proof/Laws/Memory.lean ====
section
/-! SUPPORT. What reading and writing BUF can do; the canonical form is kept, and equal memories are equal data. -/

namespace Sys2Proof.Machine

variable {d : Nat → Byte}

/-- Below the bound of the canonical form every address reads as unlisted. -/
theorem Memory.read_of_lt {m : Memory} {lo a : Nat} (h : Memory.wfFrom d lo m = true) (ha : a < lo) :
    Memory.read d m a = d a := by
  induction m generalizing lo with
  | nil => rfl
  | cons e t ih =>
    obtain ⟨k, v⟩ := e
    simp only [Memory.wfFrom, Bool.and_eq_true, decide_eq_true_eq] at h
    rw [Memory.read, if_neg (by omega), ih h.2 (by omega)]

theorem Memory.wfFrom_mono {m : Memory} {lo lo' : Nat} (h : Memory.wfFrom d lo m = true) (hl : lo' ≤ lo) :
    Memory.wfFrom d lo' m = true := by
  cases m with
  | nil => rfl
  | cons e t =>
    simp only [Memory.wfFrom, Bool.and_eq_true, decide_eq_true_eq] at h ⊢
    exact ⟨⟨by omega, h.1.2⟩, h.2⟩

theorem Memory.wfFrom_write {m : Memory} {lo a : Nat} {b : Byte} (h : Memory.wfFrom d lo m = true) (ha : lo ≤ a) :
    Memory.wfFrom d lo (Memory.write d m a b) = true := by
  induction m generalizing lo with
  | nil => by_cases hb : b = d a <;> simp [Memory.write, Memory.wfFrom, hb, ha]
  | cons e t ih =>
    obtain ⟨k, v⟩ := e
    simp only [Memory.wfFrom, Bool.and_eq_true, decide_eq_true_eq] at h
    rw [Memory.write]
    split
    · split
      · simp [Memory.wfFrom, h]
      · simp [Memory.wfFrom, *]
    · split
      · split
        · exact Memory.wfFrom_mono h.2 (by omega)
        · subst a; simp [Memory.wfFrom, *]
      · simp only [Memory.wfFrom, Bool.and_eq_true, decide_eq_true_eq]
        exact ⟨h.1, ih h.2 (by omega)⟩

/-- A write keeps the canonical form. -/
theorem Memory.wf_write {m : Memory} (h : Memory.wf d m = true) (a : Nat) (b : Byte) :
    Memory.wf d (Memory.write d m a b) = true := Memory.wfFrom_write h (Nat.zero_le a)

theorem Memory.wf_writeBytes {bs : List Byte} : ∀ {m : Memory} {off : Nat}, Memory.wf d m = true →
    Memory.wf d (Memory.writeBytes d m off bs) = true := by
  induction bs with
  | nil => exact fun h => h
  | cons b t ih => exact fun h => ih (Memory.wf_write h _ b)

theorem Memory.wf_nil : Memory.wf d [] = true := rfl

/-- A write lists no address that was not listed, but its own. -/
theorem Memory.mem_write {m : Memory} {a : Nat} {b : Byte} {e : Host.Cell} (h : e ∈ Memory.write d m a b) :
    e ∈ m ∨ e.1 = a := by
  induction m with
  | nil =>
    rw [Memory.write] at h
    split at h
    · cases h
    · rw [List.mem_singleton] at h; exact .inr (h ▸ rfl)
  | cons x t ih =>
    obtain ⟨k, v⟩ := x
    rw [Memory.write] at h
    split at h
    · split at h
      · exact .inl h
      · rcases List.mem_cons.1 h with rfl | h
        · exact .inr rfl
        · exact .inl h
    · split at h
      · split at h
        · exact .inl (List.mem_cons_of_mem _ h)
        · rcases List.mem_cons.1 h with rfl | h
          · exact .inr rfl
          · exact .inl (List.mem_cons_of_mem _ h)
      · rcases List.mem_cons.1 h with rfl | h
        · exact .inl (List.mem_cons_self ..)
        · rcases ih h with h | h
          · exact .inl (List.mem_cons_of_mem _ h)
          · exact .inr h

theorem Memory.mem_writeBytes {bs : List Byte} {e : Host.Cell} : ∀ {m : Memory} {off : Nat},
    e ∈ Memory.writeBytes d m off bs → e ∈ m ∨ (off ≤ e.1 ∧ e.1 < off + bs.length) := by
  induction bs with
  | nil => exact fun h => .inl h
  | cons b t ih =>
    intro m off h
    rcases ih h with h | h
    · rcases Memory.mem_write h with h | h
      · exact .inl h
      · exact .inr (by rw [List.length_cons]; omega)
    · exact .inr (by rw [List.length_cons]; omega)

/-- Reading after a write of one byte. -/
theorem Memory.read_write {m : Memory} {lo : Nat} (h : Memory.wfFrom d lo m = true) (a : Nat) (b : Byte) (x : Nat) :
    Memory.read d (Memory.write d m a b) x = if x = a then b else Memory.read d m x := by
  induction m generalizing lo with
  | nil =>
    by_cases hb : b = d a <;> by_cases hx : x = a
    · subst hx; simp [Memory.write, Memory.read, hb]
    · simp [Memory.write, Memory.read, hb, hx]
    · subst hx; simp [Memory.write, Memory.read, hb]
    · simp [Memory.write, Memory.read, hb, hx, Ne.symm hx]
  | cons e t ih =>
    obtain ⟨k, v⟩ := e
    simp only [Memory.wfFrom, Bool.and_eq_true, decide_eq_true_eq] at h
    rw [Memory.write]
    split
    · rename_i hak
      split
      · rename_i hb
        by_cases hx : x = a
        · subst hx
          rw [if_pos rfl, Memory.read, if_neg (by omega), Memory.read_of_lt h.2 (by omega), hb]
        · rw [if_neg hx]
      · by_cases hx : x = a
        · subst hx; rw [if_pos rfl, Memory.read, if_pos rfl]
        · rw [if_neg hx]
          conv_lhs => rw [Memory.read, if_neg (Ne.symm hx)]
    · split
      · rename_i hak
        subst hak
        split
        · rename_i hb
          by_cases hx : x = a
          · subst hx; rw [if_pos rfl, Memory.read_of_lt h.2 (by omega), hb]
          · rw [if_neg hx, Memory.read, if_neg (Ne.symm hx)]
        · by_cases hx : x = a
          · subst hx; rw [if_pos rfl, Memory.read, if_pos rfl]
          · rw [if_neg hx, Memory.read, if_neg (Ne.symm hx), Memory.read, if_neg (Ne.symm hx)]
      · rename_i h1 h2
        by_cases hx : x = a
        · subst hx
          rw [if_pos rfl, Memory.read, if_neg (by omega), ih h.2, if_pos rfl]
        · rw [if_neg hx, Memory.read, Memory.read, ih h.2, if_neg hx]

/-- Reading after a write of a byte sequence: its bytes at its range, every other byte as before. -/
theorem Memory.read_writeBytes {bs : List Byte} : ∀ {m : Memory} {off : Nat}, Memory.wf d m = true → ∀ x : Nat,
    Memory.read d (Memory.writeBytes d m off bs) x
      = if off ≤ x ∧ x < off + bs.length then bs.getD (x - off) 0 else Memory.read d m x := by
  induction bs with
  | nil => intro m off _ x; rw [Memory.writeBytes, if_neg (by simp)]
  | cons b t ih =>
    intro m off h x
    rw [Memory.writeBytes, ih (Memory.wf_write h _ _), List.length_cons]
    by_cases h1 : off + 1 ≤ x ∧ x < off + 1 + t.length
    · rw [if_pos h1, if_pos (by omega), show x - off = (x - (off + 1)) + 1 by omega, List.getD_cons_succ]
    · rw [if_neg h1, Memory.read_write h]
      by_cases h2 : x = off
      · subst h2; rw [if_pos rfl, if_pos (by omega), Nat.sub_self, List.getD_cons_zero]
      · rw [if_neg h2, if_neg (by omega)]

@[simp] theorem Memory.readBytes_length (m : Memory) (off n : Nat) : (Memory.readBytes d m off n).length = n := by
  induction n generalizing off with
  | zero => rfl
  | succ n ih => rw [Memory.readBytes, List.length_cons, ih]

theorem Memory.readBytes_getD (m : Memory) {n k : Nat} (h : k < n) (off : Nat) :
    (Memory.readBytes d m off n).getD k 0 = Memory.read d m (off + k) := by
  induction n generalizing off k with
  | zero => omega
  | succ n ih =>
    rw [Memory.readBytes]
    cases k with
    | zero => rfl
    | succ k => rw [List.getD_cons_succ, ih (by omega)]; congr 1; omega

/-- What is read depends only on the bytes of the range. -/
theorem Memory.readBytes_congr {d' : Nat → Byte} {m m' : Memory} {off n : Nat}
    (h : ∀ k, k < n → Memory.read d m (off + k) = Memory.read d' m' (off + k)) :
    Memory.readBytes d m off n = Memory.readBytes d' m' off n := by
  induction n generalizing off with
  | zero => rfl
  | succ n ih =>
    rw [Memory.readBytes, Memory.readBytes, show Memory.read d m off = Memory.read d' m' off from h 0 (by omega),
      ih fun k hk => ?_]
    have := h (k + 1) (by omega)
    rwa [show off + (k + 1) = off + 1 + k by omega] at this

/-- Reading back what was written. -/
theorem Memory.readBytes_writeBytes {m : Memory} (h : Memory.wf d m = true) (off : Nat) (bs : List Byte) :
    Memory.readBytes d (Memory.writeBytes d m off bs) off bs.length = bs := by
  apply List.ext_getElem
  · simp
  · intro k h1 h2
    have := Memory.readBytes_getD (d := d) (Memory.writeBytes d m off bs) h2 off
    rw [List.getD_eq_getElem _ _ h1, Memory.read_writeBytes h, if_pos (by omega), Nat.add_sub_cancel_left,
      List.getD_eq_getElem _ _ h2] at this
    exact this

/-- Equal memories are equal data: two canonical lists that read the same are the same list. -/
theorem Memory.ext_of_wf {m m' : Memory} {lo : Nat} (h : Memory.wfFrom d lo m = true) (h' : Memory.wfFrom d lo m' = true)
    (hr : ∀ a, Memory.read d m a = Memory.read d m' a) : m = m' := by
  induction m generalizing lo m' with
  | nil =>
    cases m' with
    | nil => rfl
    | cons e t =>
      obtain ⟨k, v⟩ := e
      simp only [Memory.wfFrom, Bool.and_eq_true, decide_eq_true_eq] at h'
      have := hr k
      rw [Memory.read, Memory.read, if_pos rfl] at this
      exact absurd this.symm h'.1.2
  | cons e t ih =>
    obtain ⟨k, v⟩ := e
    simp only [Memory.wfFrom, Bool.and_eq_true, decide_eq_true_eq] at h
    have hk := hr k
    rw [Memory.read, if_pos rfl] at hk
    cases m' with
    | nil => exact absurd hk h.1.2
    | cons e' t' =>
      obtain ⟨k', v'⟩ := e'
      simp only [Memory.wfFrom, Bool.and_eq_true, decide_eq_true_eq] at h'
      have hk' := hr k'
      have hk' : Memory.read d ((k, v) :: t) k' = v' := by rw [hk', Memory.read, if_pos rfl]
      rcases Nat.lt_trichotomy k k' with hlt | heq | hgt
      · rw [Memory.read, if_neg (by omega), Memory.read_of_lt h'.2 (by omega)] at hk
        exact absurd hk h.1.2
      · subst heq
        rw [Memory.read, if_pos rfl] at hk
        subst hk
        rw [ih h.2 h'.2 fun a => ?_]
        by_cases ha : a = k
        · subst ha; rw [Memory.read_of_lt h.2 (by omega), Memory.read_of_lt h'.2 (by omega)]
        · have := hr a
          rwa [Memory.read, Memory.read, if_neg (Ne.symm ha), if_neg (Ne.symm ha)] at this
      · rw [Memory.read, if_neg (by omega), Memory.read_of_lt h.2 (by omega)] at hk'
        exact absurd hk'.symm h'.1.2

end Sys2Proof.Machine
end

