-- ==== Sys2Proof/Laws/State.lean ====
section
/-! SUPPORT. One lemma per field per update of the state, true by unfolding the update, for simp. -/

namespace Sys2Proof.Machine

@[simp] theorem raise_regs (e : CmdError) (s : State) : (raise e s).regs = { s.regs with done := false, err := true, errCode := e.code.toByte, errInfo := e.info, intStatus := intNext s.regs.intStatus 0 intErr } := rfl
@[simp] theorem raise_ctxs (e : CmdError) (s : State) : (raise e s).ctxs = s.ctxs := rfl
@[simp] theorem raise_eng (e : CmdError) (s : State) : (raise e s).eng = { s.eng with busy := false } := rfl
@[simp] theorem raise_fs (e : CmdError) (s : State) : (raise e s).fs = s.fs := rfl
@[simp] theorem raise_buf (e : CmdError) (s : State) : (raise e s).buf = s.buf := rfl
@[simp] theorem raise_agenda (e : CmdError) (s : State) : (raise e s).agenda = s.agenda := rfl
@[simp] theorem raise_seen (e : CmdError) (s : State) : (raise e s).seen = s.seen := rfl
@[simp] theorem raise_epoch (e : CmdError) (s : State) : (raise e s).epoch = s.epoch := rfl
@[simp] theorem raise_free (e : CmdError) (s : State) : (raise e s).free = s.free := rfl
@[simp] theorem raise_bufDefault (e : CmdError) (s : State) (Q : Params) : (raise e s).bufDefault Q = s.bufDefault Q := rfl

@[simp] theorem complete_regs (s : State) : (complete s).regs = { s.regs with done := true, intStatus := intNext s.regs.intStatus 0 intDone } := rfl
@[simp] theorem complete_ctxs (s : State) : (complete s).ctxs = s.ctxs := rfl
@[simp] theorem complete_eng (s : State) : (complete s).eng = { s.eng with busy := false } := rfl
@[simp] theorem complete_fs (s : State) : (complete s).fs = s.fs := rfl
@[simp] theorem complete_buf (s : State) : (complete s).buf = s.buf := rfl
@[simp] theorem complete_agenda (s : State) : (complete s).agenda = s.agenda := rfl
@[simp] theorem complete_seen (s : State) : (complete s).seen = s.seen := rfl
@[simp] theorem complete_epoch (s : State) : (complete s).epoch = s.epoch := rfl
@[simp] theorem complete_free (s : State) : (complete s).free = s.free := rfl
@[simp] theorem complete_bufDefault (s : State) (Q : Params) : (complete s).bufDefault Q = s.bufDefault Q := rfl

@[simp] theorem clearInterrupts_regs (v : BitVec 4) (s : State) : (clearInterrupts v s).regs = { s.regs with intStatus := intNext s.regs.intStatus v 0 } := rfl
@[simp] theorem clearInterrupts_ctxs (v : BitVec 4) (s : State) : (clearInterrupts v s).ctxs = s.ctxs := rfl
@[simp] theorem clearInterrupts_eng (v : BitVec 4) (s : State) : (clearInterrupts v s).eng = s.eng := rfl
@[simp] theorem clearInterrupts_fs (v : BitVec 4) (s : State) : (clearInterrupts v s).fs = s.fs := rfl
@[simp] theorem clearInterrupts_buf (v : BitVec 4) (s : State) : (clearInterrupts v s).buf = s.buf := rfl
@[simp] theorem clearInterrupts_agenda (v : BitVec 4) (s : State) : (clearInterrupts v s).agenda = s.agenda := rfl
@[simp] theorem clearInterrupts_seen (v : BitVec 4) (s : State) : (clearInterrupts v s).seen = s.seen := rfl
@[simp] theorem clearInterrupts_epoch (v : BitVec 4) (s : State) : (clearInterrupts v s).epoch = s.epoch := rfl
@[simp] theorem clearInterrupts_free (v : BitVec 4) (s : State) : (clearInterrupts v s).free = s.free := rfl
@[simp] theorem clearInterrupts_bufDefault (v : BitVec 4) (s : State) (Q : Params) : (clearInterrupts v s).bufDefault Q = s.bufDefault Q := rfl

@[simp] theorem setCtx_regs (s : State) (c : Nat) (r : Ctx) : (s.setCtx c r).regs = s.regs := rfl
@[simp] theorem setCtx_ctxs (s : State) (c : Nat) (r : Ctx) : (s.setCtx c r).ctxs = s.ctxs.setIfInBounds c r := rfl
@[simp] theorem setCtx_eng (s : State) (c : Nat) (r : Ctx) : (s.setCtx c r).eng = s.eng := rfl
@[simp] theorem setCtx_fs (s : State) (c : Nat) (r : Ctx) : (s.setCtx c r).fs = s.fs := rfl
@[simp] theorem setCtx_buf (s : State) (c : Nat) (r : Ctx) : (s.setCtx c r).buf = s.buf := rfl
@[simp] theorem setCtx_agenda (s : State) (c : Nat) (r : Ctx) : (s.setCtx c r).agenda = s.agenda := rfl
@[simp] theorem setCtx_seen (s : State) (c : Nat) (r : Ctx) : (s.setCtx c r).seen = s.seen := rfl
@[simp] theorem setCtx_epoch (s : State) (c : Nat) (r : Ctx) : (s.setCtx c r).epoch = s.epoch := rfl
@[simp] theorem setCtx_free (s : State) (c : Nat) (r : Ctx) : (s.setCtx c r).free = s.free := rfl
@[simp] theorem setCtx_bufDefault (s : State) (c : Nat) (r : Ctx) (Q : Params) : (s.setCtx c r).bufDefault Q = s.bufDefault Q := rfl

@[simp] theorem setResult0_regs (s : State) (v : Word) : (s.setResult0 v).regs = { s.regs with result0 := v } := rfl
@[simp] theorem setResult0_ctxs (s : State) (v : Word) : (s.setResult0 v).ctxs = s.ctxs := rfl
@[simp] theorem setResult0_eng (s : State) (v : Word) : (s.setResult0 v).eng = s.eng := rfl
@[simp] theorem setResult0_fs (s : State) (v : Word) : (s.setResult0 v).fs = s.fs := rfl
@[simp] theorem setResult0_buf (s : State) (v : Word) : (s.setResult0 v).buf = s.buf := rfl
@[simp] theorem setResult0_agenda (s : State) (v : Word) : (s.setResult0 v).agenda = s.agenda := rfl
@[simp] theorem setResult0_seen (s : State) (v : Word) : (s.setResult0 v).seen = s.seen := rfl
@[simp] theorem setResult0_epoch (s : State) (v : Word) : (s.setResult0 v).epoch = s.epoch := rfl
@[simp] theorem setResult0_free (s : State) (v : Word) : (s.setResult0 v).free = s.free := rfl
@[simp] theorem setResult0_bufDefault (s : State) (v : Word) (Q : Params) : (s.setResult0 v).bufDefault Q = s.bufDefault Q := rfl

@[simp] theorem setResult1_regs (s : State) (v : Word) : (s.setResult1 v).regs = { s.regs with result1 := v } := rfl
@[simp] theorem setResult1_ctxs (s : State) (v : Word) : (s.setResult1 v).ctxs = s.ctxs := rfl
@[simp] theorem setResult1_eng (s : State) (v : Word) : (s.setResult1 v).eng = s.eng := rfl
@[simp] theorem setResult1_fs (s : State) (v : Word) : (s.setResult1 v).fs = s.fs := rfl
@[simp] theorem setResult1_buf (s : State) (v : Word) : (s.setResult1 v).buf = s.buf := rfl
@[simp] theorem setResult1_agenda (s : State) (v : Word) : (s.setResult1 v).agenda = s.agenda := rfl
@[simp] theorem setResult1_seen (s : State) (v : Word) : (s.setResult1 v).seen = s.seen := rfl
@[simp] theorem setResult1_epoch (s : State) (v : Word) : (s.setResult1 v).epoch = s.epoch := rfl
@[simp] theorem setResult1_free (s : State) (v : Word) : (s.setResult1 v).free = s.free := rfl
@[simp] theorem setResult1_bufDefault (s : State) (v : Word) (Q : Params) : (s.setResult1 v).bufDefault Q = s.bufDefault Q := rfl

@[simp] theorem setValid_regs (s : State) (v : Bool) : (s.setValid v).regs = { s.regs with valid := v } := rfl
@[simp] theorem setValid_ctxs (s : State) (v : Bool) : (s.setValid v).ctxs = s.ctxs := rfl
@[simp] theorem setValid_eng (s : State) (v : Bool) : (s.setValid v).eng = s.eng := rfl
@[simp] theorem setValid_fs (s : State) (v : Bool) : (s.setValid v).fs = s.fs := rfl
@[simp] theorem setValid_buf (s : State) (v : Bool) : (s.setValid v).buf = s.buf := rfl
@[simp] theorem setValid_agenda (s : State) (v : Bool) : (s.setValid v).agenda = s.agenda := rfl
@[simp] theorem setValid_seen (s : State) (v : Bool) : (s.setValid v).seen = s.seen := rfl
@[simp] theorem setValid_epoch (s : State) (v : Bool) : (s.setValid v).epoch = s.epoch := rfl
@[simp] theorem setValid_free (s : State) (v : Bool) : (s.setValid v).free = s.free := rfl
@[simp] theorem setValid_bufDefault (s : State) (v : Bool) (Q : Params) : (s.setValid v).bufDefault Q = s.bufDefault Q := rfl

@[simp] theorem memWrite_regs (P : Params) (s : State) (off : Nat) (bs : List Byte) : (s.memWrite P off bs).regs = s.regs := rfl
@[simp] theorem memWrite_ctxs (P : Params) (s : State) (off : Nat) (bs : List Byte) : (s.memWrite P off bs).ctxs = s.ctxs := rfl
@[simp] theorem memWrite_eng (P : Params) (s : State) (off : Nat) (bs : List Byte) : (s.memWrite P off bs).eng = s.eng := rfl
@[simp] theorem memWrite_fs (P : Params) (s : State) (off : Nat) (bs : List Byte) : (s.memWrite P off bs).fs = s.fs := rfl
@[simp] theorem memWrite_buf (P : Params) (s : State) (off : Nat) (bs : List Byte) : (s.memWrite P off bs).buf = Memory.writeBytes (s.bufDefault P) s.buf off bs := rfl
@[simp] theorem memWrite_agenda (P : Params) (s : State) (off : Nat) (bs : List Byte) : (s.memWrite P off bs).agenda = s.agenda := rfl
@[simp] theorem memWrite_seen (P : Params) (s : State) (off : Nat) (bs : List Byte) : (s.memWrite P off bs).seen = s.seen := rfl
@[simp] theorem memWrite_epoch (P : Params) (s : State) (off : Nat) (bs : List Byte) : (s.memWrite P off bs).epoch = s.epoch := rfl
@[simp] theorem memWrite_free (P : Params) (s : State) (off : Nat) (bs : List Byte) : (s.memWrite P off bs).free = s.free := rfl
@[simp] theorem memWrite_bufDefault (P : Params) (s : State) (off : Nat) (bs : List Byte) (Q : Params) : (s.memWrite P off bs).bufDefault Q = s.bufDefault Q := rfl

@[simp] theorem overrun_regs (s : State) : (overrun s).regs = { s.regs with intStatus := intNext s.regs.intStatus 0 intOvr } := rfl
@[simp] theorem overrun_ctxs (s : State) : (overrun s).ctxs = s.ctxs := rfl
@[simp] theorem overrun_eng (s : State) : (overrun s).eng = s.eng := rfl
@[simp] theorem overrun_fs (s : State) : (overrun s).fs = s.fs := rfl
@[simp] theorem overrun_buf (s : State) : (overrun s).buf = s.buf := rfl
@[simp] theorem overrun_agenda (s : State) : (overrun s).agenda = s.agenda := rfl
@[simp] theorem overrun_seen (s : State) : (overrun s).seen = s.seen := rfl
@[simp] theorem overrun_epoch (s : State) : (overrun s).epoch = s.epoch := rfl
@[simp] theorem overrun_free (s : State) : (overrun s).free = s.free := rfl
@[simp] theorem overrun_bufDefault (s : State) (Q : Params) : (overrun s).bufDefault Q = s.bufDefault Q := rfl

@[simp] theorem noteCommand_regs (w : Word) (s : State) : (noteCommand w s).regs = { s.regs with done := false, err := false, errCode := 0, lastOpc := w.extractLsb' 0 8 } := rfl
@[simp] theorem noteCommand_ctxs (w : Word) (s : State) : (noteCommand w s).ctxs = s.ctxs := rfl
@[simp] theorem noteCommand_eng (w : Word) (s : State) : (noteCommand w s).eng = s.eng := rfl
@[simp] theorem noteCommand_fs (w : Word) (s : State) : (noteCommand w s).fs = s.fs := rfl
@[simp] theorem noteCommand_buf (w : Word) (s : State) : (noteCommand w s).buf = s.buf := rfl
@[simp] theorem noteCommand_agenda (w : Word) (s : State) : (noteCommand w s).agenda = s.agenda := rfl
@[simp] theorem noteCommand_seen (w : Word) (s : State) : (noteCommand w s).seen = s.seen := rfl
@[simp] theorem noteCommand_epoch (w : Word) (s : State) : (noteCommand w s).epoch = s.epoch := rfl
@[simp] theorem noteCommand_free (w : Word) (s : State) : (noteCommand w s).free = s.free := rfl
@[simp] theorem noteCommand_bufDefault (w : Word) (s : State) (Q : Params) : (noteCommand w s).bufDefault Q = s.bufDefault Q := rfl

@[simp] theorem latchCommand_regs (w : Word) (s : State) : (latchCommand w s).regs = s.regs := rfl
@[simp] theorem latchCommand_ctxs (w : Word) (s : State) : (latchCommand w s).ctxs = s.ctxs := rfl
@[simp] theorem latchCommand_eng (w : Word) (s : State) : (latchCommand w s).eng = { busy := true, opc := w.extractLsb' 0 8, ctx := w.extractLsb' 8 4, arg := s.regs.arg, started := false } := rfl
@[simp] theorem latchCommand_fs (w : Word) (s : State) : (latchCommand w s).fs = s.fs := rfl
@[simp] theorem latchCommand_buf (w : Word) (s : State) : (latchCommand w s).buf = s.buf := rfl
@[simp] theorem latchCommand_agenda (w : Word) (s : State) : (latchCommand w s).agenda = s.agenda := rfl
@[simp] theorem latchCommand_seen (w : Word) (s : State) : (latchCommand w s).seen = s.seen := rfl
@[simp] theorem latchCommand_epoch (w : Word) (s : State) : (latchCommand w s).epoch = s.epoch := rfl
@[simp] theorem latchCommand_free (w : Word) (s : State) : (latchCommand w s).free = s.free := rfl
@[simp] theorem latchCommand_bufDefault (w : Word) (s : State) (Q : Params) : (latchCommand w s).bufDefault Q = s.bufDefault Q := rfl

@[simp] theorem consumeSample_regs (s : State) : (consumeSample s).regs = s.regs := rfl
@[simp] theorem consumeSample_ctxs (s : State) : (consumeSample s).ctxs = s.ctxs := rfl
@[simp] theorem consumeSample_eng (s : State) : (consumeSample s).eng = s.eng := rfl
@[simp] theorem consumeSample_fs (s : State) : (consumeSample s).fs = { s.fs with execOff := s.fs.execOff + 4, execLeft := s.fs.execLeft - 1 } := rfl
@[simp] theorem consumeSample_buf (s : State) : (consumeSample s).buf = s.buf := rfl
@[simp] theorem consumeSample_agenda (s : State) : (consumeSample s).agenda = s.agenda := rfl
@[simp] theorem consumeSample_seen (s : State) : (consumeSample s).seen = s.seen := rfl
@[simp] theorem consumeSample_epoch (s : State) : (consumeSample s).epoch = s.epoch := rfl
@[simp] theorem consumeSample_free (s : State) : (consumeSample s).free = s.free := rfl
@[simp] theorem consumeSample_bufDefault (s : State) (Q : Params) : (consumeSample s).bufDefault Q = s.bufDefault Q := rfl

@[simp] theorem deliver_regs (s : State) (v : Word) : (s.deliver v).regs = s.regs := rfl
@[simp] theorem deliver_ctxs (s : State) (v : Word) : (s.deliver v).ctxs = s.ctxs := rfl
@[simp] theorem deliver_eng (s : State) (v : Word) : (s.deliver v).eng = s.eng := rfl
@[simp] theorem deliver_fs (s : State) (v : Word) : (s.deliver v).fs = s.fs := rfl
@[simp] theorem deliver_buf (s : State) (v : Word) : (s.deliver v).buf = s.buf := rfl
@[simp] theorem deliver_agenda (s : State) (v : Word) : (s.deliver v).agenda = s.agenda := rfl
@[simp] theorem deliver_seen (s : State) (v : Word) : (s.deliver v).seen = v :: s.seen := rfl
@[simp] theorem deliver_epoch (s : State) (v : Word) : (s.deliver v).epoch = s.epoch := rfl
@[simp] theorem deliver_free (s : State) (v : Word) : (s.deliver v).free = s.free := rfl
@[simp] theorem deliver_bufDefault (s : State) (v : Word) (Q : Params) : (s.deliver v).bufDefault Q = s.bufDefault Q := rfl

end Sys2Proof.Machine
end

