-- ==== Sys2Proof/Laws/Ops.lean ====
section
/-! SUPPORT. What the shared operations can do, said once each. -/

namespace Sys2Proof.Machine

/-! ## Interrupt bits -/

/-- "the set wins" (20_memory.md R97). -/
theorem intNext_set_wins (old clear set : BitVec 4) (i : Nat) :
    (intNext old clear set).getLsbD i = (set.getLsbD i || (old.getLsbD i && !clear.getLsbD i)) := by
  by_cases hi : i < 4
  · simp [intNext, hi, Bool.or_comm]
  · simp [intNext, BitVec.getLsbD_of_ge _ _ (by omega : 4 ≤ i)]

@[simp] theorem intNext_zero (old set : BitVec 4) : intNext old 0#4 set = old ||| set := by
  revert old set; decide

/-! ## Checks -/

@[simp] theorem check_none_iff (bad : Bool) (code : ErrCode) (info : Word) : check bad code info = none ↔ bad = false := by
  cases bad <;> simp [check]

@[simp] theorem check_true (code : ErrCode) (info : Word) : check true code info = some ⟨code, info⟩ := rfl

@[simp] theorem check_false (code : ErrCode) (info : Word) : check false code info = none := rfl

@[simp] theorem firstError_nil : firstError [] = none := rfl

@[simp] theorem firstError_none_cons (l : List (Option CmdError)) : firstError (none :: l) = firstError l := rfl

@[simp] theorem firstError_some_cons (e : CmdError) (l : List (Option CmdError)) : firstError (some e :: l) = some e := rfl

theorem firstError_none_iff (l : List (Option CmdError)) : firstError l = none ↔ ∀ c ∈ l, c = none := by
  induction l with
  | nil => simp
  | cons c t ih => cases c <;> simp [firstError, ih]

theorem firstError_append (l l' : List (Option CmdError)) :
    firstError (l ++ l') = (firstError l).or (firstError l') := by
  induction l with
  | nil => simp
  | cons c t ih => cases c <;> simp [firstError, ih]

/-- A command with checks either raises its first error, in the state it started in, or has its effect. -/
theorem runChecked_cases (cs : List (Option CmdError)) (f : State → State) (s : State) :
    (∃ e, firstError cs = some e ∧ runChecked cs f s = raise e s) ∨ (firstError cs = none ∧ runChecked cs f s = f s) := by
  unfold runChecked
  cases h : firstError cs with
  | some e => exact .inl ⟨e, rfl, rfl⟩
  | none => exact .inr ⟨rfl, rfl⟩

theorem runChecked_of_none {cs : List (Option CmdError)} (h : firstError cs = none) (f : State → State) (s : State) :
    runChecked cs f s = f s := by simp [runChecked, h]

theorem runChecked_of_some {cs : List (Option CmdError)} {e : CmdError} (h : firstError cs = some e) (f : State → State)
    (s : State) : runChecked cs f s = raise e s := by simp [runChecked, h]

/-! ## Contexts -/

theorem ctx_of_ge (s : State) {c : Nat} (h : 16 ≤ c) : s.ctx c = Ctx.unconfigured := by
  simp [State.ctx, h]

theorem ctx_setCtx (s : State) (c : Nat) (r : Ctx) (x : Nat) :
    (s.setCtx c r).ctx x = if x = c ∧ c < 16 then r else s.ctx x := by
  unfold State.ctx
  rw [setCtx_ctxs, Vector.getElem?_setIfInBounds]
  by_cases hx : c = x
  · subst hx
    by_cases hc : c < 16
    · simp [hc]
    · simp [hc]
  · rw [if_neg hx, if_neg (fun h => hx h.1.symm)]

theorem ctx_congr {s t : State} (h : t.ctxs = s.ctxs) (c : Nat) : t.ctx c = s.ctx c := by unfold State.ctx; rw [h]

/-! ## BUF -/

theorem byte_congr {P : Params} {s t : State} (h : t.buf = s.buf) (he : t.epoch = s.epoch) (a : Nat) :
    t.byte P a = s.byte P a := by unfold State.byte State.bufDefault; rw [h, he]

theorem byte_memWrite {P : Params} {s : State} (h : Memory.wf (s.bufDefault P) s.buf = true) (off : Nat) (bs : List Byte)
    (a : Nat) : (s.memWrite P off bs).byte P a
      = if off ≤ a ∧ a < off + bs.length then bs.getD (a - off) 0 else s.byte P a :=
  Memory.read_writeBytes h a

@[simp] theorem memRead_length (P : Params) (s : State) (off n : Nat) : (s.memRead P off n).length = n :=
  Memory.readBytes_length ..

theorem memRead_getD (P : Params) (s : State) {n k : Nat} (h : k < n) (off : Nat) :
    (s.memRead P off n).getD k 0 = s.byte P (off + k) := Memory.readBytes_getD _ h _

/-! ## The command word in ENG -/

/-- A legal word is the word ENG holds after its acceptance. -/
theorem word_latchCommand {w : Word} (h : w.extractLsb' 12 20 = 0#20) (s : State) : (latchCommand w s).eng.word = w := by
  show 0#20 ++ w.extractLsb' 8 4 ++ w.extractLsb' 0 8 = w
  rw [← h]
  apply BitVec.eq_of_getLsbD_eq
  intro i hi
  simp only [BitVec.getLsbD_append, BitVec.getLsbD_extractLsb']
  by_cases h1 : i < 8
  · simp [h1]
  · by_cases h2 : i - 8 < 4
    · have : 8 + (i - 8) = i := by omega
      simp [h1, h2, this]
    · have h3 : i - 8 - 4 < 20 := by omega
      have : 12 + (i - 8 - 4) = i := by omega
      simp [h1, h2, h3, this]

theorem reserved_of_legal {w : Word} (h : legal w = true) : w.extractLsb' 12 20 = 0#20 := by
  by_contra hc
  simp [legal, decode, hc] at h

end Sys2Proof.Machine
end

