-- ==== Sys2Proof/Laws/Checks.lean ====
section
/-! SUPPORT. What each shared check answers, and each command as its checks and its effect. -/

namespace Sys2Proof.Machine

/-! ## The checks -/

/-- A length that fits a register is its own ERR_INFO. -/
@[simp] theorem lengthInfo_toNat (P : Params) (w : Word) : lengthInfo P w.toNat = w := by
  rw [lengthInfo, if_pos w.isLt, toWord, BitVec.ofNat_toNat, BitVec.setWidth_eq]

theorem lenCheck_eq (P : Params) (n : Nat) :
    lenCheck P n = if LengthOk P n then none else some ⟨.configLength, lengthInfo P n⟩ := by
  unfold lenCheck check
  by_cases h : LengthOk P n
  · have h' : ¬(n < 1 ∨ n > P.maxDecLen) := by have h1 := h.1; have h2 := h.2; omega
    rw [if_pos h, decide_eq_false h']; rfl
  · have h' : n < 1 ∨ n > P.maxDecLen := by unfold LengthOk at h; omega
    rw [if_neg h, decide_eq_true h']; rfl

theorem rangeCheck_eq (P : Params) (off : Word) (n : Nat) :
    rangeCheck P off n = if InBuf P off n then none else some ⟨.bufRange, off⟩ := by
  unfold rangeCheck check
  by_cases h : InBuf P off n
  · have h' : ¬(off.toNat + n > P.bufSize) := by unfold InBuf at h; omega
    rw [if_pos h, decide_eq_false h']; rfl
  · have h' : off.toNat + n > P.bufSize := by unfold InBuf at h; omega
    rw [if_neg h, decide_eq_true h']; rfl

theorem modCheck_eq (P : Params) (which : Nat) (m : Byte) :
    modCheck P which m = if knownMod P m then none else some ⟨.configMod, BitVec.ofNat 32 (which * 256 + m.toNat)⟩ := by
  unfold modCheck check toWord
  cases knownMod P m <;> rfl

theorem ctxRangeCheck_eq (P : Params) (c : Nat) :
    ctxRangeCheck P c = if c < P.numCtx then none else some ⟨.ctxRange, BitVec.ofNat 32 c⟩ := by
  unfold ctxRangeCheck check toWord
  by_cases h : c < P.numCtx
  · simp [h]
  · simp [h, Nat.le_of_not_lt h]

/-- A scheme word whose ids are all known passes. -/
theorem firstError_schemeChecks_known {P : Params} {sw : Word} (h : TripleOk P sw) (which : Nat)
    (l : List (Option CmdError)) : firstError (schemeChecks P which sw ++ l) = firstError l := by
  obtain ⟨h1, h2, h3⟩ := h
  simp [schemeChecks, check, h1, h2, h3]

/-- If a scheme word does not pass, or what follows does not, the first error is the one of the first failing check. -/
theorem firstError_schemeChecks {P : Params} {which : Nat} {sw : Word} {l : List (Option CmdError)} {rest : CmdError}
    (h : TripleOk P sw → firstError l = some rest) :
    firstError (schemeChecks P which sw ++ l) = some (schemeErrorOr P which sw rest) := by
  unfold schemeErrorOr
  simp only [schemeChecks, check, toWord]
  by_cases h1 : knownEd (swEd sw) = true
  · by_cases h2 : knownFec P (swInner sw) = true
    · by_cases h3 : knownFec P (swOuter sw) = true
      · simp [h1, h2, h3, h ⟨h1, h2, h3⟩]
      · simp [h1, h2, h3]
    · simp [h1, h2]
  · simp [h1]

theorem tripleOk_of_schemeChecks {P : Params} {which : Nat} {sw : Word}
    (h : ∀ c ∈ schemeChecks P which sw, c = none) : TripleOk P sw := by
  simpa [schemeChecks, TripleOk, and_assoc] using h

/-! ## The commands -/

/-- The block's commands are those of any parameters, at its own. -/
theorem exec_eq (i : Instr) (s : State) : exec i s = execWith Config.params i s := by cases i <;> rfl

/-- A command answers a next state on any parameters: it has no fault and no refusal. -/
theorem execWith_next (P : Params) (i : Instr) (s : State) : ∃ t, execWith P i s = .next t := by
  cases i <;> exact ⟨_, rfl⟩

theorem exec_pktEnclen (s : State) : exec .pktEnclen s
    = .next (runChecked (pktEnclenChecks Config.params s) (pktEnclenEffect Config.params) s) := rfl
theorem exec_pktDeclen (s : State) : exec .pktDeclen s
    = .next (runChecked (pktDeclenChecks Config.params s) (pktDeclenEffect Config.params) s) := rfl
theorem exec_pktCreate (c : Nat) (s : State) : exec (.pktCreate c) s
    = .next (runChecked (pktCreateChecks Config.params c s) (configureEffect Config.params c) s) := rfl
theorem exec_pktReconfig (c : Nat) (s : State) : exec (.pktReconfig c) s
    = .next (runChecked (pktReconfigChecks Config.params c s) (configureEffect Config.params c) s) := rfl
theorem exec_pktDestroy (c : Nat) (s : State) : exec (.pktDestroy c) s
    = .next (runChecked (pktDestroyChecks Config.params c s) (pktDestroyEffect c) s) := rfl
theorem exec_pktEncode (c : Nat) (s : State) : exec (.pktEncode c) s
    = .next (runChecked (pktEncodeChecks Config.params c s) (pktEncodeEffect Config.params c) s) := rfl
theorem exec_pktDecode (c : Nat) (s : State) : exec (.pktDecode c) s
    = .next (runChecked (pktDecodeChecks Config.params c s)
        (fun t => decodedEffect Config.params c (decodedMessage Config.params c t) t) s) := rfl
theorem exec_pktDecodeSoft (c : Nat) (s : State) : exec (.pktDecodeSoft c) s
    = .next (runChecked (pktDecodeSoftChecks Config.params c s)
        (fun t => decodedEffect Config.params c (softDecodedMessage Config.params c t) t) s) := rfl
theorem exec_schemeId2name (s : State) : exec .schemeId2name s
    = .next (runChecked (schemeId2nameChecks Config.params s) (schemeId2nameEffect Config.params) s) := rfl
theorem exec_schemeName2id (s : State) : exec .schemeName2id s
    = .next (runChecked (schemeName2idChecks Config.params s) (schemeName2idEffect Config.params) s) := rfl
theorem exec_fsCreate (s : State) : exec .fsCreate s
    = .next (runChecked (fsCreateChecks Config.params s) (fsCreateEffect Config.params) s) := rfl
theorem exec_fsExecute (s : State) : exec .fsExecute s
    = .next (runChecked (fsExecuteChecks Config.params s) fsExecuteEffect s) := rfl
theorem exec_fsDestroy (s : State) : exec .fsDestroy s
    = .next (runChecked (fsDestroyChecks s) (fsDestroyEffect Config.params) s) := rfl

end Sys2Proof.Machine
end

