-- ==== Sys2Proof/Laws/Config.lean ====
section
/-! SUPPORT. The parameters of this block keep the laws of the spec, whatever its deployment is. -/

namespace Sys2Proof.Machine

theorem hammingLen_ge (n : Nat) : 14 * n ≤ 8 * hammingLen n := by unfold hammingLen ceilDiv; omega

theorem hammingLen_lawful : LenLawful hammingLen :=
  ⟨fun m n h => by unfold hammingLen ceilDiv; omega, fun n => by unfold hammingLen ceilDiv; omega⟩

/-- One Hamming codeword with at most one wrong bit decodes to its data. -/
theorem standIn_word_corrects : ∀ (x0 x1 x2 x3 : Bool) (e : Option (Fin 7)) (d : Fin 4),
    standInDecWord (fun j => xor (standInEncBit (fun i => [x0, x1, x2, x3].getD i false) j) (decide (e.map Fin.val = some j))) d
      = [x0, x1, x2, x3].getD d.val false := by
  decide

/-- A codeword's bits depend only on its own four data bits. -/
theorem standInEncBit_block (x : Nat → Bool) (c j : Nat) (hj : j < 7) :
    standInEncBit x (7 * c + j)
      = standInEncBit (fun i => [x (4 * c), x (4 * c + 1), x (4 * c + 2), x (4 * c + 3)].getD i false) j := by
  have h1 : (7 * c + j) / 7 = c := by omega
  have h2 : (7 * c + j) % 7 = j := by omega
  have h3 : j / 7 = 0 := by omega
  have h4 : j % 7 = j := by omega
  unfold standInEncBit
  rw [h1, h2, h3, h4]
  interval_cases j <;> rfl

theorem standInDecWord_congr {y y' : Nat → Bool} (h : ∀ j, j < 7 → y j = y' j) (d : Nat) :
    standInDecWord y d = standInDecWord y' d := by
  have hs : standInSyndrome y = standInSyndrome y' := by
    unfold standInSyndrome
    rw [h 0 (by omega), h 1 (by omega), h 2 (by omega), h 3 (by omega), h 4 (by omega), h 5 (by omega), h 6 (by omega)]
  unfold standInDecWord
  rw [hs]
  split
  · rw [h 2 (by omega)]
  · rw [h 4 (by omega)]
  · rw [h 5 (by omega)]
  · rw [h 6 (by omega)]

/-- In a list of positions with one position a codeword, codeword c has at most one. -/
theorem at_most_one {ps : List Nat} (h : (ps.map (· / 7)).Nodup) (c : Nat) :
    ∃ e : Option (Fin 7), ∀ j, j < 7 → (decide (7 * c + j ∈ ps) = decide (e.map Fin.val = some j)) := by
  by_cases hc : ∃ j, j < 7 ∧ 7 * c + j ∈ ps
  · obtain ⟨j, hj, hm⟩ := hc
    refine ⟨some ⟨j, hj⟩, fun k hk => ?_⟩
    by_cases hkj : k = j
    · subst hkj; simp [hm]
    · have : 7 * c + k ∉ ps := fun hm' => by
        have := List.inj_on_of_nodup_map h hm hm' (by show (7 * c + j) / 7 = (7 * c + k) / 7; omega)
        omega
      simp [this, Ne.symm hkj]
  · refine ⟨none, fun k hk => ?_⟩
    have : 7 * c + k ∉ ps := fun hm => hc ⟨k, hk, hm⟩
    simp [this]

/-- Decoding a message's code word with at most one wrong bit in each codeword gives the message's bit. -/
theorem standInDecBit_corrects (x z : Nat → Bool) (ps : List Nat) (n : Nat) (h : (ps.map (· / 7)).Nodup)
    (hz : ∀ k, k < 14 * n → z k = xor (standInEncBit x k) (decide (k ∈ ps))) (k : Nat) (hk : k < 8 * n) :
    standInDecBit z k = x k := by
  obtain ⟨e, he⟩ := at_most_one h (k / 4)
  unfold standInDecBit
  rw [standInDecWord_congr (y' := fun j =>
    xor (standInEncBit (fun i => [x (4 * (k / 4)), x (4 * (k / 4) + 1), x (4 * (k / 4) + 2), x (4 * (k / 4) + 3)].getD i false) j)
      (decide (e.map Fin.val = some j)))]
  · have hlt : k % 4 < 4 := by omega
    have hw := standIn_word_corrects (x (4 * (k / 4))) (x (4 * (k / 4) + 1)) (x (4 * (k / 4) + 2)) (x (4 * (k / 4) + 3)) e
      ⟨k % 4, hlt⟩
    refine hw.trans ?_
    have hk4 : k = 4 * (k / 4) + k % 4 := by omega
    conv_rhs => rw [hk4]
    show [_, _, _, _].getD (k % 4) false = _
    generalize k % 4 = d at hlt ⊢
    interval_cases d <;> rfl
  · intro j hj
    show z _ = _
    rw [hz _ (by omega), standInEncBit_block _ _ _ hj, he j hj]

theorem standIn_enc_bits (a : List Byte) :
    bits (standInHamming.enc a) = (List.range (8 * hammingLen a.length)).map fun k =>
      if k < 14 * a.length then standInEncBit (fun i => (bits a).getD i false) k else false :=
  bits_pack (n := hammingLen a.length) (by simp)

theorem standIn_enc_length (a : List Byte) : (standInHamming.enc a).length = hammingLen a.length :=
  pack_length (by simp)

theorem standIn_dec_length (b : List Byte) (n : Nat) : (standInHammingDec b n).length = n := pack_length (by simp)

theorem standIn_corrects (a : List Byte) (ps : List Nat) (h : (ps.map (· / 7)).Nodup) :
    standInHammingDec (flipBits ps (standInHamming.enc a)) a.length = a := by
  have hbits : (List.range (8 * a.length)).map
      (standInDecBit fun i => (bits (flipBits ps (standInHamming.enc a))).getD i false) = bits a := by
    apply List.ext_getElem
    · simp
    · intro k h1 h2
      rw [List.getElem_map, List.getElem_range,
        standInDecBit_corrects (fun i => (bits a).getD i false) _ ps a.length h ?_ k (by simpa using h2)]
      · show (bits a).getD k false = _
        rw [List.getD_eq_getElem _ _ h2]
      · intro k hk
        have hlen := hammingLen_ge a.length
        rw [bits_flipBits, standIn_enc_bits, List.getD_eq_getElem _ _ (by simp; omega), List.getElem_mapIdx,
          List.getElem_map, List.getElem_range, if_pos hk]
  rw [standInHammingDec, hbits, pack_bits]

theorem flipBits_nil (b : List Byte) : flipBits [] b = b := by
  have : (bits b).mapIdx (fun k x => xor x (decide (k ∈ ([] : List Nat)))) = bits b := by
    apply List.ext_getElem
    · simp
    · intro k h1 h2; simp
  rw [flipBits, this, pack_bits]

theorem standIn_hamming_lawful : standInHamming.Lawful hammingLen where
  enc_length := standIn_enc_length
  dec_length := fun b n _ => standIn_dec_length b n
  decSoft_length := fun s n _ => standIn_dec_length _ n
  round_trip := fun a => by
    have := standIn_corrects a [] (by simp)
    rwa [flipBits_nil] at this
  hard_input := fun b n _ => by
    show standInHammingDec (pack (slice (soft b))) n = standInHammingDec b n
    rw [slice_soft, pack_bits]
  corrects := fun a ps h => by
    have h' : (ps.all (fun p => decide (p < 14 * a.length)) && decide ((ps.map (· / 7)).Nodup)) = true := h
    rw [Bool.and_eq_true, decide_eq_true_eq] at h'
    exact standIn_corrects a ps h'.2
  fixes_bound := fun n ps h => by
    have h' : (ps.all (fun p => decide (p < 14 * n)) && decide ((ps.map (· / 7)).Nodup)) = true := h
    rw [Bool.and_eq_true, decide_eq_true_eq, List.all_eq_true] at h'
    have hsub : ps.map (· / 7) ⊆ List.range (2 * n) := by
      intro c hc
      obtain ⟨p, hp, rfl⟩ := List.mem_map.1 hc
      have := of_decide_eq_true (h'.1 p hp)
      exact List.mem_range.2 (by show p / 7 < 2 * n; omega)
    show ps.length ≤ 2 * n
    simpa using (h'.2.subperm hsub).length_le

theorem standIn_fec_known {inner : Byte} (h : knownFec (Config.withFree standInParams) inner = true) :
    inner.toNat = 1 ∨ inner.toNat = 2 := by
  unfold knownFec at h
  split at h
  · cases h
  · left; assumption
  · right; assumption
  · cases h

theorem standIn_fecLen_le {fec : Byte} (h : knownFec (Config.withFree standInParams) fec = true) (n : Nat) :
    fecLen (Config.withFree standInParams) fec n ≤ 2 * n + 1 := by
  rcases standIn_fec_known h with h | h <;> simp only [fecLen, h, hammingLen, ceilDiv] <;> omega

theorem keyLen_le (ed : Byte) : keyLen ed ≤ 4 := by unfold keyLen; split <;> omega

theorem standIn_modBps {m : Byte} {k : Nat} (h : standInParams.modBps m = some k) : k = 8 := by
  have h' : (if m = 1 then some 8 else none) = some k := h
  split at h'
  · exact (Option.some.inj h').symm
  · cases h'

theorem standIn_fe {cfg : FsCfg} {fe : FeState} (h : FeReach standInParams cfg fe) : fe = ⟨0, 0⟩ := by
  induction h with
  | init => rfl
  | step fe m x _ ih => cases m <;> exact ih
  | clear fe _ ih => exact ih

/-- "SFE satisfies every law of 45_frame_sync.md rule R203." -/
theorem standIn_front : FrontEndLawful standInParams where
  trigger_det := fun fe m x tau cfo h => by
    cases m with
    | det th => exact ⟨th, rfl⟩
    | _ => cases h
  symbol_not_det := fun fe th x y h => by
    have h' : (if x.i = 0x1000#16 ∧ x.q = 0#16 then FeEvent.trigger 0 0 else .none) = .symbol y := h
    split at h' <;> cases h'
  demod_length := fun m k y h => by
    rw [standIn_modBps h]
    have h' : (if m = 1 then some 8 else none) = some k := h
    show (if m = 1 then soft [BitVec.ofNat 8 y] else []).length = 8
    split at h'
    · rw [if_pos ‹_›]; rfl
    · cases h'
  clear_persist := fun _ => rfl
  clear_frame := fun cfg fe h => by rw [standIn_fe h]; rfl
  silence := fun _ _ _ _ _ _ h => by cases h

theorem standIn_lawful : (Config.withFree standInParams).Lawful where
  numCtx := by decide
  maxDecLen := by decide
  bufBits := by decide
  regBase := rfl
  bufBase := rfl
  hamming := standIn_hamming_lawful
  hammingPos_lt := fun n c j hc hj => by
    show 7 * c + j < 8 * hammingLen n
    have := hammingLen_ge n; omega
  hammingPos_inj := fun n c j c' j' _ _ hj hj' h => by
    have h' : 7 * c + j = 7 * c' + j' := h
    omega
  hamming_one_each := fun n es h hn => by
    show ((es.map fun e => 7 * e.1 + e.2).all (fun p => decide (p < 14 * n))
      && decide (((es.map fun e => 7 * e.1 + e.2).map (· / 7)).Nodup)) = true
    have hm : (es.map fun e => 7 * e.1 + e.2).map (· / 7) = es.map Prod.fst := by
      rw [List.map_map]
      refine List.map_congr_left fun e he => ?_
      have := (h e he).2
      show (7 * e.1 + e.2) / 7 = e.1
      omega
    refine (Bool.and_eq_true _ _).mpr ⟨List.all_eq_true.2 fun p hp => ?_, decide_eq_true (hm ▸ hn)⟩
    obtain ⟨e, he, rfl⟩ := List.mem_map.1 hp
    have := h e he
    exact decide_eq_true (by omega)
  extra_id := fun id e h => by cases (show (none : Option FecEntry) = some e from h)
  extra := fun id e h => by cases (show (none : Option FecEntry) = some e from h)
  extra_distinct := fun id id' e e' h => by cases (show (none : Option FecEntry) = some e from h)
  range := fun ed inner outer _ hi ho => by
    have h1 := standIn_fecLen_le hi ((Config.withFree standInParams).maxDecLen + keyLen ed)
    have h2 := standIn_fecLen_le ho
      (fecLen (Config.withFree standInParams) inner ((Config.withFree standInParams).maxDecLen + keyLen ed))
    have h3 := keyLen_le ed
    have h4 : (Config.withFree standInParams).maxDecLen = 65535 := rfl
    rw [h4] at h1 h2 ⊢
    unfold encLen
    omega
  modBps := fun m k h => by rw [standIn_modBps h]; omega
  modBps_zero := rfl
  syncLen := by decide
  frontEnd := standIn_front

/-- The block's parameters keep the laws of the spec. -/
theorem params_lawful : Config.params.Lawful := by
  unfold Config.params
  cases Config.deployment with
  | standIn => exact standIn_lawful
  | given r h => exact h

end Sys2Proof.Machine
end

