-- ==== Sys2Proof/Laws/Coding.lean ====
section
/-! SUPPORT. Lengths and inverses of the coding stages, one stage at a time. -/

namespace Sys2Proof.Machine

/-! ## Keys -/

@[simp] theorem keyOf_length (P : Params) (ed : Byte) (m : List Byte) : (keyOf P ed m).length = keyLen ed := by
  unfold keyOf keyLen
  split <;> simp_all

/-! ## FEC stages -/

/-- Which entries a known FEC id can have. -/
theorem knownFec_cases {P : Params} {fec : Byte} (h : knownFec P fec = true) :
    fec = schemeNone ∨ fec = 2#8 ∨ (3 ≤ fec.toNat ∧ ∃ e, P.fecExtra fec = some e) := by
  unfold knownFec at h
  split at h
  · cases h
  · exact .inl (BitVec.eq_of_toNat_eq ‹_›)
  · exact .inr (.inl (BitVec.eq_of_toNat_eq ‹_›))
  · rename_i h0 h1 h2
    refine .inr (.inr ⟨?_, Option.isSome_iff_exists.1 h⟩)
    rcases Nat.lt_or_ge fec.toNat 3 with hlt | hge
    · interval_cases hn : fec.toNat
      · exact absurd rfl h0
      · exact absurd rfl h1
      · exact absurd rfl h2
    · exact hge

@[simp] theorem fecLen_none (P : Params) (n : Nat) : fecLen P schemeNone n = n := rfl
@[simp] theorem fecLen_hamming (P : Params) (n : Nat) : fecLen P 2#8 n = hammingLen n := rfl
@[simp] theorem fecCodec_none (P : Params) : fecCodec P schemeNone = codecNone := rfl
@[simp] theorem fecCodec_hamming (P : Params) : fecCodec P 2#8 = P.hamming := rfl

theorem fecLen_extra {P : Params} {fec : Byte} {e : FecEntry} (h : 3 ≤ fec.toNat) (he : P.fecExtra fec = some e) (n : Nat) :
    fecLen P fec n = e.len n := by
  unfold fecLen
  split <;> first | omega | simp [he]

theorem fecCodec_extra {P : Params} {fec : Byte} {e : FecEntry} (h : 3 ≤ fec.toNat) (he : P.fecExtra fec = some e) :
    fecCodec P fec = e.codec := by
  unfold fecCodec
  split <;> first | omega | simp [he]

/-- The identity is lawful (41_packetizer_coding.md R161). -/
theorem codecNone_lawful : codecNone.Lawful fun n => n where
  enc_length := fun _ => rfl
  dec_length := fun _ _ h => h
  decSoft_length := fun s n h => pack_length (by rw [slice_length, h])
  round_trip := fun _ => rfl
  hard_input := fun b n _ => by show pack (slice (soft b)) = b; rw [slice_soft, pack_bits]
  corrects := fun a ps h => by
    have : ps = [] := List.isEmpty_iff.1 h
    subst this; exact flipBits_nil a
  fixes_bound := fun n ps h => by
    have : ps = [] := List.isEmpty_iff.1 h
    subst this; exact Nat.zero_le _

/-- Every known FEC id names a lawful codec. -/
theorem fecCodec_lawful {P : Params} (hP : P.Lawful) {fec : Byte} (h : knownFec P fec = true) :
    (fecCodec P fec).Lawful (fecLen P fec) := by
  rcases knownFec_cases h with rfl | rfl | ⟨h3, e, he⟩
  · exact codecNone_lawful
  · exact hP.hamming
  · rw [fecCodec_extra h3 he, show fecLen P fec = e.len from funext (fecLen_extra h3 he)]
    exact (hP.extra _ _ he).codec

/-- Every length function is monotonic and expanding, for unknown ids too. -/
theorem fecLen_lawful {P : Params} (hP : P.Lawful) (fec : Byte) : LenLawful (fecLen P fec) := by
  by_cases h : knownFec P fec = true
  · rcases knownFec_cases h with rfl | rfl | ⟨h3, e, he⟩
    · exact ⟨fun _ _ h => h, fun _ => Nat.le_refl _⟩
    · exact hammingLen_lawful
    · rw [show fecLen P fec = e.len from funext (fecLen_extra h3 he)]; exact (hP.extra _ _ he).len
  · have : fecLen P fec = fun n => n := by
      funext n
      unfold fecLen
      unfold knownFec at h
      split at h <;> simp_all
    rw [this]; exact ⟨fun _ _ h => h, fun _ => Nat.le_refl _⟩

/-- The encoded length is at least the length of message and key. -/
theorem le_encLen {P : Params} (hP : P.Lawful) (L : Nat) (ed inner outer : Byte) :
    L + keyLen ed ≤ encLen P L ed inner outer :=
  Nat.le_trans ((fecLen_lawful hP inner).expand _) ((fecLen_lawful hP outer).expand _)

/-- An encoded length fits a register (41_packetizer_coding.md R161, range). -/
theorem encLen_lt {P : Params} (hP : P.Lawful) {L : Nat} (hL : L ≤ P.maxDecLen) {ed inner outer : Byte}
    (h1 : knownEd ed = true) (h2 : knownFec P inner = true) (h3 : knownFec P outer = true) :
    encLen P L ed inner outer < 2 ^ 32 := by
  have hr := hP.range ed inner outer h1 h2 h3
  have hm : encLen P L ed inner outer ≤ encLen P P.maxDecLen ed inner outer :=
    (fecLen_lawful hP outer).mono _ _ ((fecLen_lawful hP inner).mono _ _ (by omega))
  omega

/-! ## The interleaver -/

theorem bits_ilv (P : Params) (n : Nat) (b : List Byte) :
    bits (ilv P n b) = List.ofFn fun k : Fin (8 * n) => (bits b).getD ((P.intlv n).symm k).val false :=
  bits_pack (n := n) (by simp)

theorem bits_dilv (P : Params) (n : Nat) (b : List Byte) :
    bits (dilv P n b) = List.ofFn fun k : Fin (8 * n) => (bits b).getD (P.intlv n k).val false :=
  bits_pack (n := n) (by simp)

@[simp] theorem ilv_length (P : Params) (n : Nat) (b : List Byte) : (ilv P n b).length = n := pack_length (by simp)
@[simp] theorem dilv_length (P : Params) (n : Nat) (b : List Byte) : (dilv P n b).length = n := pack_length (by simp)
@[simp] theorem dilvSoft_length (P : Params) (n : Nat) (s : List Byte) : (dilvSoft P n s).length = 8 * n := by
  simp [dilvSoft]

/-- DILV(n, ILV(n, b)) = b (41_packetizer_coding.md R161). -/
theorem dilv_ilv (P : Params) {n : Nat} {b : List Byte} (h : b.length = n) : dilv P n (ilv P n b) = b := by
  have hb : bits (dilv P n (ilv P n b)) = bits b := by
    rw [bits_dilv, bits_ilv]
    apply List.ext_getElem
    · simp [h]
    · intro k h1 h2
      have hk : k < 8 * n := by simpa using h1
      rw [List.getElem_ofFn, List.getD_eq_getElem _ _ (by simp), List.getElem_ofFn]
      simp only [Fin.eta, Equiv.symm_apply_apply]
      exact List.getD_eq_getElem _ _ h2
  rw [← pack_bits (dilv P n (ilv P n b)), hb, pack_bits]

/-- De-interleaving hard soft bits is de-interleaving (41_packetizer_coding.md R161). -/
theorem dilvSoft_soft (P : Params) {n : Nat} {b : List Byte} (h : b.length = n) :
    dilvSoft P n (soft b) = soft (dilv P n b) := by
  unfold soft
  rw [bits_dilv, dilvSoft]
  apply List.ext_getElem
  · simp
  · intro k h1 h2
    have hk : k < 8 * n := by simpa using h1
    have hlt : (P.intlv n ⟨k, hk⟩).val < (bits b).length := by rw [bits_length, h]; exact (P.intlv n ⟨k, hk⟩).isLt
    rw [List.getElem_ofFn, List.getElem_map, List.getElem_ofFn, List.getD_eq_getElem _ _ (by simpa using hlt),
      List.getElem_map, List.getD_eq_getElem _ _ hlt]

end Sys2Proof.Machine
end

