-- ==== Sys2Proof/Laws/Engine.lean ====
section
/-! SUPPORT. What the block's step and a turn can do, said once. -/

namespace Sys2Proof.Machine

theorem fsRunning_iff (s : State) :
    fsRunning s = true ↔ s.eng.busy = true ∧ s.eng.started = true ∧ s.eng.opc = 0x11#8 := by
  simp [fsRunning, and_assoc]

/-- The three cases of the block's step. -/
theorem engineStep_cases (P : Params) (s : State) :
    (s.eng.busy = true ∧ s.eng.started = false ∧ engineStep P s = executionStep P s) ∨
    (fsRunning s = true ∧ engineStep P s = fsEngineStep P s) ∨
    (¬(s.eng.busy = true ∧ s.eng.started = false) ∧ fsRunning s = false ∧ engineStep P s = .next s) := by
  unfold engineStep
  cases hb : s.eng.busy <;> cases hs : s.eng.started <;> cases hr : fsRunning s <;> simp

/-- The execution step runs a command, or raises ILLEGAL_CMD in a state no run reaches (log 20). -/
theorem executionStep_cases (P : Params) (s : State) :
    (∃ i, decode s.eng.word = .ok i ∧ executionStep P s = execWith P i s) ∨
    (legal s.eng.word = false ∧ executionStep P s = .next (raise ⟨.illegalCmd, s.eng.word⟩ s)) := by
  unfold executionStep
  cases h : decode s.eng.word with
  | ok i => exact .inl ⟨i, rfl, rfl⟩
  | error e => exact .inr ⟨by simp [legal, h], rfl⟩

/-- The engine in a state that consumes samples. -/
theorem fsEngineStep_consuming {P : Params} {s : State} (h : s.fs.tag.Consuming) : fsEngineStep P s = sampleStep P s := by
  unfold fsEngineStep
  rcases h with h | h | h | h <;> rw [h]

/-- The sample at a BUF offset is the one the step consumes. -/
theorem nextSample_eq (P : Params) (s : State) : nextSample P s = sampleAt P s s.fs.execOff.toNat := rfl

theorem sampleStep_of_canConsume {P : Params} {s : State} (h : CanConsume P s) :
    sampleStep P s = applySample P (sampleAt P s s.fs.execOff.toNat) (consumeSample s) := by
  unfold sampleStep
  rw [if_neg h.2.1, if_neg (Nat.not_lt.2 h.2.2), nextSample_eq]

/-- A turn at the head of the agenda is taken on the state that remains. -/
theorem step_turn (s : State) (t : Turn) : step { s with agenda := t :: s.agenda } = takeTurn Config.params t s := rfl

theorem hostReadReg_ok {P : Params} {off : Nat} {w : Width} (h : regAccessOk off w = true) (s : State) :
    hostReadReg P off w s = .next (s.deliver (readOffset P s off)) := by simp [hostReadReg, h]

theorem hostWriteReg_ok {P : Params} {off : Nat} {w : Width} (h : regAccessOk off w = true) (v : Word) (s : State) :
    hostWriteReg P off w v s = .next (writeOffset P s off v) := by simp [hostWriteReg, h]

/-- A host access by address is one by offset in the window the address lies in, or refused. -/
theorem hostRead_addr (P : Params) (a : Nat) (w : Width) (s : State) :
    (P.regBase ≤ a ∧ a < P.regBase + 4096 ∧ hostRead P (.addr a) w s = hostReadReg P (a - P.regBase) w s) ∨
    (P.bufBase ≤ a ∧ a < P.bufBase + P.bufSize ∧ hostRead P (.addr a) w s = hostReadBuf P (a - P.bufBase) w s) ∨
    hostRead P (.addr a) w s = .refused (.outsideBlock a) := by
  by_cases h1 : P.regBase ≤ a ∧ a < P.regBase + 4096
  · exact .inl ⟨h1.1, h1.2, by simp [hostRead, locate, h1]⟩
  · by_cases h2 : P.bufBase ≤ a ∧ a < P.bufBase + P.bufSize
    · exact .inr (.inl ⟨h2.1, h2.2, by simp only [hostRead, locate, if_neg h1, if_pos h2]⟩)
    · exact .inr (.inr (by simp only [hostRead, locate, if_neg h1, if_neg h2]))

theorem hostWrite_addr (P : Params) (a : Nat) (w : Width) (v : Word) (s : State) :
    (P.regBase ≤ a ∧ a < P.regBase + 4096 ∧ hostWrite P (.addr a) w v s = hostWriteReg P (a - P.regBase) w v s) ∨
    (P.bufBase ≤ a ∧ a < P.bufBase + P.bufSize ∧ hostWrite P (.addr a) w v s = hostWriteBuf P (a - P.bufBase) w v s) ∨
    hostWrite P (.addr a) w v s = .refused (.outsideBlock a) := by
  by_cases h1 : P.regBase ≤ a ∧ a < P.regBase + 4096
  · exact .inl ⟨h1.1, h1.2, by simp [hostWrite, locate, h1]⟩
  · by_cases h2 : P.bufBase ≤ a ∧ a < P.bufBase + P.bufSize
    · exact .inr (.inl ⟨h2.1, h2.2, by simp only [hostWrite, locate, if_neg h1, if_pos h2]⟩)
    · exact .inr (.inr (by simp only [hostWrite, locate, if_neg h1, if_neg h2]))

end Sys2Proof.Machine
end

