-- ==== Sys2Proof/Laws/PerInstr.lean ====
section
/-! SUPPORT. A statement about every command as a word, made command by command. -/

namespace Sys2Proof.Laws

/-- The word of a well-formed command has the layout of 30_encoding.md R100: the opcode in [7:0], the context in [11:8], zero
above. -/
def EncodeFits.Statement (i : Instr) : Prop :=
  i.wellFormed = true →
    (encode i).toNat = i.ctx?.getD 0 * 256 + i.opcode ∧ i.ctx?.getD 0 < 16 ∧ i.opcode < 256 ∧
    ((encode i).extractLsb' 0 8).toNat = i.opcode ∧ ((encode i).extractLsb' 8 4).toNat = i.ctx?.getD 0 ∧
    (encode i).extractLsb' 12 20 = 0#20

/-- The layout of a word written as `c * 256 + o`. -/
theorem word_fields {c o : Nat} (hc : c < 16) (ho : o < 256) :
    (BitVec.ofNat 32 (c * 256 + o)).toNat = c * 256 + o ∧ c < 16 ∧ o < 256 ∧
    ((BitVec.ofNat 32 (c * 256 + o)).extractLsb' 0 8).toNat = o ∧
    ((BitVec.ofNat 32 (c * 256 + o)).extractLsb' 8 4).toNat = c ∧
    (BitVec.ofNat 32 (c * 256 + o)).extractLsb' 12 20 = 0#20 := by
  have h : (BitVec.ofNat 32 (c * 256 + o)).toNat = c * 256 + o := by
    rw [BitVec.toNat_ofNat, Nat.mod_eq_of_lt (by omega)]
  refine ⟨h, hc, ho, ?_, ?_, ?_⟩
  · rw [BitVec.extractLsb'_toNat, h, Nat.shiftRight_eq_div_pow]; omega
  · rw [BitVec.extractLsb'_toNat, h, Nat.shiftRight_eq_div_pow]; omega
  · apply BitVec.eq_of_toNat_eq
    rw [BitVec.extractLsb'_toNat, h, Nat.shiftRight_eq_div_pow]; simp; omega

theorem EncodeFits.pktEnclen : EncodeFits.Statement .pktEnclen := fun _ => word_fields (by decide) (by decide)
theorem EncodeFits.pktDeclen : EncodeFits.Statement .pktDeclen := fun _ => word_fields (by decide) (by decide)
theorem EncodeFits.pktCreate (c : Nat) : EncodeFits.Statement (.pktCreate c) :=
  fun h => word_fields (of_decide_eq_true h) (by simp [Instr.opcode])
theorem EncodeFits.pktReconfig (c : Nat) : EncodeFits.Statement (.pktReconfig c) :=
  fun h => word_fields (of_decide_eq_true h) (by simp [Instr.opcode])
theorem EncodeFits.pktDestroy (c : Nat) : EncodeFits.Statement (.pktDestroy c) :=
  fun h => word_fields (of_decide_eq_true h) (by simp [Instr.opcode])
theorem EncodeFits.pktEncode (c : Nat) : EncodeFits.Statement (.pktEncode c) :=
  fun h => word_fields (of_decide_eq_true h) (by simp [Instr.opcode])
theorem EncodeFits.pktDecode (c : Nat) : EncodeFits.Statement (.pktDecode c) :=
  fun h => word_fields (of_decide_eq_true h) (by simp [Instr.opcode])
theorem EncodeFits.pktDecodeSoft (c : Nat) : EncodeFits.Statement (.pktDecodeSoft c) :=
  fun h => word_fields (of_decide_eq_true h) (by simp [Instr.opcode])
theorem EncodeFits.schemeId2name : EncodeFits.Statement .schemeId2name := fun _ => word_fields (by decide) (by decide)
theorem EncodeFits.schemeName2id : EncodeFits.Statement .schemeName2id := fun _ => word_fields (by decide) (by decide)
theorem EncodeFits.fsCreate : EncodeFits.Statement .fsCreate := fun _ => word_fields (by decide) (by decide)
theorem EncodeFits.fsExecute : EncodeFits.Statement .fsExecute := fun _ => word_fields (by decide) (by decide)
theorem EncodeFits.fsDestroy : EncodeFits.Statement .fsDestroy := fun _ => word_fields (by decide) (by decide)

end Sys2Proof.Laws
end

