-- ==== Sys2Proof/Tests/Slice0.lean ====
section
/-! SUPPORT. Tests: the encodings written out from 30_encoding.md, one step of each command on the vectors of
95_test_vectors.md, and, for every statement with hypotheses, states and operands that meet them. -/

namespace Sys2Proof.Tests

open Sys2Proof Sys2Proof.Machine

/-! ## The command word -/

/-- A context number of five bits has no word (30_encoding.md R100). -/
theorem test_wellFormed_refuses_ctx_16 : (Instr.pktCreate 16).wellFormed = false := by decide
theorem test_wellFormed_refuses_ctx_16_all :
    [Instr.pktReconfig 16, .pktDestroy 16, .pktEncode 16, .pktDecode 16, .pktDecodeSoft 16].all
      (fun i => !i.wellFormed) = true := by decide
theorem test_wellFormed_accepts_ctx_15 : (Instr.pktDecodeSoft 15).wellFormed = true := by decide

/-! Reserved [31:12], CTX [11:8], OPC [7:0]: every constructor's word, written out from 30_encoding.md R100 and R110. -/

theorem test_decode_pktEnclen : decode 0b00000000000000000000_0000_00000001#32 = .ok .pktEnclen := by decide
theorem test_decode_pktDeclen : decode 0b00000000000000000000_0000_00000010#32 = .ok .pktDeclen := by decide
theorem test_decode_pktCreate : decode 0b00000000000000000000_0011_00000011#32 = .ok (.pktCreate 3) := by decide
theorem test_decode_pktReconfig : decode 0b00000000000000000000_0001_00000100#32 = .ok (.pktReconfig 1) := by decide
theorem test_decode_pktDestroy : decode 0b00000000000000000000_1111_00000101#32 = .ok (.pktDestroy 15) := by decide
theorem test_decode_pktEncode : decode 0b00000000000000000000_1000_00000110#32 = .ok (.pktEncode 8) := by decide
theorem test_decode_pktDecode : decode 0b00000000000000000000_0100_00000111#32 = .ok (.pktDecode 4) := by decide
theorem test_decode_pktDecodeSoft : decode 0b00000000000000000000_0010_00001000#32 = .ok (.pktDecodeSoft 2) := by decide
theorem test_decode_schemeId2name : decode 0b00000000000000000000_0000_00001001#32 = .ok .schemeId2name := by decide
theorem test_decode_schemeName2id : decode 0b00000000000000000000_0000_00001010#32 = .ok .schemeName2id := by decide
theorem test_decode_fsCreate : decode 0b00000000000000000000_0000_00010000#32 = .ok .fsCreate := by decide
theorem test_decode_fsExecute : decode 0b00000000000000000000_0000_00010001#32 = .ok .fsExecute := by decide
theorem test_decode_fsDestroy : decode 0b00000000000000000000_0000_00010010#32 = .ok .fsDestroy := by decide

/-- Vectors I1 to I4 of 95_test_vectors.md. -/
theorem test_illegal_words :
    [0x0000000B#32, 0x00001001#32, 0x00000101#32, 0x00000013#32, 0x00000000#32, 0x000000FF#32].all
      (fun w => !legal w) = true := by decide

theorem test_encode_pktCreate : encode (.pktCreate 3) = 0x00000303#32 := by decide
theorem test_decodeTableWord : decodeTableWord 32 0x00000206 = some (.pktEncode 2) := by decide

/-! ## One step of each command -/

/-- Parameters as 95_test_vectors.md section 0 has them, with BUF all zero, so that a step can be evaluated. -/
def vecParams : Params :=
  { Config.withFree standInParams with
    bufInit := fun _ _ => 0, raceNew := fun _ => false, undefFe := fun _ => ⟨0, 0⟩
    wideLength := fun _ => 0 }

/-- The same with a small MAX_DEC_LEN, for PKT.DECLEN's search. -/
def vecParamsShort : Params := { vecParams with maxDecLen := 70 }

/-- ENG with an accepted command and the given argument registers. -/
def engOf (i : Instr) (a0 a1 a2 a3 : Word) : Eng :=
  { busy := true, opc := (encode i).extractLsb' 0 8, ctx := (encode i).extractLsb' 8 4, arg := ⟨a0, a1, a2, a3⟩
    started := false }

/-- The reset state with an accepted command. -/
def accepted (i : Instr) (a0 a1 a2 a3 : Word) : State :=
  { State.reset with
    eng := engOf i a0 a1 a2 a3, regs := { Regs.reset with lastOpc := (encode i).extractLsb' 0 8 } }

/-- The context of vectors E1 to S4: {3, Checksum8, None, None, 4}. -/
def ctxC8 : Ctx := ⟨true, 3, 2, 1, 1, 4⟩

/-- The reset state with that context as number 3, an accepted command, and bytes in BUF. -/
def withCtx (i : Instr) (a2 a3 : Word) (off : Nat) (bs : List Byte) : State :=
  ((accepted i 0 0 a2 a3).setCtx 3 ctxC8).memWrite vecParams off bs

/-- STATUS, RESULT0 and ERR_INFO. -/
def endOf (s : State) : Word × Word × Word := (statusWord s, s.regs.result0, s.regs.errInfo)

/-- N5: PKT.ENCLEN 65535, HH. -/
theorem test_pktEnclen_N5 :
    endOf (pktEnclen vecParams (accepted .pktEnclen 65535 0x00020206 0 0)) = (0x00010002, 200715, 0) := by decide
/-- N13: the reserved byte is checked before the length. -/
theorem test_pktEnclen_N13 :
    endOf (pktEnclen vecParams (accepted .pktEnclen 0 0x01010101 0 0)) = (0x00010204, 0, 0x01010101) := by decide
/-- D2: PKT.DECLEN 120, P64, where f(65) = 121. -/
theorem test_pktDeclen_D2 :
    endOf (pktDeclen vecParamsShort (accepted .pktDeclen 120 0x00010206 0 0)) = (0x00020002, 64, 0) := by decide
/-- D5: f(1) = 9 > 8. -/
theorem test_pktDeclen_D5 :
    endOf (pktDeclen vecParamsShort (accepted .pktDeclen 8 0x00010206 0 0)) = (0x00020002, 0, 0) := by decide
/-- X3: the context's record. -/
theorem test_pktCreate_X3 :
    (pktCreate vecParams 3 (accepted (.pktCreate 3) 3 0x00010102 0 0)).ctx 3 = ⟨true, 3, 2, 1, 1, 4⟩ := by decide
/-- X5: CTX_RANGE before ILLEGAL_ARG. -/
theorem test_pktCreate_X5 :
    endOf (pktCreate vecParams 15 (accepted (.pktCreate 15) 3 0x01000000 0 0)) = (0x00030504, 0, 15) := by decide
/-- X6: the new record replaces the old one. -/
theorem test_pktReconfig_X6 :
    (pktReconfig vecParams 3 { withCtx (.pktReconfig 3) 0 0 0 [] with eng := engOf (.pktReconfig 3) 16 0x00010102 0 0 }).ctx 3
      = ⟨true, 16, 2, 1, 1, 17⟩ := by decide
/-- X8: an unconfigured context. -/
theorem test_pktReconfig_X8 :
    endOf (pktReconfig vecParams 1 (accepted (.pktReconfig 1) 16 0x00010102 0 0)) = (0x00040604, 0, 1) := by decide
/-- X9: the record is cleared. -/
theorem test_pktDestroy_X9 : (pktDestroy vecParams 3 (withCtx (.pktDestroy 3) 0 0 0 [])).ctx 3 = ⟨false, 0, 0, 0, 0, 0⟩ := by
  decide
/-- E3: the Checksum8 key of FF FF FF. -/
theorem test_pktEncode_E3 :
    (pktEncode vecParams 3 (withCtx (.pktEncode 3) 0x100 0x200 0x100 [0xFF, 0xFF, 0xFF])).memRead vecParams 0x200 5
      = [0xFF, 0xFF, 0xFF, 0x03, 0x00] := by decide
/-- E4: in place. -/
theorem test_pktEncode_E4 :
    (pktEncode vecParams 3 (withCtx (.pktEncode 3) 0x100 0x100 0x100 [1, 2, 3])).memRead vecParams 0x100 5
      = [0x01, 0x02, 0x03, 0xFA, 0x00] := by decide
/-- D1: VALID. -/
theorem test_pktDecode_D1 :
    endOf (pktDecode vecParams 3 (withCtx (.pktDecode 3) 0x200 0x300 0x200 [1, 2, 3, 0xFA])) = (0x0007000A, 1, 0) := by decide
/-- D2: a wrong key is no error. -/
theorem test_pktDecode_D2 :
    endOf (pktDecode vecParams 3 (withCtx (.pktDecode 3) 0x200 0x300 0x200 [1, 2, 3, 0xFB])) = (0x00070002, 0, 0) := by decide
/-- S4: 128 is a 1 bit and the erasure 127 a 0 bit. -/
theorem test_pktDecodeSoft_S4 :
    (pktDecodeSoft vecParams 3 (withCtx (.pktDecodeSoft 3) 0x400 0x300 0x400
      ([0x7F, 0, 0, 0, 0, 0, 0, 0x80] ++ soft [2, 3, 0xFA]))).memRead vecParams 0x300 3 = [1, 2, 3] := by decide
/-- S3: 100 is a 0 bit, so the key does not match. -/
theorem test_pktDecodeSoft_S3 :
    endOf (pktDecodeSoft vecParams 3 (withCtx (.pktDecodeSoft 3) 0x400 0x300 0x400
      ([0, 0, 0, 0, 0, 0, 0, 0x64] ++ soft [2, 3, 0xFA]))) = (0x00080002, 0, 0) := by decide
/-- M2: "hamming74" and its NUL. -/
theorem test_schemeId2name_M2 :
    (schemeId2name vecParams (accepted .schemeId2name 0x102 0 0 0x500)).memRead vecParams 0x500 10
      = [0x68, 0x61, 0x6D, 0x6D, 0x69, 0x6E, 0x67, 0x37, 0x34, 0x00] := by decide
/-- M7: 16 bytes are reserved. -/
theorem test_schemeId2name_M7 :
    endOf (schemeId2name vecParams (accepted .schemeId2name 1 0 0 0xFFFF1)) = (0x00090704, 0, 0xFFFF1) := by decide
/-- M8: "none" of the FEC table. -/
theorem test_schemeName2id_M8 :
    (schemeName2id vecParams ((accepted .schemeName2id 0x100 0 0x600 0).memWrite vecParams 0x600
      [0x6E, 0x6F, 0x6E, 0x65, 0])).regs.result0 = 1 := by decide
/-- M15: the ID field must be 0. -/
theorem test_schemeName2id_M15 :
    endOf (schemeName2id vecParams (accepted .schemeName2id 0x101 0 0x600 0)) = (0x000A0204, 0, 0x101) := by decide

/-- The configuration FX of 95_test_vectors.md L2.5, FS_CTRL, FS_PAY_CFG and FS_OUT_ADDR being given. -/
def fxState (ctrl : BitVec 2) (pay out : Word) : State :=
  { accepted .fsCreate 0 0 0 0 with
    regs := { Regs.reset with
      lastOpc := 0x10, fsCtrl := ctrl, fsHdrCfg := 0x01010102, fsPayCfg := pay, fsPayLen := 4
      fsDetThresh := 0x00010000, fsOutAddr := out } }

/-- C8: the last event area that fits; FS_STATUS is 0x08. -/
theorem test_fsCreate_C8 : fsStatusWord (fsCreate vecParams (fxState 0 0x01010102 0xFFFF4)) = 0x08 := by decide
/-- C10: under FLEX and CONTINUE the default configuration is checked. -/
theorem test_fsCreate_C10 : endOf (fsCreate vecParams (fxState 3 0 0x8000)) = (0x00100304, 0, 0x10000) := by decide
/-- C11: an unconfigured synchronizer. -/
theorem test_fsExecute_C11 :
    endOf (fsExecute vecParams (accepted .fsExecute 1 0 0x1000 0)) = (0x00110904, 0, 0) := by decide
/-- C14: FS.DESTROY; FS_STATUS is 0. -/
theorem test_fsDestroy_C14 :
    fsStatusWord (fsDestroy vecParams { fxState 0 0 0 with fs := { Fs.reset with configured := true } }) = 0 := by decide

/-! ## Steps of the FS engine and of the host -/

/-- The configuration FX, with a given modulation, and what FS.CREATE derives from it: L_h = 8, E_h = 9. -/
def fxCfg (m : Byte) (profile : Profile) (hdrFail : HdrFail) : FsCfg :=
  { profile := profile, hdrFail := hdrFail, hdrEd := 2, hdrInner := 1, hdrOuter := 1, hdrMod := m
    payEd := 2, payInner := 1, payOuter := 1, payMod := m, payLen := 4, thresh := 0x00010000, outAddr := 0x8000
    hdrLen := 8, hdrEncLen := 9 }

/-- ENG in a running FS.EXECUTE. -/
def engRunning : Eng := { engOf .fsExecute 20 0 0x1000 0 with started := true }

/-- FS in the given state of a frame attempt, four bytes received, `n` samples being left at 0x1000. -/
def fsOf (P : BlockParams) (cfg : FsCfg) (tag : FsTag) (n : Word) : Fs :=
  { Fs.reset with
    configured := true, tag := tag, cfg := cfg, fe := P.feInit cfg, acc := soft [0xDE, 0xAD, 0xBE, 0xEF], hdr := [1, 2, 3, 4, 5, 6, 7, 8], hdrValid := true
    cur := ⟨4, cfg.payMod, 2, 1, 1, 5⟩, evtPending := decide (tag = .callback), inFlight := decide (tag ≠ .detect)
    execOff := 0x1000, execLeft := n }

/-- A state with that FS, context 3 configured, and the given ENG. -/
def fsState (P : BlockParams) (cfg : FsCfg) (e : Eng) (tag : FsTag) (n : Word) : State :=
  { (State.reset.setCtx 3 ctxC8) with regs := { Regs.reset with lastOpc := e.opc }, eng := e, fs := fsOf P cfg tag n }

/-- A running FS.EXECUTE of trace T1 with the sample S(v) next and the soft bits of `got` accumulated. -/
def running (cfg : FsCfg) (tag : FsTag) (v : Word) (got : List Byte) : State :=
  { fsState standInParams cfg engRunning tag 2 with
    fs := { fsOf standInParams cfg tag 2 with acc := soft got }
    buf := Memory.writeBytes (fun _ => 0) [] 0x1000 (leBytes 4 v.toNat) }

/-- FX itself. -/
def fx : FsCfg := fxCfg 1 .fixed .abort

/-- The state after a step that answers one. -/
def after (o : Host.Outcome State Fault Refusal) : Option State :=
  match o with
  | .next t => some t
  | .fault _ => none
  | .refused _ => none

/-- T1, step 4: a trigger. -/
theorem test_detect_T1 :
    (after (fsEngineStep vecParams (running fx .detect 0x1000 []))).map (fun t => (t.fs.tag, t.fs.inFlight, t.fs.execLeft))
      = some (.sync, true, 1) := by decide
/-- T1, step 6: SYNC_LEN symbols. -/
theorem test_sync_T1 :
    (after (fsEngineStep vecParams { running fx .sync 0x55 [] with
      fs := { (running fx .sync 0x55 []).fs with symCount := 1 } })).map (fun t => (t.fs.tag, t.fs.symCount, t.fs.acc))
      = some (.rxHeader, 0, []) := by decide
/-- T1, step 15: the header's last byte, valid. -/
theorem test_header_T1 :
    (after (fsEngineStep vecParams (running fx .rxHeader 0xDC [1, 2, 3, 4, 5, 6, 7, 8]))).map
      (fun t => (t.fs.tag, t.fs.hdr, t.fs.hdrValid, t.fs.cur))
      = some (.rxPayload, [1, 2, 3, 4, 5, 6, 7, 8], true, ⟨4, 1, 2, 1, 1, 5⟩) := by decide
/-- F3: an invalid header under ABORT. -/
theorem test_header_F3 :
    (after (fsEngineStep vecParams (running fx .rxHeader 0xDD [1, 2, 3, 4, 5, 6, 7, 8]))).map
      (fun t => (t.fs.tag, t.fs.evtPending)) = some (.reset, false) := by decide
/-- T1, step 20: the event area. -/
theorem test_payload_T1_area :
    (after (fsEngineStep vecParams (running fx .rxPayload 0xC8 [0xDE, 0xAD, 0xBE, 0xEF]))).map
      (fun t => t.memRead vecParams 0x8000 13)
      = some [1, 2, 3, 4, 5, 6, 7, 8, 0xDE, 0xAD, 0xBE, 0xEF, 0] := by decide
/-- T1, step 20 and F2: the event registers and FS_STATUS. -/
theorem test_payload_T1_registers :
    (after (fsEngineStep vecParams (running fx .rxPayload 0xC8 [0xDE, 0xAD, 0xBE, 0xEF]))).map
      (fun t => (fsEvtWord t, t.regs.fsEvtLen, t.regs.statMod, t.regs.statScheme, fsStatusWord t, t.regs.intStatus))
      = some (0x3, 4, 0x00000801, 0x00010102, 0x3C, 0x4) := by decide
/-- T1, the completion: STATUS and FS_STATUS. -/
theorem test_completion_T1 :
    (after (fsEngineStep vecParams (fsState standInParams fx engRunning .detect 0))).map
      (fun t => (statusWord t, fsStatusWord t)) = some (0x00110002, 0x08) := by decide
/-- F8: CMD at a busy engine sets OVR and is dropped. -/
theorem test_overrun_F8 :
    (after (step { fsState standInParams fx engRunning .callback 0 with agenda := [wr 0x010 1] })).map
      (fun t => (t.regs.intStatus, statusWord t)) = some (0x8, 0x00110001) := by decide
/-- I8: the return from the interrupt. -/
theorem test_w1c_I8 :
    (after (step { fsState standInParams fx engRunning .callback 0 with
      regs := { Regs.reset with intStatus := 0x4, intEnable := 0x4 }, agenda := [wr 0x034 4] })).map
      (fun t => (irq t, t.fs.evtPending)) = some (false, true) := by decide
/-- I1: an illegal word. -/
theorem test_illegal_I1 :
    (after (step { State.reset with agenda := [wr 0x010 0x0B] })).map (fun t => (endOf t, t.regs.intStatus))
      = some ((0x000B0104, 0, 0x0B), 0x2) := by decide
/-- X1's CTX_SCHEME and CTX_ENC_LEN as the host reads them, at context 3. -/
theorem test_read_context_registers :
    (after (nextTurn vecParams { State.reset.setCtx 3 ⟨true, 64, 6, 2, 1, 119⟩ with agenda := [rd 0x078] })).map (·.seen)
      = some [0x00010206] := by decide
/-- A command placed by `withFetchWord` is the next thing that runs. -/
theorem test_withFetchWord :
    (after (nextTurn vecParams ({ State.reset with regs := { Regs.reset with arg := ⟨64, 0x00010206, 0, 0⟩ } }.withFetchWord 32 1))).map
      endOf = some (0x00010002, 119, 0) := by decide

/-! ## States that meet the statements' hypotheses

Nothing is known of the block's own parameters but their laws, so a statement about them has its witnesses at the ends that the
parameters give: its last context, its longest message, the end of BUF. A statement about any lawful parameters has its witnesses
on the stand-in instance. -/

/-- The block's last context. -/
def lastCtx : Nat := Config.params.numCtx - 1

/-- MAX_DEC_LEN as a register value, and one more. -/
def maxLen : Word := BitVec.ofNat 32 Config.params.maxDecLen
/-- MAX_DEC_LEN + 1. -/
def overLen : Word := BitVec.ofNat 32 (Config.params.maxDecLen + 1)

/-- The BUF offset from which `n` bytes are left. -/
def atEnd (n : Nat) : Word := BitVec.ofNat 32 (Config.params.bufSize - n)

theorem lastCtx_lt : lastCtx < Config.params.numCtx ∧ lastCtx < 16 ∧ Config.params.numCtx ≤ 16 := by
  have h := params_lawful.numCtx
  unfold lastCtx
  omega

theorem maxDecLen_ok : LengthOk Config.params 1 ∧ LengthOk Config.params maxLen.toNat ∧ ¬LengthOk Config.params overLen.toNat ∧
    ¬LengthOk Config.params 0 := by
  have h := params_lawful.maxDecLen
  unfold maxLen overLen LengthOk
  simp only [BitVec.toNat_ofNat]
  omega

theorem bufSize_bounds : 4096 ≤ Config.params.bufSize ∧ Config.params.bufSize ≤ 2 ^ 31 :=
  ⟨Nat.pow_le_pow_right (by decide : 2 > 0) params_lawful.bufBits.1,
    Nat.pow_le_pow_right (by decide) params_lawful.bufBits.2⟩

theorem atEnd_toNat {n : Nat} (hn : n ≤ 4096) : (atEnd n).toNat = Config.params.bufSize - n := by
  have h := bufSize_bounds
  unfold atEnd
  rw [BitVec.toNat_ofNat]
  omega

theorem inBuf_atEnd {n m : Nat} (hn : n ≤ 4096) : InBuf Config.params (atEnd n) m ↔ m ≤ n := by
  have h := bufSize_bounds
  unfold InBuf
  rw [atEnd_toNat hn]
  omega

/-- The record of a context for one byte, with no coding. -/
def ctx1 : Ctx := ⟨true, 1, 1, 1, 1, 1⟩

/-- The reset state with the last context configured and the given ENG. -/
def ctxState (e : Eng) : State :=
  { State.reset.setCtx lastCtx ctx1 with regs := { Regs.reset with lastOpc := e.opc }, eng := e }

theorem ctxState_ctx (e : Eng) : (ctxState e).ctx lastCtx = ctx1 :=
  (ctx_setCtx State.reset lastCtx ctx1 lastCtx).trans (if_pos ⟨rfl, lastCtx_lt.2.1⟩)

theorem ctxState_inv {e : Eng} (hl : e.busy = true → legal e.word = true) (hs : e.started = false) :
    Inv Config.params (ctxState e) := by
  have hrun : fsRunning (ctxState e) = false := by
    show (e.busy && e.started && _) = false
    rw [hs]; cases e.busy <;> rfl
  refine ⟨fun c hc => ?_, ⟨?_, ?_, ?_, ?_, ?_⟩, ⟨show (0#32).extractLsb' 16 16 = 0#16 by decide,
    show (0#32).extractLsb' 24 8 = 0#8 by decide⟩, ⟨?_, ?_, ?_, ?_, ?_, ?_, ?_, ?_, ?_, ?_, ?_, ?_⟩, ⟨rfl, ?_⟩⟩
  · have hc' : (ctxState e).ctx c = if c = lastCtx ∧ lastCtx < 16 then ctx1 else State.reset.ctx c :=
      ctx_setCtx State.reset lastCtx ctx1 c
    rw [hc']
    split
    · rename_i h
      rw [h.1]
      exact ⟨fun h => (by cases h), fun _ => lastCtx_lt.1, fun _ => maxDecLen_ok.1, fun _ => ⟨rfl, rfl, rfl⟩, fun _ => rfl⟩
    · have h0 : State.reset.ctx c = Ctx.unconfigured := by simp [State.ctx, State.reset, hc]
      rw [h0]
      exact ⟨fun _ => rfl, fun h => (by cases h), fun h => (by cases h), fun h => (by cases h), fun h => (by cases h)⟩
  · exact fun h => by cases h.1
  · exact fun _ => rfl
  · exact fun _ => ⟨rfl, rfl⟩
  · exact fun h => ⟨hl h, rfl⟩
  · exact fun _ h => by rw [show (ctxState e).eng.started = false from hs] at h; cases h
  · exact fun _ => ⟨rfl, rfl, rfl⟩
  · exact fun h => by cases h
  · exact ⟨fun h => (by cases h), fun h => (by cases h)⟩
  · exact ⟨fun _ => rfl, fun _ => rfl⟩
  · exact fun h => by rcases h with h | h <;> cases h
  · exact fun _ => rfl
  · exact Nat.zero_le _
  · exact fun h => by cases h
  · exact fun h => by cases h
  · exact fun h => by cases h
  · exact fun h => by rcases h with h | h <;> cases h
  · exact fun h => by cases h
  · exact fun e he => by cases he

/-- The last context with an accepted coding command, its ranges given. -/
def codingState (i : Nat → Instr) (a2 a3 : Word) : State := ctxState (engOf (i lastCtx) 0 0 a2 a3)

/-- The stand-in instance. -/
abbrev std : Params := Config.withFree standInParams

/-- On the stand-in instance a configured synchronizer in any state of a frame attempt, with context 3 configured, meets the
invariant. -/
theorem fsState_inv {e : Eng} {tag : FsTag} {n : Word} (hl : e.busy = true → legal e.word = true)
    (hs : e.busy = true → e.started = true → e.opc = 0x11#8)
    (hr : tag = .detect ∧ n = 0 ∨ e.busy = true ∧ e.started = true ∧ e.opc = 0x11#8) (hn : n.toNat ≤ 1000) :
    Inv std (fsState standInParams fx e tag n) := by
  have hk : knownMod std 1 = true := rfl
  have hf : feasible std ⟨4, 1, 2, 1, 1⟩ = true := by
    unfold feasible
    simp only [Bool.and_eq_true, decide_eq_true_eq]
    exact ⟨⟨⟨⟨⟨by decide, show 4 ≤ 65535 by decide⟩, rfl⟩, rfl⟩, rfl⟩, hk⟩
  have hrun : ∀ t : State, t.eng = e → (fsRunning t = true ↔ e.busy = true ∧ e.started = true ∧ e.opc = 0x11#8) :=
    fun t ht => by rw [fsRunning_iff, ht]
  refine ⟨fun c hc => ?_, ⟨?_, ?_, ?_, ?_, ?_⟩, ⟨show (0#32).extractLsb' 16 16 = 0#16 by decide,
    show (0#32).extractLsb' 24 8 = 0#8 by decide⟩, ⟨?_, ?_, ?_, ?_, ?_, ?_, ?_, ?_, ?_, ?_, ?_, ?_⟩, ⟨rfl, ?_⟩⟩
  · have hc' : (fsState standInParams fx e tag n).ctx c = if c = 3 ∧ 3 < 16 then ctxC8 else State.reset.ctx c :=
      ctx_setCtx State.reset 3 ctxC8 c
    rw [hc']
    split
    · rename_i h
      rw [h.1]
      exact ⟨fun h => (by cases h), fun _ => (show 3 < 4 by decide), fun _ => ⟨by decide, show 3 ≤ 65535 by decide⟩,
        fun _ => ⟨rfl, rfl, rfl⟩, fun _ => rfl⟩
    · have h0 : State.reset.ctx c = Ctx.unconfigured := by simp [State.ctx, State.reset, hc]
      rw [h0]
      exact ⟨fun _ => rfl, fun h => (by cases h), fun h => (by cases h), fun h => (by cases h), fun h => (by cases h)⟩
  · exact fun h => by cases h.1
  · exact fun _ => rfl
  · exact fun _ => ⟨rfl, rfl⟩
  · exact fun h => ⟨hl h, rfl⟩
  · exact fun h h' => ⟨hs h h', rfl⟩
  · exact fun h => by cases h
  · exact fun _ => ⟨⟨rfl, show 1 ≤ 8 by decide, show 8 ≤ 65535 by decide⟩, ⟨rfl, rfl, rfl, hk⟩, rfl, fun _ => hf,
      show 0x8000 + 8 + 4 ≤ 2 ^ 20 by decide⟩
  · exact decide_eq_true_iff
  · show decide (tag ≠ .detect) = false ↔ tag = .detect
    simp
  · intro h
    rcases hr with ⟨h1, _⟩ | h1
    · subst h1; rcases h with h | h <;> cases h
    · exact (hrun _ rfl).2 h1
  · intro h
    rcases hr with ⟨_, h1⟩ | h1
    · exact h1
    · rw [(hrun _ rfl).2 h1] at h; cases h
  · show 0x1000 + 4 * n.toNat ≤ 2 ^ 20
    omega
  · exact fun _ => Nat.lt_of_lt_of_le (show 0 < 1 by decide) standIn_lawful.syncLen
  · exact fun _ => (show 32 < 8 * 9 by decide)
  · exact fun _ => (show 32 < 8 * 5 by decide)
  · exact fun _ => ⟨⟨hf, rfl, Nat.le_refl 4⟩, rfl⟩
  · exact fun _ => FeReach.init
  · exact fun e he => by cases he

/-! ### The command word and the life of a command -/

theorem witness_DecodeAndEncodeAgree :
    (Instr.pktCreate 15).wellFormed = true ∧ decode 0x00000F08#32 = .ok (.pktDecodeSoft 15) := by decide

theorem witness_DecodeSelectsOneRow :
    decode 0x00000F08#32 = .ok (.pktDecodeSoft 15) ∧ legal 0x00000F09#32 = false := by decide

theorem witness_LegalWords :
    legal 0x00000013#32 = false ∧ State.reset.eng.busy = false ∧
    (Instr.pktCreate Config.params.numCtx).ctx? = some Config.params.numCtx ∧ Config.params.numCtx ≤ Config.params.numCtx :=
  ⟨by decide, rfl, rfl, Nat.le_refl _⟩

theorem witness_ReservedEncodingsAreRefused :
    State.reset.eng.busy = false ∧ legal 0x00000101#32 = false ∧
    [0x00000000#32, 0x0000000B#32, 0x0000000F#32, 0x00000013#32, 0x000000FF#32, 0x00001001#32, 0x80000012#32].all (fun w =>
      decide ((w.extractLsb' 0 8).toNat = 0x00 ∨ (0x0B ≤ (w.extractLsb' 0 8).toNat ∧ (w.extractLsb' 0 8).toNat ≤ 0x0F)
        ∨ 0x13 ≤ (w.extractLsb' 0 8).toNat ∨ w.extractLsb' 12 20 ≠ 0#20)) = true := ⟨rfl, by decide, by rfl⟩

theorem witness_StepRunsTheDecodedCommand :
    (accepted .fsDestroy 0 0 0 0).eng.busy = true ∧ (accepted .fsDestroy 0 0 0 0).eng.started = false ∧
    decode (accepted .fsDestroy 0 0 0 0).eng.word = .ok .fsDestroy ∧ State.reset.agenda = [] ∧
    State.reset.eng.busy = false ∧ decodeTableWord 32 0x00000F03 = some (.pktCreate 15) := by decide

theorem witness_CommandAcceptance :
    State.reset.eng.busy = false ∧ legal 0x00000012#32 = true ∧ (accepted .fsDestroy 0 0 0 0).eng.busy = true := by decide

theorem witness_ErrorsArePrecise : commandError Config.params State.reset .fsExecute = some ⟨.fsState, 0⟩ := by decide

theorem witness_OneExecutionStep :
    State.reset.regs.done = false ∧ State.reset.regs.err = false ∧ Instr.pktEnclen ≠ .fsExecute := by decide

/-! ### The packetizer's commands, at the ends of every range -/

theorem reset_ctx_configured (c : Nat) : (State.reset.ctx c).configured = false := by
  by_cases hc : c < 16
  · simp [State.ctx, State.reset, hc, Ctx.unconfigured]
  · simp [ctx_of_ge State.reset (Nat.le_of_not_lt hc), Ctx.unconfigured]

theorem accepted_ctx_configured (i : Instr) (a0 a1 a2 a3 : Word) (c : Nat) :
    ((accepted i a0 a1 a2 a3).ctx c).configured = false := reset_ctx_configured c

/-- The condition on ARG0 and ARG1 under which the length and context commands complete. -/
abbrev LengthArgsOk (s : State) : Prop :=
  SchemeWordOk Config.params s.eng.arg.a1 ∧ LengthOk Config.params s.eng.arg.a0.toNat

/-- The least and the greatest legal length, and the lengths next to them; a nonzero reserved byte, and an id that is not known. -/
theorem witness_EnclenResult :
    LengthArgsOk (accepted .pktEnclen 1 0x00010101 0 0) ∧ LengthArgsOk (accepted .pktEnclen maxLen 0x00020206 0 0) ∧
    ¬LengthArgsOk (accepted .pktEnclen 0 0x00020206 0 0) ∧ ¬LengthArgsOk (accepted .pktEnclen overLen 0x00020206 0 0) ∧
    ¬LengthArgsOk (accepted .pktEnclen 1 0x01020206 0 0) ∧ ¬LengthArgsOk (accepted .pktEnclen 1 0x00020207 0 0) :=
  have h := maxDecLen_ok
  ⟨⟨by decide, h.1⟩, ⟨by decide, h.2.1⟩, fun x => h.2.2.2 x.2, fun x => h.2.2.1 x.2,
    fun x => absurd x.1.1 (by decide), fun x => absurd x.1.2.1 (by decide)⟩

theorem witness_DeclenResult :
    SchemeWordOk Config.params (accepted .pktDeclen 0 0x00010206 0 0).eng.arg.a1 ∧
    ¬SchemeWordOk Config.params (accepted .pktDeclen 0 0x00000206 0 0).eng.arg.a1 ∧ LengthOk Config.params 1 ∧
    encLen Config.params 1 6 2 1 ≤ 9 := ⟨by decide, by decide, maxDecLen_ok.1, by decide⟩

theorem witness_CreateResult :
    (lastCtx < Config.params.numCtx ∧ LengthArgsOk (accepted (.pktCreate lastCtx) maxLen 0x00020206 0 0) ∧
      ((accepted (.pktCreate lastCtx) maxLen 0x00020206 0 0).ctx lastCtx).configured = false) ∧
    ¬Config.params.numCtx < Config.params.numCtx ∧
    ¬((codingState .pktCreate 0 0).ctx lastCtx).configured = false ∧
    ¬LengthArgsOk (accepted (.pktCreate lastCtx) 0 0x00020206 0 0) :=
  ⟨⟨lastCtx_lt.1, ⟨(by decide : SchemeWordOk Config.params 0x00020206), maxDecLen_ok.2.1⟩, accepted_ctx_configured ..⟩, Nat.lt_irrefl _,
    by rw [codingState, ctxState_ctx]; decide, fun x => maxDecLen_ok.2.2.2 x.2⟩

/-- The last context configured, with an accepted command and its first two arguments. -/
def reconfigState (i : Nat → Instr) (a0 a1 : Word) : State := ctxState (engOf (i lastCtx) a0 a1 0 0)

theorem witness_ReconfigResult :
    (lastCtx < Config.params.numCtx ∧ LengthArgsOk (reconfigState .pktReconfig 1 0x00020206) ∧
      ((reconfigState .pktReconfig 1 0x00020206).ctx lastCtx).configured = true) ∧
    ¬Config.params.numCtx < Config.params.numCtx ∧ ¬(State.reset.ctx lastCtx).configured = true ∧
    ¬LengthArgsOk (reconfigState .pktReconfig overLen 0x00020206) :=
  ⟨⟨lastCtx_lt.1, ⟨(by decide : SchemeWordOk Config.params 0x00020206), maxDecLen_ok.1⟩,
      by rw [reconfigState, ctxState_ctx]; rfl⟩, Nat.lt_irrefl _, by rw [reset_ctx_configured lastCtx]; decide,
    fun x => maxDecLen_ok.2.2.1 x.2⟩

theorem witness_DestroyResult :
    (lastCtx < Config.params.numCtx ∧ ((codingState .pktDestroy 0 0).ctx lastCtx).configured = true) ∧
    ¬(Config.params.numCtx < Config.params.numCtx) ∧ ¬(State.reset.ctx lastCtx).configured = true :=
  ⟨⟨lastCtx_lt.1, by rw [codingState, ctxState_ctx]; rfl⟩, Nat.lt_irrefl _, by rw [reset_ctx_configured lastCtx]; decide⟩

/-- Every word of a command with a context decodes to it. -/
theorem decode_engOf (a0 a1 a2 a3 : Word) : ∀ c : Nat, c < 16 →
    decode (engOf (.pktDestroy c) a0 a1 a2 a3).word = .ok (.pktDestroy c) ∧
    decode (engOf (.pktEncode c) a0 a1 a2 a3).word = .ok (.pktEncode c) ∧
    decode (engOf (.pktDecode c) a0 a1 a2 a3).word = .ok (.pktDecode c) ∧
    decode (engOf (.pktDecodeSoft c) a0 a1 a2 a3).word = .ok (.pktDecodeSoft c) := by
  have h : ∀ c : Fin 16,
      decode (engOf (.pktDestroy c) 0 0 0 0).word = .ok (.pktDestroy c) ∧
      decode (engOf (.pktEncode c) 0 0 0 0).word = .ok (.pktEncode c) ∧
      decode (engOf (.pktDecode c) 0 0 0 0).word = .ok (.pktDecode c) ∧
      decode (engOf (.pktDecodeSoft c) 0 0 0 0).word = .ok (.pktDecodeSoft c) := by decide
  exact fun c hc => h ⟨c, hc⟩

/-- The last context, configured, with a coding command accepted, meets the invariant. -/
theorem codingState_inv {i : Nat → Instr} {a2 a3 : Word} (h : legal (engOf (i lastCtx) 0 0 a2 a3).word = true) :
    Inv Config.params (codingState i a2 a3) := ctxState_inv (fun _ => h) rfl

theorem legal_of_decode {w : Word} {i : Instr} (h : decode w = .ok i) : legal w = true := by simp [legal, h]

/-- The ranges at the end of BUF, and one byte further; the record of the last context is that of one byte with no coding. -/
theorem witness_EncodeResult :
    Inv Config.params (codingState .pktEncode (atEnd 1) (atEnd 1)) ∧
    (codingState .pktEncode (atEnd 1) (atEnd 1)).ctx lastCtx = ctx1 ∧ lastCtx < Config.params.numCtx ∧
    InBuf Config.params (atEnd 1) 1 ∧ ¬InBuf Config.params (atEnd 0) 1 ∧ ¬Config.params.numCtx < Config.params.numCtx :=
  ⟨codingState_inv (legal_of_decode (decode_engOf 0 0 _ _ lastCtx lastCtx_lt.2.1).2.1), ctxState_ctx _, lastCtx_lt.1,
    (inBuf_atEnd (by decide)).2 (Nat.le_refl 1), fun h => absurd ((inBuf_atEnd (by decide)).1 h) (by decide),
    Nat.lt_irrefl _⟩

theorem witness_DecodeResult :
    Inv Config.params (codingState .pktDecode (atEnd 1) (atEnd 1)) ∧
    (codingState .pktDecode (atEnd 1) (atEnd 1)).ctx lastCtx = ctx1 ∧ ctx1.ed = 1#8 ∧ lastCtx < Config.params.numCtx ∧
    InBuf Config.params (atEnd 1) 1 ∧ ¬InBuf Config.params (atEnd 0) 1 :=
  ⟨codingState_inv (legal_of_decode (decode_engOf 0 0 _ _ lastCtx lastCtx_lt.2.1).2.2.1), ctxState_ctx _, rfl, lastCtx_lt.1,
    (inBuf_atEnd (by decide)).2 (Nat.le_refl 1), fun h => absurd ((inBuf_atEnd (by decide)).1 h) (by decide)⟩

theorem witness_DecodeSoftResult :
    Inv Config.params (codingState .pktDecodeSoft (atEnd 8) (atEnd 1)) ∧
    (codingState .pktDecodeSoft (atEnd 8) (atEnd 1)).ctx lastCtx = ctx1 ∧
    (ctx1.ed = 1#8 ∧ ctx1.inner = 1#8 ∧ ctx1.outer = 1#8) ∧ lastCtx < Config.params.numCtx ∧
    InBuf Config.params (atEnd 8) (8 * 1) ∧ InBuf Config.params (atEnd 1) 1 ∧ ¬InBuf Config.params (atEnd 7) (8 * 1) :=
  ⟨codingState_inv (legal_of_decode (decode_engOf 0 0 _ _ lastCtx lastCtx_lt.2.1).2.2.2), ctxState_ctx _, ⟨rfl, rfl, rfl⟩,
    lastCtx_lt.1, (inBuf_atEnd (by decide)).2 (by decide), (inBuf_atEnd (by decide)).2 (Nat.le_refl 1),
    fun h => absurd ((inBuf_atEnd (by decide)).1 h) (by decide)⟩

/-! ### Scheme names -/

theorem witness_Id2nameResult :
    ((accepted .schemeId2name 0x1FF 0 0 (atEnd 16)).eng.arg.a0.extractLsb' 9 23 = 0#23 ∧ InBuf Config.params (atEnd 16) 16) ∧
    (accepted .schemeId2name 0x200 0 0 0).eng.arg.a0.extractLsb' 9 23 ≠ 0#23 ∧ ¬InBuf Config.params (atEnd 15) 16 ∧
    knownEd 7 = false ∧ knownFec Config.params 0 = false :=
  ⟨⟨by decide, (inBuf_atEnd (by decide)).2 (by decide)⟩, by decide,
    fun h => absurd ((inBuf_atEnd (by decide)).1 h) (by decide), by decide, by decide⟩

theorem witness_Id2nameResult_wf :
    Memory.wf ((accepted .schemeId2name 0x1FF 0 0 (atEnd 16)).bufDefault Config.params)
      (accepted .schemeId2name 0x1FF 0 0 (atEnd 16)).buf = true := rfl

/-- The reset state with bytes in BUF and SCHEME.NAME2ID on them accepted. -/
def nameState (bs : List Byte) : State := (accepted .schemeName2id 0x100 0 0x600 0).memWrite Config.params 0x600 bs

theorem nameState_byte (bs : List Byte) {k : Nat} (hk : k < bs.length) :
    (nameState bs).byte Config.params (0x600 + k) = bs.getD k 0 := by
  unfold nameState
  rw [byte_memWrite rfl, if_pos ⟨by omega, by omega⟩, Nat.add_sub_cancel_left]

/-- The first NUL may be the first byte or the last, or there may be none. -/
theorem witness_Name2idResult :
    ((accepted .schemeName2id 0x100 0 (atEnd 16) 0).eng.arg.a0.extractLsb' 9 23 = 0#23 ∧
      (accepted .schemeName2id 0x100 0 (atEnd 16) 0).eng.arg.a0.extractLsb' 0 8 = 0#8 ∧ InBuf Config.params (atEnd 16) 16) ∧
    InBuf Config.params 0x600 16 ∧ ¬InBuf Config.params (atEnd 15) 16 ∧ (0x101#32).extractLsb' 0 8 ≠ 0#8 :=
  ⟨⟨by decide, by decide, (inBuf_atEnd (by decide)).2 (by decide)⟩, Nat.le_trans (by decide) bufSize_bounds.1,
    fun h => absurd ((inBuf_atEnd (by decide)).1 h) (by decide), by decide⟩

theorem witness_Name2idResult_nul_first : (nameState [0]).byte Config.params (0x600 + 0) = 0 :=
  nameState_byte [0] (by decide)

theorem witness_Name2idResult_nul_last :
    (nameState (List.replicate 15 0x61 ++ [0])).byte Config.params (0x600 + 15) = 0 ∧
    ∀ j, j < 15 → (nameState (List.replicate 15 0x61 ++ [0])).byte Config.params (0x600 + j) ≠ 0 := by
  refine ⟨nameState_byte _ (by decide), fun j hj => ?_⟩
  rw [nameState_byte _ (by simp; omega)]
  have h : ∀ j : Fin 15, (List.replicate 15 (0x61 : Byte) ++ [0]).getD j 0 ≠ 0 := by decide
  exact h ⟨j, hj⟩

theorem witness_Name2idResult_no_nul :
    ∀ n, n < 16 → (nameState (List.replicate 16 0x61)).byte Config.params (0x600 + n) ≠ 0 := by
  intro n hn
  rw [nameState_byte _ (by simp; omega)]
  have h : ∀ n : Fin 16, (List.replicate 16 (0x61 : Byte)).getD n 0 ≠ 0 := by decide
  exact h ⟨n, hn⟩

/-! ### The frame synchronizer's commands -/

/-- What FS.CREATE asks of the FS registers, both profiles together. -/
abbrev FsRegsOk (P : Params) (r : Regs) (hdrLen maxPay : Nat) : Prop :=
  (TripleOk P r.fsHdrCfg ∧ knownMod P (swTop r.fsHdrCfg) = true) ∧
  (TripleOk P r.fsPayCfg ∧ knownMod P (swTop r.fsPayCfg) = true ∧ LengthOk P r.fsPayLen.toNat) ∧
  LengthOk P hdrLen ∧ InBuf P r.fsOutAddr (8 + maxPay)

/-- The last event area that fits, in FIXED (vector C8) and in FLEX, on the stand-in instance. -/
theorem witness_FsCreateResult :
    (fxState 0 0x01010102 0xFFFF4).fs.configured = false ∧ FsRegsOk std (fxState 0 0x01010102 0xFFFF4).regs 8 4 ∧
    FsRegsOk std (fxState 1 0x01010102 0xEFFF9).regs 10 65535 := by decide

/-- Each check fails somewhere, in this block too. -/
theorem witness_FsCreateResult_refused :
    ¬{ State.reset with fs := { Fs.reset with configured := true } }.fs.configured = false ∧
    ¬TripleOk Config.params State.reset.regs.fsHdrCfg ∧ ¬InBuf std 0xFFFF5 (8 + 4) ∧ ¬LengthOk std 0 := by decide

/-- A FLEX header length that no register holds, at the least HDR_DESC_LEN that has one. -/
theorem witness_FsCreateResult_wide :
    ¬LengthOk { std with hdrDescLen := 2 ^ 32 - 8 } (8 + (2 ^ 32 - 8)) ∧ ¬8 + (2 ^ 32 - 8) < 2 ^ 32 :=
  ⟨by decide, by decide⟩

/-- FS configured, FS.EXECUTE accepted. -/
def fsAccepted (n src : Word) : State := fsState standInParams fx (engOf .fsExecute n 0 src 0) .detect 0

theorem witness_FsExecuteStarts :
    ((fsAccepted 1 (atEnd 4)).fs.configured = true ∧ (fsAccepted 1 (atEnd 4)).eng.arg.a0 ≠ 0 ∧
      InBuf Config.params (atEnd 4) (4 * 1)) ∧
    (accepted .fsExecute 1 0 0 0).fs.configured = false ∧ (fsAccepted 0 0).eng.arg.a0 = 0 ∧
    ¬InBuf Config.params (atEnd 3) (4 * 1) :=
  ⟨⟨rfl, (by decide : (1 : Word) ≠ 0), (inBuf_atEnd (by decide)).2 (by decide)⟩, rfl, rfl,
    fun h => absurd ((inBuf_atEnd (by decide)).1 h) (by decide)⟩

theorem witness_FsDestroyResult : (fsAccepted 0 0).fs.configured = true ∧ State.reset.fs.configured = false := by decide

/-! ### Coding, lengths and names, on the stand-in instance -/

theorem witness_PacketRoundTrip :
    (Config.withFree standInParams).Lawful ∧ knownEd 6 = true ∧ knownFec (Config.withFree standInParams) 2 = true ∧
    ([0x5A] : List Byte).length = (⟨1, 6, 2, 2⟩ : Pkt).len := ⟨standIn_lawful, rfl, rfl, rfl⟩

theorem witness_SoftAgreesWithHard :
    (Config.withFree standInParams).Lawful ∧ knownEd 6 = true ∧ knownFec (Config.withFree standInParams) 2 = true ∧
    (List.replicate 16 (0 : Byte)).length = encLen (Config.withFree standInParams) 1 6 2 2 := ⟨standIn_lawful, rfl, rfl, rfl⟩

/-- One error in each of two codewords; and, with no outer FEC, one error in the inner code. -/
theorem witness_CorrectableErrorsVanish :
    (Config.withFree standInParams).Lawful ∧
    (fecCodec (Config.withFree standInParams) 2).fixes ((⟨1, 6, 2, 2⟩ : Pkt).innerLen (Config.withFree standInParams)) [0, 7]
      = true ∧
    (⟨1, 6, 2, 1⟩ : Pkt).outer = schemeNone ∧
    (fecCodec (Config.withFree standInParams) 2).fixes (⟨1, 6, 2, 1⟩ : Pkt).keyedLen
      (([⟨69, by decide⟩] : List (Fin (8 * (⟨1, 6, 2, 1⟩ : Pkt).innerLen (Config.withFree standInParams)))).map fun k =>
        (((Config.withFree standInParams).intlv ((⟨1, 6, 2, 1⟩ : Pkt).innerLen (Config.withFree standInParams))).symm k).val)
      = true := ⟨standIn_lawful, rfl, rfl, rfl⟩

theorem witness_EncodeThenDecode :
    Inv Config.params (codingState .pktEncode (atEnd 1) (atEnd 1)) ∧
    (codingState .pktEncode (atEnd 1) (atEnd 1)).ctx lastCtx = ctx1 ∧ lastCtx < Config.params.numCtx ∧
    ctx1.configured = true ∧ InBuf Config.params (atEnd 1) ctx1.len.toNat ∧ InBuf Config.params (atEnd 1) ctx1.enc.toNat :=
  ⟨codingState_inv (legal_of_decode (decode_engOf 0 0 _ _ lastCtx lastCtx_lt.2.1).2.1), ctxState_ctx _, lastCtx_lt.1, rfl,
    (inBuf_atEnd (by decide)).2 (Nat.le_refl 1), (inBuf_atEnd (by decide)).2 (Nat.le_refl 1)⟩

theorem witness_EncodedLengthIsMonotonic :
    (Config.withFree standInParams).Lawful ∧ ((2#8 = 1#8 ∨ 2#8 = 2#8) ∧ (1#8 = 1#8 ∨ 1#8 = 2#8)) ∧ 0 < 1 ∧ 65534 < 65535 :=
  ⟨standIn_lawful, by decide, by decide, by decide⟩

theorem witness_DecodedLengthLeftInverse :
    (Config.withFree standInParams).Lawful ∧ LengthOk (Config.withFree standInParams) 1 ∧
    LengthOk (Config.withFree standInParams) 65535 ∧ 65535 = (Config.withFree standInParams).maxDecLen ∧
    encLen (Config.withFree standInParams) 1 6 2 2 < encLen (Config.withFree standInParams) (1 + 1) 6 2 2 :=
  ⟨standIn_lawful, by decide, by decide, rfl, by decide⟩

/-- PKT.RECONFIG of the last context passes its checks. -/
theorem reconfig_passes {s : State} (ha : s.eng.arg.a0 = 1) (hb : s.eng.arg.a1 = 0x00010102)
    (hc : (s.ctx lastCtx).configured = true) : firstError (pktReconfigChecks Config.params lastCtx s) = none := by
  have ht : TripleOk Config.params 0x00010102 := by decide
  have hl : LengthOk Config.params (1 : Word).toNat := maxDecLen_ok.1
  rw [pktReconfigChecks, configureChecks, ha, hb, hc, ctxRangeCheck_eq, if_pos lastCtx_lt.1, firstError_none_cons,
    show check (decide (swTop 0x00010102 ≠ 0)) .illegalArg 0x00010102 = none by decide, firstError_none_cons, Bool.not_true,
    check_false, firstError_none_cons, firstError_schemeChecks_known ht, lenCheck_eq, if_pos hl]
  rfl

theorem witness_ReconfigIsIdempotent :
    ∃ t u : State, exec (.pktReconfig lastCtx) (reconfigState .pktReconfig 1 0x00010102) = .next t ∧ t.regs.done = true ∧
      (reconfigState .pktReconfig 1 0x00010102).regs.done = false ∧
      exec (.pktReconfig lastCtx) { t with eng := (reconfigState .pktReconfig 1 0x00010102).eng
                                           regs := { t.regs with done := false } } = .next u := by
  refine ⟨_, _, exec_pktReconfig _ _, ?_, rfl, exec_pktReconfig _ _⟩
  rw [runChecked_of_none (reconfig_passes rfl rfl (by rw [reconfigState, ctxState_ctx]; rfl))]
  rfl

theorem witness_NameLookupsAreInverse :
    (Config.withFree standInParams).Lawful ∧ knownScheme (Config.withFree standInParams) true 2 = true ∧
    knownScheme (Config.withFree standInParams) false 6 = true := ⟨standIn_lawful, rfl, rfl⟩

/-- No known scheme has the empty name. -/
theorem witness_NameLookupsAreInverse_no_name (k : Bool) (x : Byte)
    (h : knownScheme (Config.withFree standInParams) k x = true) : schemeName (Config.withFree standInParams) k x ≠ [] := by
  cases k
  · show edName x ≠ []
    unfold edName
    split <;> decide
  · rcases standIn_fec_known h with h | h
    · rw [show x = 1#8 from BitVec.eq_of_toNat_eq h]; decide
    · rw [show x = 2#8 from BitVec.eq_of_toNat_eq h]; decide

/-- An id that is in the registry, on the stand-in with one entry added, and one that is not. -/
theorem witness_SchemeTables :
    7 ≤ (7 : Byte).toNat ∧ 3 ≤ (3 : Byte).toNat ∧ std.fecExtra 3 = none ∧
    ∃ (P : Params) (e : FecEntry), P.fecExtra 3 = some e :=
  ⟨by decide, by decide, rfl,
    { std with fecExtra := fun _ => some ⟨[0x61], fun n => n, standInHamming⟩ }, ⟨[0x61], fun n => n, standInHamming⟩, rfl⟩

/-! ### The frame-synchronizer engine, on the stand-in instance -/

theorem running_canConsume (cfg : FsCfg) (tag : FsTag) (v : Word) (got : List Byte) :
    CanConsume vecParams (running cfg tag v got) := ⟨rfl, (by decide : (2#32 : Word) ≠ 0), (by decide : 0x1000 + 4 ≤ 2 ^ 20)⟩

/-- A front end that gives no event. -/
def quietParams : Params := { vecParams with feStep := fun fe _ _ => (fe, .none) }

theorem witness_FsEnabledStep :
    fsRunning (running fx .sync 0 []) = true ∧ State.reset.eng.busy = false ∧ (running fx .sync 0 []).fs.tag.Consuming ∧
    CanConsume vecParams (running fx .sync 0 []) ∧ (running fx .callback 0 []).fs.tag = .callback ∧
    (running fx .reset 0 []).fs.tag = .reset ∧ (fsState standInParams fx engRunning .rxPayload 0).fs.tag.Consuming ∧
    (fsState standInParams fx engRunning .rxPayload 0).fs.execLeft = 0 :=
  ⟨rfl, rfl, .inr (.inl rfl), running_canConsume .., rfl, rfl, .inr (.inr (.inr rfl)), rfl⟩

theorem witness_DetectStepResult :
    CanConsume vecParams (running fx .detect 0x1000 []) ∧ (running fx .detect 0x1000 []).fs.tag = .detect ∧
    (vecParams.feStep (running fx .detect 0x1000 []).fs.fe (.det (running fx .detect 0x1000 []).fs.cfg.thresh)
      (sampleAt vecParams (running fx .detect 0x1000 []) 0x1000)).2 = .trigger 0 0 ∧
    (vecParams.feStep (running fx .detect 0 []).fs.fe (.det (running fx .detect 0 []).fs.cfg.thresh)
      (sampleAt vecParams (running fx .detect 0 []) 0x1000)).2 = .none :=
  ⟨running_canConsume .., rfl, by decide, by decide⟩

theorem witness_SyncStepResult :
    CanConsume vecParams (running fx .sync 0x55 []) ∧
    (vecParams.feStep (running fx .sync 0x55 []).fs.fe (.sync 0 0) (sampleAt vecParams (running fx .sync 0x55 []) 0x1000)).2
      = .symbol 0x55 ∧
    ((running fx .sync 0x55 []).fs.symCount + 1).toNat ≠ vecParams.syncLen ∧ ((1 : Word) + 1).toNat = vecParams.syncLen ∧
    (quietParams.feStep ⟨0, 0⟩ (.sync 0 0) Sample.zero).2 = .none :=
  ⟨running_canConsume .., by decide, by decide, by decide, rfl⟩

/-- The header step's cases: too few soft bits; enough, with a valid and with an invalid header, under either profile and either
policy. -/
theorem witness_HeaderStepResult :
    CanConsume vecParams (running fx .rxHeader 0xDC [1, 2, 3, 4, 5, 6, 7]) ∧
    (vecParams.feStep ⟨0, 0⟩ (.hdr 1) (sampleAt vecParams (running fx .rxHeader 0xDC []) 0x1000)).2 = .symbol 0xDC ∧
    (soft [1, 2, 3, 4, 5, 6, 7] ++ vecParams.demod 1 0xDC).length < 8 * 9 ∧
    8 * 9 ≤ (soft [1, 2, 3, 4, 5, 6, 7, 8] ++ vecParams.demod 1 0xDC).length ∧
    (decodedHeader vecParams fx (soft [1, 2, 3, 4, 5, 6, 7, 8] ++ vecParams.demod 1 0xDC)).2 = true ∧
    (decodedHeader vecParams fx (soft [1, 2, 3, 4, 5, 6, 7, 8] ++ vecParams.demod 1 0xDD)).2 = false ∧
    fx.profile = .fixed ∧ fx.hdrFail = .abort ∧ (fxCfg 1 .flex .continue).profile = .flex ∧
    (fxCfg 1 .flex .continue).hdrFail = .continue ∧ vecParams.descParse ([1, 2, 3, 4, 5, 6, 7, 8].drop 8) = none ∧
    (quietParams.feStep ⟨0, 0⟩ (.hdr 1) Sample.zero).2 = .none :=
  ⟨running_canConsume .., by decide, by decide, by decide, by decide, by decide, rfl, rfl, rfl, rfl, rfl, rfl⟩

/-- FLEX vectors X1 (feasible) and X2 (a declared length of 0). -/
theorem witness_HeaderStepResult_declared :
    vecParams.descParse (([1, 2, 3, 4, 5, 6, 7, 8, 2, 1].take 10).drop 8) = some ⟨2, 1, 1, 1, 1⟩ ∧
    (LengthOk vecParams 2 ∧ knownEd 1 = true ∧ knownFec vecParams 1 = true ∧ knownMod vecParams 1 = true) ∧
    vecParams.descParse (([1, 2, 3, 4, 5, 6, 7, 8, 0, 2].take 10).drop 8) = some ⟨0, 1, 2, 1, 1⟩ ∧ ¬LengthOk vecParams 0 ∧
    (pktDec vecParams ⟨10, 2, 1, 1⟩ [1, 2, 3, 4, 5, 6, 7, 8, 2, 1, 0xD9]).2 = true := by decide

theorem witness_PayloadStepResult :
    CanConsume vecParams (running fx .rxPayload 0xC8 [0xDE, 0xAD, 0xBE, 0xEF]) ∧
    (vecParams.feStep ⟨0, 0⟩ (.pay 1) (sampleAt vecParams (running fx .rxPayload 0xC8 []) 0x1000)).2 = .symbol 0xC8 ∧
    (soft [0xDE, 0xAD, 0xBE] ++ vecParams.demod 1 0xC8).length < 8 * 5 ∧
    8 * 5 ≤ (soft [0xDE, 0xAD, 0xBE, 0xEF] ++ vecParams.demod 1 0xC8).length ∧ 0x8000 + 8 + 4 ≤ vecParams.bufSize ∧
    (quietParams.feStep ⟨0, 0⟩ (.pay 1) Sample.zero).2 = .none :=
  ⟨running_canConsume .., by decide, by decide, by decide, by decide, rfl⟩

/-- The same with the laws and the invariants, for the clause about the stored bytes. -/
theorem witness_PayloadStepResult_stored :
    ∃ s : State, (Config.withFree standInParams).Lawful ∧ FsOk (Config.withFree standInParams) s ∧
      BufOk (Config.withFree standInParams) s ∧ CanConsume (Config.withFree standInParams) s ∧ s.fs.tag = .rxPayload ∧
      (standInParams.feStep s.fs.fe (.pay s.fs.cur.mod) ⟨0xC8, 0⟩).2 = .symbol 0xC8 ∧
      8 * s.fs.cur.enc ≤ (s.fs.acc ++ standInParams.demod s.fs.cur.mod 0xC8).length ∧
      s.fs.cfg.outAddr.toNat + 8 + s.fs.cur.len ≤ (Config.withFree standInParams).bufSize := by
  have h := fsState_inv (e := engRunning) (tag := .rxPayload) (n := 2) (by decide) (by decide) (.inr (by decide)) (by decide)
  exact ⟨_, standIn_lawful, h.fs, h.buf, ⟨rfl, (by decide : (2#32 : Word) ≠ 0), (by decide : 0x1000 + 4 ≤ 2 ^ 20)⟩, rfl, rfl,
    by decide, by decide⟩

theorem witness_AcknowledgeEndsTheHold :
    std.Lawful ∧ Inv std (fsState standInParams fx engRunning .callback 0) ∧
    (fsState standInParams fx engRunning .callback 0).fs.evtPending = true ∧ State.reset.fs.evtPending = false :=
  ⟨standIn_lawful, fsState_inv (by decide) (by decide) (.inr (by decide)) (by decide), rfl, rfl⟩

theorem witness_ResetStepResult :
    (running fx .reset 0 []).fs.tag = .reset ∧ (Config.withFree standInParams).Lawful ∧
    FeReach standInParams (running fx .reset 0 []).fs.cfg (running fx .reset 0 []).fs.fe := ⟨rfl, standIn_lawful, .init⟩

/-! ### Runs of the frame synchronizer -/

theorem witness_ChunkIndependence :
    let s := fsState standInParams fx Eng.reset .detect 0
    std.Lawful ∧ Inv std s ∧ s.eng.busy = false ∧ s.fs.configured = true ∧ (1 : Word) ≠ 0 ∧
    (0xFFFF8#32).toNat + 4 * ((1 : Word).toNat + (1 : Word).toNat) ≤ std.bufSize :=
  ⟨standIn_lawful, fsState_inv (by decide) (by decide) (.inl ⟨rfl, rfl⟩) (by decide), rfl, rfl, by decide, by decide⟩

theorem witness_SilenceNeverTriggers_create : ∃ t : State,
    std.Lawful ∧ execWith std .fsCreate (fxState 0 0x01010102 0x8000) = .next t ∧
    (fxState 0 0x01010102 0x8000).fs.configured = false ∧ t.fs.configured = true :=
  ⟨_, standIn_lawful, rfl, rfl, by decide⟩

theorem witness_SilenceNeverTriggers_reset : ∃ s t : State, s.fs.tag = .reset ∧
    FeReach standInParams s.fs.cfg s.fs.fe ∧ fsEngineStep std s = .next t :=
  ⟨fsState standInParams fx engRunning .reset 0, _, rfl, .init, rfl⟩

/-- Two silent samples at 0x1000 in a running FS.EXECUTE. -/
def silent : State := (fsState standInParams fx engRunning .detect 2).memWrite std 0x1000
  (List.replicate 8 0)

theorem witness_SilenceNeverTriggers_silent :
    fsRunning silent = true ∧ silent.fs.tag = .detect ∧ silent.fs.evtPending = false ∧
    FeSilent standInParams silent.fs.cfg silent.fs.fe ∧
    silent.fs.execOff.toNat + 4 * silent.fs.execLeft.toNat ≤ std.bufSize ∧
    (∀ a, silent.fs.execOff.toNat ≤ a → a < silent.fs.execOff.toNat + 4 * silent.fs.execLeft.toNat →
      silent.byte std a = 0) ∧ 2 ≤ silent.fs.execLeft.toNat := by
  refine ⟨rfl, rfl, rfl, .init, (by decide : 0x1000 + 4 * 2 ≤ 2 ^ 20), fun a h1 h2 => ?_, (by decide : 2 ≤ 2)⟩
  have h1' : 0x1000 ≤ a := h1
  have h2' : a < 0x1000 + 4 * 2 := h2
  unfold silent
  rw [byte_memWrite rfl, if_pos ⟨h1', by simp only [List.length_replicate]; omega⟩]
  have h : ∀ k : Fin 8, (List.replicate 8 (0 : Byte)).getD k 0 = 0 := by decide
  exact h ⟨a - 0x1000, by omega⟩

theorem witness_ExecuteCompletes :
    std.Lawful ∧ Inv std (fsState standInParams fx engRunning .rxPayload 1) ∧
    fsRunning (fsState standInParams fx engRunning .rxPayload 1) = true :=
  ⟨standIn_lawful, fsState_inv (by decide) (by decide) (.inr (by decide)) (by decide), rfl⟩

theorem witness_ExecuteCompletes_starts :
    let s := fsState standInParams fx (engOf .fsExecute 1 0 0xFFFFC 0) .detect 0
    Inv std s ∧ s.eng.busy = true ∧ s.eng.started = false ∧ decode s.eng.word = .ok .fsExecute ∧
    s.fs.configured = true ∧ s.eng.arg.a0 ≠ 0 ∧ InBuf std s.eng.arg.a2 (4 * s.eng.arg.a0.toNat) :=
  ⟨fsState_inv (by decide) (by decide) (.inl ⟨rfl, rfl⟩) (by decide), rfl, rfl,
    (by decide : decode (engOf .fsExecute 1 0 0xFFFFC 0).word = .ok .fsExecute), rfl, (by decide : (1 : Word) ≠ 0),
    (by decide : 0xFFFFC + 4 * 1 ≤ 2 ^ 20)⟩

/-! ### The invariant, the host's side, and the whole machine -/

/-- PKT.DESTROY of the last context passes its checks. -/
theorem destroy_passes (a2 a3 : Word) :
    firstError (pktDestroyChecks Config.params lastCtx (codingState .pktDestroy a2 a3)) = none := by
  rw [pktDestroyChecks, codingState, ctxState_ctx, ctxRangeCheck_eq, if_pos lastCtx_lt.1]
  rfl

/-- PKT.DESTROY of the last context, run by the machine's step. -/
theorem step_destroy (a2 a3 : Word) :
    step (codingState .pktDestroy a2 a3) = .next (pktDestroyEffect lastCtx (codingState .pktDestroy a2 a3)) := by
  have hd := (decode_engOf 0 0 a2 a3 lastCtx lastCtx_lt.2.1).1
  show executionStep _ _ = _
  unfold executionStep
  rw [show decode (codingState .pktDestroy a2 a3).eng.word = .ok (.pktDestroy lastCtx) from hd]
  show Host.Outcome.next (runChecked _ _ _) = _
  rw [runChecked_of_none (destroy_passes a2 a3)]

/-- A state that meets the invariant and whose step answers a next state; also the witness of NoStepFaults. -/
theorem witness_StepKeepsInv : ∃ s t : State, Inv Config.params s ∧ step s = .next t :=
  ⟨_, _, codingState_inv (legal_of_decode (decode_engOf 0 0 0 0 lastCtx lastCtx_lt.2.1).1), step_destroy 0 0⟩

theorem witness_BufWriteReadsBack :
    Memory.wf (State.reset.bufDefault Config.params) State.reset.buf = true ∧ State.reset.eng.busy = false ∧
    Config.params.bufSize - 4 + Width.b4.bytes ≤ Config.params.bufSize ∧
    Config.params.bufSize - 1 + Width.b1.bytes ≤ Config.params.bufSize ∧ (3 < Width.b4.bytes ∧ 0 < Width.b1.bytes) := by
  have h := bufSize_bounds
  refine ⟨rfl, rfl, ?_, ?_, by decide⟩ <;> simp only [Width.bytes] <;> omega

/-- A running FS.EXECUTE with two samples left at 0x100. -/
def reading : State :=
  { fsState standInParams fx engRunning .detect 2 with
    fs := { (fsState standInParams fx engRunning .detect 2).fs with execOff := 0x100 } }

/-- The host writes the last byte a running FS.EXECUTE still reads, and one byte past it. -/
theorem witness_FootprintRace :
    0x108 + Width.b1.bytes ≤ Config.params.bufSize ∧ reading.fs.evtPending = false ∧ fsRunning reading = true ∧
    (∃ k, k < Width.b1.bytes ∧ ∃ r ∈ runningReads Config.params reading ++ runningWrites Config.params reading,
      r.off ≤ 0x107 + k ∧ 0x107 + k < r.off + r.len) ∧
    (∀ k, k < Width.b1.bytes → ∀ r ∈ runningReads Config.params reading ++ runningWrites Config.params reading,
      ¬(r.off ≤ 0x108 + k ∧ 0x108 + k < r.off + r.len)) ∧
    (fsState standInParams fx engRunning .callback 0).fs.evtPending = true ∧ State.reset.eng.busy = false := by
  refine ⟨Nat.le_trans (by decide) bufSize_bounds.1, rfl, rfl, ⟨0, by decide, ⟨0x100, 8⟩,
    List.mem_append_left _ (List.mem_singleton.2 rfl), by decide, by decide⟩, fun k hk r hr => ?_, rfl, rfl⟩
  have hr' : r = ⟨0x100, 8⟩ ∨ r = ⟨0x8000, 12⟩ := by
    rcases List.mem_append.1 hr with h | h
    · exact .inl (List.mem_singleton.1 h)
    · exact .inr (List.mem_singleton.1 h)
  have hk' : k < 1 := hk
  rcases hr' with h | h <;> subst h <;> simp only [not_and, Nat.not_lt] <;> omega

theorem witness_RegisterAccessForm :
    (Width.b1 ≠ .b4 ∨ 0 % 4 ≠ 0 ∨ 4096 ≤ 0) ∧ (Width.b4 ≠ .b4 ∨ 1 % 4 ≠ 0 ∨ 4096 ≤ 1) ∧
    (Width.b4 ≠ .b4 ∨ 4096 % 4 ≠ 0 ∨ 4096 ≤ 4096) := by decide

/-- The first and the last offset of each unassigned range. -/
theorem witness_UnassignedAndReserved :
    (∀ off ∈ [0x03C, 0x040 + 16 * Config.params.numCtx, 0x1FC, 0x244, 0xFFC], off % 4 = 0 ∧ off < 4096 ∧
      (off = 0x03C ∨ (0x040 + 16 * Config.params.numCtx ≤ off ∧ off < 0x200) ∨ 0x244 ≤ off)) ∧
    Reg.id.access = .ro ∧ Reg.cmd.access = .wo ∧ (∃ s, Inv Config.params s) := by
  refine ⟨fun off h => ?_, rfl, rfl, _, codingState_inv (legal_of_decode (decode_engOf 0 0 0 0 lastCtx lastCtx_lt.2.1).1)⟩
  have hn := lastCtx_lt.2.2
  simp only [List.mem_cons, List.not_mem_nil, or_false] at h
  rcases h with h | h | h | h | h <;> subst h <;> omega

theorem witness_HostReadings : 0x000 % 4 = 0 ∧ 0xFFC % 4 = 0 ∧ 0xFFC < 4096 ∧ lastCtx < Config.params.numCtx :=
  ⟨by decide, by decide, by decide, lastCtx_lt.1⟩

/-- An event held and none, the engine idle and busy, and a read-only register. -/
theorem witness_RegisterWrites :
    State.reset.eng.busy = false ∧ State.reset.fs.evtPending = false ∧
    (fsState standInParams fx engRunning .callback 0).eng.busy = true ∧
    (fsState standInParams fx engRunning .callback 0).fs.evtPending = true ∧
    0x02C % 4 = 0 ∧ 0x02C < 4096 ∧ regAt Config.params 0x02C = some .status ∧ Reg.status.access = .ro :=
  ⟨rfl, rfl, rfl, rfl, by decide, by decide, by decide, rfl⟩

theorem witness_CommandsReadOnlyTheCopies : ∃ t : State, exec .pktEnclen (accepted .pktEnclen 1 0x00010101 0 0) = .next t :=
  ⟨_, exec_pktEnclen _⟩

theorem witness_InterruptOutputAndReturn : (0b1000#4).getLsbD 3 = true := by decide

theorem witness_AccessSideEffects :
    (∃ t u v : State, step { State.reset with agenda := rd 0x02C :: State.reset.agenda } = .next t ∧
      step { State.reset with agenda := .read (.buf 0xFFF) .b1 :: State.reset.agenda } = .next u ∧
      step { State.reset with agenda := .write (.buf 0xFFF) .b1 7 :: State.reset.agenda } = .next v) ∧
    (Reg.arg0 ≠ .cmd ∧ Reg.arg0 ≠ .fsAck ∧ Reg.arg0 ≠ .intStatus ∧ Reg.arg1 ≠ .arg0) := by
  have hb : 0xFFF + Width.b1.bytes ≤ Config.params.bufSize := bufSize_bounds.1
  refine ⟨⟨_, { State.reset.deliver (leWord (hostBytes Config.params State.reset 0xFFF 1)) with free := 1 },
    State.reset.memWrite Config.params 0xFFF (leBytes 1 7), rfl, ?_, ?_⟩, by decide⟩
  · rw [step_turn]
    show hostReadBuf Config.params 0xFFF .b1 State.reset = _
    unfold hostReadBuf
    rw [if_pos hb]
    rfl
  · rw [step_turn]
    show hostWriteBuf Config.params 0xFFF .b1 7 State.reset = _
    unfold hostWriteBuf
    rw [if_pos hb, show writeRaces Config.params State.reset 0xFFF Width.b1.bytes = false by decide]
    rfl

theorem witness_OnlyThreeCommandsChangeContexts : ∃ t : State,
    step (codingState .pktDestroy 0 0) = .next t ∧ t.ctxs ≠ (codingState .pktDestroy 0 0).ctxs := by
  refine ⟨_, step_destroy 0 0, fun h => ?_⟩
  have h1 : ((codingState .pktDestroy 0 0).setCtx lastCtx Ctx.unconfigured).ctx lastCtx = Ctx.unconfigured :=
    (ctx_setCtx _ _ _ _).trans (if_pos ⟨rfl, lastCtx_lt.2.1⟩)
  have h2 := (ctx_congr h lastCtx).symm.trans ((ctx_congr rfl lastCtx).trans h1)
  rw [codingState, ctxState_ctx] at h2
  exact absurd h2 (by decide)

theorem witness_EventRegistersChangeOnlyAtCallback : ∃ s t : State, step s = .next t ∧ t.regs.statNsym ≠ s.regs.statNsym :=
  ⟨{ State.reset with regs := { Regs.reset with statNsym := 5 }, agenda := [.por] }, _, rfl, by decide⟩

theorem witness_InterruptBitsClearedOnlyByHost : ∃ s t : State, step s = .next t ∧ s.regs.intStatus.getLsbD 3 = true ∧
    t.regs.intStatus.getLsbD 3 = false :=
  ⟨{ State.reset with regs := { Regs.reset with intStatus := 0xF }, agenda := [wr 0x034 0x8] }, _, rfl, by decide, by decide⟩

theorem witness_ResultsChangeOnlyAtCompletion : ∃ t : State,
    step (accepted .pktEnclen 1 0x00010101 0 0) = .next t ∧
    t.regs.result0 ≠ (accepted .pktEnclen 1 0x00010101 0 0).regs.result0 := by
  have hc : firstError (pktEnclenChecks Config.params (accepted .pktEnclen 1 0x00010101 0 0)) = none := by
    have ht : TripleOk Config.params (accepted .pktEnclen 1 0x00010101 0 0).eng.arg.a1 := by decide
    have hl : LengthOk Config.params (accepted .pktEnclen 1 0x00010101 0 0).eng.arg.a0.toNat := maxDecLen_ok.1
    rw [pktEnclenChecks, show check (decide (swTop (accepted .pktEnclen 1 0x00010101 0 0).eng.arg.a1 ≠ 0)) .illegalArg
      (accepted .pktEnclen 1 0x00010101 0 0).eng.arg.a1 = none by decide, firstError_none_cons,
      firstError_schemeChecks_known ht, lenCheck_eq, if_pos hl]
    rfl
  refine ⟨_, exec_pktEnclen _, ?_⟩
  rw [runChecked_of_none hc]
  decide

/-- A host write to ARG0, power-on reset, and an FS.DESTROY. -/
theorem witness_BlockLeavesHostRegisters :
    (∃ s t : State, step s = .next t ∧ t.regs.arg ≠ s.regs.arg) ∧ (∃ s t : State, step s = .next t ∧ t.fs.cfg ≠ s.fs.cfg) :=
  ⟨⟨{ State.reset with agenda := [wr 0x014 5] }, _, rfl, by decide⟩,
    ⟨fsState standInParams fx (engOf .fsDestroy 0 0 0 0) .detect 0, _, exec_fsDestroy _, by decide⟩⟩

end Sys2Proof.Tests
end

section
/-! PROOFS. No turn of any agent faults (log 21): under the invariant of FS every MemRead and MemWrite of the FS engine lies in BUF,
since FS.CREATE and FS.EXECUTE checked both ranges (45_frame_sync.md R211, R213), and no other step can fault at all. -/

namespace Sys2Proof.Machine

/-! ## Outcomes that are no fault -/

/-- The outcome is a next state or a refusal. -/
def Faultless (o : Host.Outcome State Fault Refusal) : Prop := ∀ r, o ≠ .fault r

@[simp] theorem faultless_next (s : State) : Faultless (.next s) := nofun

@[simp] theorem faultless_refused (r : Refusal) : Faultless (.refused r) := nofun

theorem faultless_of_next {o : Host.Outcome State Fault Refusal} (h : ∃ t, o = .next t) : Faultless o := by
  obtain ⟨t, rfl⟩ := h
  exact faultless_next t

theorem faultless_requeue_of_next {o : Host.Outcome State Fault Refusal} (h : ∃ t, o = .next t) (turn : Turn) :
    Faultless (requeue turn o) := by
  obtain ⟨t, rfl⟩ := h
  exact faultless_next _

/-! ## What the invariant of FS says of BUF -/

section Ranges
variable {P : Params} {s : State}

theorem FsOk.configured_of_tag (h : FsOk P s) (ht : s.fs.tag ≠ .detect) : s.fs.configured = true := by
  cases hc : s.fs.configured with
  | true => rfl
  | false => exact absurd (h.idle hc).1 ht

/-- A sample left to a running FS.EXECUTE lies in the range that R213 checked. -/
theorem FsOk.canConsume (h : FsOk P s) (hr : fsRunning s = true) (hl : s.fs.execLeft ≠ 0) : CanConsume P s := by
  have hpos : 0 < s.fs.execLeft.toNat := by bv_omega
  have hrange := h.range
  exact ⟨hr, hl, by omega⟩

/-- CALLBACK entry writes inside the event area that R211 checked. -/
theorem FsOk.event_fits (h : FsOk P s) (ht : s.fs.tag = .rxPayload) :
    s.fs.cfg.outAddr.toNat + 8 + s.fs.cur.len ≤ P.bufSize := by
  have hc : s.fs.configured = true := h.configured_of_tag (by simp [ht])
  have harea := (h.cfg hc).area
  have hlen := (h.cur (.inl ht)).1.fits
  omega

/-- No field of FS depends on the host's coming turns. -/
theorem FsOk.withAgenda (h : FsOk P s) (l : List Turn) : FsOk P { s with agenda := l } := { h with }

end Ranges

/-! ## The block's step answers a next state -/

theorem executionStep_next (P : Params) (s : State) : ∃ t, executionStep P s = .next t := by
  rcases executionStep_cases P s with ⟨i, -, hi⟩ | ⟨-, hraise⟩
  · exact hi ▸ execWith_next P i s
  · exact ⟨_, hraise⟩

theorem payloadStep_next {P : Params} {s : State} (h : s.fs.cfg.outAddr.toNat + 8 + s.fs.cur.len ≤ P.bufSize) (x : Sample) :
    ∃ t, payloadStep P x s = .next t := by
  simp only [payloadStep, if_neg (Nat.not_lt.2 h)]
  split
  · split <;> exact ⟨_, rfl⟩
  · exact ⟨_, rfl⟩

theorem applySample_next {P : Params} {s : State}
    (h : s.fs.tag = .rxPayload → s.fs.cfg.outAddr.toNat + 8 + s.fs.cur.len ≤ P.bufSize) (x : Sample) :
    ∃ t, applySample P x s = .next t := by
  unfold applySample
  cases ht : s.fs.tag with
  | rxPayload => exact payloadStep_next (h ht) x
  | detect | sync | rxHeader | callback | reset => exact ⟨_, rfl⟩

theorem sampleStep_next {P : Params} {s : State} (h : FsOk P s) (hr : fsRunning s = true) : ∃ t, sampleStep P s = .next t := by
  by_cases hl : s.fs.execLeft = 0
  · exact ⟨complete s, if_pos hl⟩
  · rw [sampleStep_of_canConsume (h.canConsume hr hl)]
    exact applySample_next (s := consumeSample s) h.event_fits _

theorem fsEngineStep_next {P : Params} {s : State} (h : FsOk P s) (hr : fsRunning s = true) :
    ∃ t, fsEngineStep P s = .next t := by
  unfold fsEngineStep
  cases s.fs.tag with
  | callback | reset => exact ⟨_, rfl⟩
  | detect | sync | rxHeader | rxPayload => exact sampleStep_next h hr

theorem engineStep_next {P : Params} {s : State} (h : FsOk P s) : ∃ t, engineStep P s = .next t := by
  rcases engineStep_cases P s with ⟨-, -, hexec⟩ | ⟨hr, hfs⟩ | ⟨-, -, hidle⟩
  · exact hexec ▸ executionStep_next P s
  · exact hfs ▸ fsEngineStep_next h hr
  · exact ⟨s, hidle⟩

/-! ## The host's turns answer a next state or a refusal -/

theorem hostReadReg_faultless (P : Params) (off : Nat) (w : Width) (s : State) : Faultless (hostReadReg P off w s) := by
  unfold hostReadReg
  split <;> simp

theorem hostWriteReg_faultless (P : Params) (off : Nat) (w : Width) (v : Word) (s : State) :
    Faultless (hostWriteReg P off w v s) := by
  unfold hostWriteReg
  split <;> simp

theorem hostReadBuf_faultless (P : Params) (off : Nat) (w : Width) (s : State) : Faultless (hostReadBuf P off w s) := by
  unfold hostReadBuf
  split <;> simp

theorem hostWriteBuf_faultless (P : Params) (off : Nat) (w : Width) (v : Word) (s : State) :
    Faultless (hostWriteBuf P off w v s) := by
  unfold hostWriteBuf
  split
  · split <;> simp
  · simp

theorem hostRead_faultless (P : Params) (tgt : Target) (w : Width) (s : State) : Faultless (hostRead P tgt w s) := by
  cases tgt with
  | reg off => exact hostReadReg_faultless P off w s
  | buf off => exact hostReadBuf_faultless P off w s
  | addr a =>
    rcases hostRead_addr P a w s with ⟨-, -, hreg⟩ | ⟨-, -, hbuf⟩ | hout
    · exact hreg ▸ hostReadReg_faultless P _ w s
    · exact hbuf ▸ hostReadBuf_faultless P _ w s
    · exact hout ▸ faultless_refused _

theorem hostWrite_faultless (P : Params) (tgt : Target) (w : Width) (v : Word) (s : State) :
    Faultless (hostWrite P tgt w v s) := by
  cases tgt with
  | reg off => exact hostWriteReg_faultless P off w v s
  | buf off => exact hostWriteBuf_faultless P off w v s
  | addr a =>
    rcases hostWrite_addr P a w v s with ⟨-, -, hreg⟩ | ⟨-, -, hbuf⟩ | hout
    · exact hreg ▸ hostWriteReg_faultless P _ w v s
    · exact hbuf ▸ hostWriteBuf_faultless P _ w v s
    · exact hout ▸ faultless_refused _

/-- A poll that is not done runs the block, and so needs the invariant. -/
theorem hostPoll_faultless {P : Params} {s : State} (h : FsOk P s) (off : Nat) (mask v : Word) :
    Faultless (hostPoll P off mask v s) := by
  unfold hostPoll
  split
  · split
    · exact faultless_next s
    · exact faultless_requeue_of_next (engineStep_next h) _
  · exact faultless_refused _

/-! ## Every turn -/

theorem takeTurn_faultless {P : Params} {s : State} (h : FsOk P s) (turn : Turn) : Faultless (takeTurn P turn s) := by
  cases turn with
  | engine => exact faultless_of_next (engineStep_next h)
  | write tgt w v => exact hostWrite_faultless P tgt w v s
  | read tgt w => exact hostRead_faultless P tgt w s
  | poll off mask v => exact hostPoll_faultless h off mask v
  | por => exact faultless_next _

theorem nextTurn_faultless {P : Params} {s : State} (h : FsOk P s) : Faultless (nextTurn P s) := by
  unfold nextTurn
  split
  · exact faultless_of_next (engineStep_next h)
  · exact takeTurn_faultless (h.withAgenda _) _

/-- Settles O45: of the invariant only its part on FS is used, and it excludes the FS engine's two faults. -/
theorem noStepFaults : Obligations.NoStepFaults :=
  fun _ hinv => ⟨nextTurn_faultless hinv.fs, engineStep_next hinv.fs⟩

end Sys2Proof.Machine
end

section
/-! SUPPORT. What a step of the machine can do, by cases: first the block's step, then a turn (00_scope.md R14). Every promise about
all steps is a split along these cases. -/

namespace Sys2Proof.Machine

/-! ## A command's execution step -/

/-- What a command does when every check of its rule passes. -/
def commandEffect (P : Params) (s : State) : Instr → State
  | .pktEnclen => pktEnclenEffect P s
  | .pktDeclen => pktDeclenEffect P s
  | .pktCreate c => configureEffect P c s
  | .pktReconfig c => configureEffect P c s
  | .pktDestroy c => pktDestroyEffect c s
  | .pktEncode c => pktEncodeEffect P c s
  | .pktDecode c => decodedEffect P c (decodedMessage P c s) s
  | .pktDecodeSoft c => decodedEffect P c (softDecodedMessage P c s) s
  | .schemeId2name => schemeId2nameEffect P s
  | .schemeName2id => schemeName2idEffect P s
  | .fsCreate => fsCreateEffect P s
  | .fsExecute => fsExecuteEffect s
  | .fsDestroy => fsDestroyEffect P s

theorem execWith_of_error {P : Params} {i : Instr} {s : State} {e : CmdError} (h : commandError P s i = some e) :
    execWith P i s = .next (raise e s) := by
  cases i <;> exact congrArg Host.Outcome.next (runChecked_of_some h _ _)

theorem execWith_of_ok {P : Params} {i : Instr} {s : State} (h : commandError P s i = none) :
    execWith P i s = .next (commandEffect P s i) := by
  cases i <;> exact congrArg Host.Outcome.next (runChecked_of_none h _ _)

/-! ## A sample -/

/-- `s` with the given state of the front end. -/
def State.withFe (s : State) (fe : FeState) : State := { s with fs := { s.fs with fe := fe } }

/-- The outcomes of consuming a sample, `u` being the state once the front end has seen it (45_frame_sync.md R220 to R227). Which soft
bits a symbol adds is left open: `acc` is what is then accumulated. -/
inductive SampleEffect (P : Params) (u : State) : State → Prop where
  /-- No event of the front end. -/
  | wait : SampleEffect P u u
  | trigger (tau cfo : FeCode) (tag : u.fs.tag = .detect) : SampleEffect P u { u with
      fs := { u.fs with tau := tau, cfo := cfo, symCount := 0, inFlight := true, tag := .sync } }
  | syncSymbol (tag : u.fs.tag = .sync) (not_last : (u.fs.symCount + 1).toNat ≠ P.syncLen) : SampleEffect P u { u with
      fs := { u.fs with symCount := u.fs.symCount + 1 } }
  | synced (tag : u.fs.tag = .sync) (last : (u.fs.symCount + 1).toNat = P.syncLen) : SampleEffect P u { u with
      fs := { u.fs with symCount := 0, acc := [], tag := .rxHeader } }
  | headerSymbol (acc : List Byte) (tag : u.fs.tag = .rxHeader) (short : acc.length < 8 * u.fs.cfg.hdrEncLen) :
      SampleEffect P u { u with fs := { u.fs with acc := acc, symCount := u.fs.symCount + 1 } }
  | header (acc : List Byte) (tag : u.fs.tag = .rxHeader) (enough : 8 * u.fs.cfg.hdrEncLen ≤ acc.length) :
      SampleEffect P u (branch P { u with
        fs := { u.fs with
          hdr := (decodedHeader P u.fs.cfg acc).1, hdrValid := (decodedHeader P u.fs.cfg acc).2, acc := [], symCount := 0 } })
  | payloadSymbol (acc : List Byte) (tag : u.fs.tag = .rxPayload) (short : acc.length < 8 * u.fs.cur.enc) :
      SampleEffect P u { u with fs := { u.fs with acc := acc, paySyms := u.fs.paySyms + 1 } }
  | event (acc : List Byte) (tag : u.fs.tag = .rxPayload) (enough : 8 * u.fs.cur.enc ≤ acc.length)
      (fits : u.fs.cfg.outAddr.toNat + 8 + u.fs.cur.len ≤ P.bufSize) :
      SampleEffect P u (callbackEntry P (pktDecSoft P u.fs.cur.pkt (acc.take (8 * u.fs.cur.enc))).1
        (pktDecSoft P u.fs.cur.pkt (acc.take (8 * u.fs.cur.enc))).2
        { u with fs := { u.fs with acc := acc, paySyms := u.fs.paySyms + 1 } })

section Samples
variable {P : Params} {x : Sample} {s : State}

theorem detectStep_effect (ht : s.fs.tag = .detect) :
    SampleEffect P (s.withFe (P.feStep s.fs.fe (.det s.fs.cfg.thresh) x).1) (detectStep P x s) := by
  simp only [detectStep]
  split
  · exact .trigger _ _ ht
  · exact .wait

theorem syncStep_effect (ht : s.fs.tag = .sync) :
    SampleEffect P (s.withFe (P.feStep s.fs.fe (.sync s.fs.tau s.fs.cfo) x).1) (syncStep P x s) := by
  simp only [syncStep]
  split
  · split
    · exact .synced ht ‹_›
    · exact .syncSymbol ht ‹_›
  · exact .wait

theorem headerStep_effect (ht : s.fs.tag = .rxHeader) :
    SampleEffect P (s.withFe (P.feStep s.fs.fe (.hdr s.fs.cfg.hdrMod) x).1) (headerStep P x s) := by
  simp only [headerStep]
  split
  · split
    · exact .header _ ht ‹_›
    · exact .headerSymbol _ ht (Nat.not_le.1 ‹_›)
  · exact .wait

theorem payloadStep_effect {t : State} (ht : s.fs.tag = .rxPayload) (h : payloadStep P x s = .next t) :
    SampleEffect P (s.withFe (P.feStep s.fs.fe (.pay s.fs.cur.mod) x).1) t := by
  simp only [payloadStep] at h
  split at h
  · split at h
    · split at h
      · cases h
      · cases h; exact .event _ ht ‹_› (Nat.not_lt.1 ‹_›)
    · cases h; exact .payloadSymbol _ ht (Nat.not_le.1 ‹_›)
  · cases h; exact .wait

theorem applySample_effect {t : State} (hc : s.fs.tag.Consuming) (h : applySample P x s = .next t) :
    ∃ m, SampleEffect P (s.withFe (P.feStep s.fs.fe m x).1) t := by
  rcases hc with ht | ht | ht | ht <;> simp only [applySample, ht] at h
  · cases h; exact ⟨_, detectStep_effect ht⟩
  · cases h; exact ⟨_, syncStep_effect ht⟩
  · cases h; exact ⟨_, headerStep_effect ht⟩
  · exact ⟨_, payloadStep_effect ht h⟩

end Samples

/-- BRANCH discards the attempt, or starts a payload: the latched one, where the latched choices allow it, or a feasible declared
one under FLEX (45_frame_sync.md R223). -/
theorem branch_cases (P : Params) (s : State) :
    branch P s = discardAttempt s ∨
    ∃ r, branch P s = startPayload P r s ∧
      ((r = s.fs.cfg.payDecl ∧ (s.fs.cfg.profile = .fixed ∨ s.fs.cfg.hdrFail = .continue)) ∨
        (s.fs.cfg.profile = .flex ∧ feasible P r = true)) := by
  simp only [branch]
  split
  · split
    · exact .inr ⟨_, rfl, .inl ⟨rfl, .inl ‹_›⟩⟩
    · split
      · exact .inl rfl
      · split
        · exact .inr ⟨_, rfl, .inr ⟨‹_›, ‹_›⟩⟩
        · exact .inl rfl
  · split
    · exact .inl rfl
    · exact .inr ⟨_, rfl, .inl ⟨rfl, .inr ‹_›⟩⟩

/-- `t` is `s` but for FS, whose latched configuration is the same. -/
def OnlyFs (s t : State) : Prop :=
  ∃ f : Fs, t = { s with fs := f } ∧ f.cfg = s.fs.cfg ∧ f.configured = s.fs.configured

theorem branch_onlyFs (P : Params) (s : State) : OnlyFs s (branch P s) := by
  rcases branch_cases P s with h | ⟨r, h, -⟩ <;> rw [h] <;> exact ⟨_, rfl, rfl, rfl⟩

/-- Consuming a sample changes FS alone, but where it ends a payload: there CALLBACK entry follows. -/
theorem SampleEffect.frame {P : Params} {u t : State} (h : SampleEffect P u t) :
    OnlyFs u t ∨ (u.fs.tag = .rxPayload ∧ ∃ pl pv v, OnlyFs u v ∧ t = callbackEntry P pl pv v) := by
  cases h with
  | wait | trigger | syncSymbol | synced | headerSymbol | payloadSymbol => exact .inl ⟨_, rfl, rfl, rfl⟩
  | header => exact .inl (branch_onlyFs P _)
  | event acc tag =>
    refine .inr ⟨tag, _, _, _, ?_, rfl⟩
    exact ⟨_, rfl, rfl, rfl⟩

/-! ## The block's step -/

/-- The outcomes of the block's step (60_exceptions.md R266, 45_frame_sync.md R215, R217). -/
inductive BlockEffect (P : Params) (s : State) : State → Prop where
  /-- No step is enabled, or an event is held. -/
  | rest : BlockEffect P s s
  /-- An execution step that raises an error. -/
  | error (e : CmdError) (busy : s.eng.busy = true) (started : s.eng.started = false) : BlockEffect P s (raise e s)
  /-- An execution step whose checks pass. -/
  | command (i : Instr) (busy : s.eng.busy = true) (started : s.eng.started = false) (word : decode s.eng.word = .ok i)
      (passes : commandError P s i = none) : BlockEffect P s (commandEffect P s i)
  /-- The completion step of FS.EXECUTE. -/
  | finish (running : fsRunning s = true) (consuming : s.fs.tag.Consuming) (none_left : s.fs.execLeft = 0) :
      BlockEffect P s (complete s)
  /-- The RESET step of the FS engine. -/
  | restart (running : fsRunning s = true) (tag : s.fs.tag = .reset) : BlockEffect P s (resetStep P s)
  /-- A step of the FS engine that consumes a sample. -/
  | sample (t : State) (m : FeMode) (x : Sample) (running : fsRunning s = true) (left : s.fs.execLeft ≠ 0)
      (effect : SampleEffect P ((consumeSample s).withFe (P.feStep s.fs.fe m x).1) t) : BlockEffect P s t

section Block
variable {P : Params} {s t : State}

theorem executionStep_effect (hb : s.eng.busy = true) (hs : s.eng.started = false) (h : executionStep P s = .next t) :
    BlockEffect P s t := by
  rcases executionStep_cases P s with ⟨i, hi, hexec⟩ | ⟨-, hraise⟩
  · rw [hexec] at h
    cases he : commandError P s i with
    | some e => cases (execWith_of_error he).symm.trans h; exact .error e hb hs
    | none => cases (execWith_of_ok he).symm.trans h; exact .command i hb hs hi he
  · cases hraise.symm.trans h
    exact .error _ hb hs

theorem sampleStep_effect (hr : fsRunning s = true) (hc : s.fs.tag.Consuming) (h : sampleStep P s = .next t) :
    BlockEffect P s t := by
  unfold sampleStep at h
  split at h
  · cases h; exact .finish hr hc ‹_›
  · split at h
    · cases h
    · obtain ⟨m, hm⟩ := applySample_effect (s := consumeSample s) hc h
      exact .sample t m _ hr ‹_› hm

theorem fsEngineStep_effect (hr : fsRunning s = true) (h : fsEngineStep P s = .next t) : BlockEffect P s t := by
  cases ht : s.fs.tag with
  | callback => simp only [fsEngineStep, ht] at h; cases h; exact .rest
  | reset => simp only [fsEngineStep, ht] at h; cases h; exact .restart hr ht
  | detect | sync | rxHeader | rxPayload =>
    have hc : s.fs.tag.Consuming := by simp [FsTag.Consuming, ht]
    exact sampleStep_effect hr hc (fsEngineStep_consuming hc ▸ h)

theorem engineStep_effect (h : engineStep P s = .next t) : BlockEffect P s t := by
  rcases engineStep_cases P s with ⟨hb, hs, hexec⟩ | ⟨hr, hfs⟩ | ⟨-, -, hidle⟩
  · exact executionStep_effect hb hs (hexec ▸ h)
  · exact fsEngineStep_effect hr (hfs ▸ h)
  · cases hidle.symm.trans h; exact .rest

end Block

/-! ## A turn -/

/-- The outcomes of a turn (log 1). The lists and numbers that are left open are the model's own fields. -/
inductive TurnEffect (P : Params) (s : State) : State → Prop where
  | reset (rest : List Turn) (head : s.agenda.head? = some .por) : TurnEffect P s (powerOnReset { s with agenda := rest })
  /-- The block's step: its own turn, or inside a poll that is not done. -/
  | block (before after : List Turn) (u : State) (effect : BlockEffect P { s with agenda := before } u)
      (no_write : ∀ tgt w v, s.agenda.head? ≠ some (.write tgt w v)) : TurnEffect P s { u with agenda := after }
  /-- A host write to a register, by offset or by address. -/
  | register (tgt : Target) (off : Nat) (v : Word) (r : Reg) (rest : List Turn)
      (head : s.agenda.head? = some (.write tgt .b4 v)) (inside : off < 4096)
      (target : tgt = .reg off ∨ tgt = .addr (P.regBase + off)) (reg : regAt P off = some r) :
      TurnEffect P s (writeReg v { s with agenda := rest } r)
  /-- A host write to BUF. -/
  | memory (off : Nat) (w : Width) (v : Word) (rest : List Turn) (fits : off + w.bytes ≤ P.bufSize) :
      TurnEffect P s (State.memWrite P { s with agenda := rest } off (leBytes w.bytes v.toNat))
  /-- A read, a poll that is done, or a write to an unassigned offset. -/
  | host (rest : List Turn) (seen : List Word) (free : Nat) :
      TurnEffect P s { s with agenda := rest, seen := seen, free := free }

section Turns
variable {P : Params} {s t : State} {rest : List Turn} {off : Nat} {w : Width} {v : Word}

theorem hostReadReg_effect (h : hostReadReg P off w { s with agenda := rest } = .next t) : TurnEffect P s t := by
  unfold hostReadReg at h
  split at h <;> cases h
  exact .host rest _ _

theorem hostReadBuf_effect (h : hostReadBuf P off w { s with agenda := rest } = .next t) : TurnEffect P s t := by
  unfold hostReadBuf at h
  split at h <;> cases h
  exact .host rest _ _

theorem hostRead_effect {tgt : Target} (h : hostRead P tgt w { s with agenda := rest } = .next t) : TurnEffect P s t := by
  cases tgt with
  | reg off => exact hostReadReg_effect h
  | buf off => exact hostReadBuf_effect h
  | addr a =>
    rcases hostRead_addr P a w { s with agenda := rest } with ⟨-, -, hreg⟩ | ⟨-, -, hbuf⟩ | hout
    · exact hostReadReg_effect (hreg ▸ h)
    · exact hostReadBuf_effect (hbuf ▸ h)
    · cases hout.symm.trans h

theorem hostWriteReg_effect {tgt : Target} (head : s.agenda.head? = some (.write tgt w v))
    (target : tgt = .reg off ∨ tgt = .addr (P.regBase + off))
    (h : hostWriteReg P off w v { s with agenda := rest } = .next t) : TurnEffect P s t := by
  unfold hostWriteReg at h
  split at h
  · next hok =>
    simp only [regAccessOk, Bool.and_eq_true, decide_eq_true_eq] at hok
    obtain ⟨⟨rfl, -⟩, hoff⟩ := hok
    cases h
    unfold writeOffset
    split
    · exact .register tgt off v _ rest head hoff target ‹_›
    · exact .host rest _ _
  · cases h

theorem hostWriteBuf_effect (h : hostWriteBuf P off w v { s with agenda := rest } = .next t) : TurnEffect P s t := by
  unfold hostWriteBuf at h
  split at h
  · split at h <;> cases h
    exact .memory off w v rest ‹_›
  · cases h

theorem hostWrite_effect {tgt : Target} (head : s.agenda.head? = some (.write tgt w v))
    (h : hostWrite P tgt w v { s with agenda := rest } = .next t) : TurnEffect P s t := by
  cases tgt with
  | reg off => exact hostWriteReg_effect head (.inl rfl) h
  | buf off => exact hostWriteBuf_effect h
  | addr a =>
    rcases hostWrite_addr P a w v { s with agenda := rest } with ⟨hge, -, hreg⟩ | ⟨-, -, hbuf⟩ | hout
    · exact hostWriteReg_effect head (.inr (congrArg Target.addr (Nat.add_sub_cancel' hge).symm)) (hreg ▸ h)
    · exact hostWriteBuf_effect (hbuf ▸ h)
    · cases hout.symm.trans h

theorem hostPoll_effect {mask : Word} (no_write : ∀ tgt w v, s.agenda.head? ≠ some (.write tgt w v))
    (h : hostPoll P off mask v { s with agenda := rest } = .next t) : TurnEffect P s t := by
  unfold hostPoll at h
  split at h
  · split at h
    · cases h; exact .host rest _ _
    · cases hu : engineStep P { s with agenda := rest } with
      | next u => rw [hu] at h; cases h; exact .block rest _ u (engineStep_effect hu) no_write
      | fault r | refused r => rw [hu] at h; cases h
  · cases h

theorem nextTurn_effect (h : nextTurn P s = .next t) : TurnEffect P s t := by
  unfold nextTurn at h
  split at h
  · next hnil => exact .block s.agenda t.agenda t (engineStep_effect h) (by simp [hnil])
  · next turn rest hcons =>
    have head : s.agenda.head? = some turn := by simp [hcons]
    cases turn with
    | engine => exact .block rest t.agenda t (engineStep_effect h) (by simp [head])
    | write tgt w v => exact hostWrite_effect head h
    | read tgt w => exact hostRead_effect h
    | poll off mask v => exact hostPoll_effect (by simp [head]) h
    | por => cases h; exact .reset rest head

theorem step_effect (h : step s = .next t) : TurnEffect Config.params s t := nextTurn_effect h

end Turns

end Sys2Proof.Machine
end

section
/-! PROOFS. Which steps may change a context, an event register, an interrupt bit, a result, a register of the host's, or the latched
configuration (10_state.md R38 to R45, R76 to R79): first what a command and a host write leave as they are, then the promises. -/

namespace Sys2Proof.Machine

/-- FS_EVT, FS_EVT_LEN and the FS_STAT registers. -/
def Regs.events (r : Regs) : Bool × Bool × Word × Word × Word × Word × Word × Word × Word :=
  (r.evtHdrValid, r.evtPayValid, r.fsEvtLen, r.statEvm, r.statRssi, r.statCfo, r.statNsym, r.statMod, r.statScheme)

/-- RESULT0, RESULT1 and STATUS.VALID. -/
def Regs.results (r : Regs) : Word × Word × Bool := (r.result0, r.result1, r.valid)

/-- The registers that only the host writes. -/
def Regs.owned (r : Regs) : Args × BitVec 4 × BitVec 2 × Word × Word × Word × Word × Word :=
  (r.arg, r.intEnable, r.fsCtrl, r.fsHdrCfg, r.fsPayCfg, r.fsPayLen, r.fsDetThresh, r.fsOutAddr)

/-! ## What a command leaves as it is -/

section Commands
variable (P : Params) (s : State) (i : Instr)

theorem commandEffect_events : (commandEffect P s i).regs.events = s.regs.events := by cases i <;> rfl

theorem commandEffect_owned : (commandEffect P s i).regs.owned = s.regs.owned := by cases i <;> rfl

/-- Every command but FS.EXECUTE completes in its execution step (60_exceptions.md R266, 45_frame_sync.md R217). -/
theorem commandEffect_completes (h : i ≠ .fsExecute) :
    (commandEffect P s i).eng.busy = false ∧ (commandEffect P s i).regs.done = true := by
  cases i with
  | fsExecute => exact absurd rfl h
  | _ => exact ⟨rfl, rfl⟩

theorem commandEffect_ctxs : (commandEffect P s i).ctxs = s.ctxs ∨
    ∃ c r, (i = .pktCreate c ∨ i = .pktReconfig c ∨ i = .pktDestroy c) ∧ (commandEffect P s i).ctxs = (s.setCtx c r).ctxs := by
  cases i with
  | pktCreate c => exact .inr ⟨c, _, .inl rfl, rfl⟩
  | pktReconfig c => exact .inr ⟨c, _, .inr (.inl rfl), rfl⟩
  | pktDestroy c => exact .inr ⟨c, _, .inr (.inr rfl), rfl⟩
  | _ => exact .inl rfl

theorem commandEffect_cfg : (commandEffect P s i).fs.cfg = s.fs.cfg ∨ i = .fsCreate ∨ i = .fsDestroy := by
  cases i with
  | fsCreate => exact .inr (.inl rfl)
  | fsDestroy => exact .inr (.inr rfl)
  | _ => exact .inl rfl

/-- FS.EXECUTE, which does not complete in its execution step, leaves the results. -/
theorem commandEffect_results : (commandEffect P s i).regs.results = s.regs.results ∨ i ≠ .fsExecute := by
  cases i with
  | fsExecute => exact .inl rfl
  | _ => exact .inr nofun

/-- RESULT1 and VALID are a decode's alone (10_state.md R39, R40). -/
theorem commandEffect_result1_valid :
    ((commandEffect P s i).regs.result1, (commandEffect P s i).regs.valid) = (s.regs.result1, s.regs.valid) ∨
    ∃ c, i = .pktDecode c ∨ i = .pktDecodeSoft c := by
  cases i with
  | pktDecode c => exact .inr ⟨c, .inl rfl⟩
  | pktDecodeSoft c => exact .inr ⟨c, .inr rfl⟩
  | _ => exact .inl rfl

theorem commandEffect_intStatus : ∃ set, (commandEffect P s i).regs.intStatus = intNext s.regs.intStatus 0 set := by
  cases i with
  | fsExecute => exact ⟨0, by simp [commandEffect, fsExecuteEffect]⟩
  | _ => exact ⟨intDone, rfl⟩

end Commands

/-! ## What a host write leaves as it is -/

/-- What no host write to a register changes. -/
structure HostWriteFrame (s t : State) : Prop where
  ctxs : t.ctxs = s.ctxs
  buf : t.buf = s.buf
  epoch : t.epoch = s.epoch
  cfg : t.fs.cfg = s.fs.cfg
  events : t.regs.events = s.regs.events
  results : t.regs.results = s.regs.results

/-- The outcomes of a write to CMD (60_exceptions.md R266, R267). -/
theorem acceptCommand_cases (w : Word) (s : State) :
    (s.eng.busy = true ∧ acceptCommand w s = overrun s) ∨
    (s.eng.busy = false ∧ legal w = true ∧ acceptCommand w s = latchCommand w (noteCommand w s)) ∨
    (s.eng.busy = false ∧ acceptCommand w s = raise ⟨.illegalCmd, w⟩ (noteCommand w s)) := by
  unfold acceptCommand acceptIdle
  cases s.eng.busy <;> cases legal w <;> simp

theorem acceptCommand_frame (w : Word) (s : State) : HostWriteFrame s (acceptCommand w s) := by
  rcases acceptCommand_cases w s with ⟨-, h⟩ | ⟨-, -, h⟩ | ⟨-, h⟩ <;> rw [h] <;> exact ⟨rfl, rfl, rfl, rfl, rfl, rfl⟩

/-- A write to FS_ACK ends an event hold, or does nothing (45_frame_sync.md R231). -/
theorem acknowledge_cases (s : State) :
    (s.fs.evtPending = true ∧ acknowledge s = { s with fs := { s.fs with evtPending := false, tag := .reset } }) ∨
    acknowledge s = s := by
  unfold acknowledge
  cases s.fs.evtPending <;> simp

theorem acknowledge_frame (s : State) : HostWriteFrame s (acknowledge s) := by
  rcases acknowledge_cases s with ⟨-, h⟩ | h <;> rw [h] <;> exact ⟨rfl, rfl, rfl, rfl, rfl, rfl⟩

theorem writeReg_frame (v : Word) (s : State) (r : Reg) : HostWriteFrame s (writeReg v s r) := by
  cases r with
  | cmd => exact acceptCommand_frame v s
  | fsAck => exact acknowledge_frame s
  | _ => exact ⟨rfl, rfl, rfl, rfl, rfl, rfl⟩

theorem acceptCommand_intStatus (w : Word) (s : State) :
    ∃ set, (acceptCommand w s).regs.intStatus = intNext s.regs.intStatus 0 set := by
  rcases acceptCommand_cases w s with ⟨-, h⟩ | ⟨-, -, h⟩ | ⟨-, h⟩ <;> rw [h]
  · exact ⟨intOvr, rfl⟩
  · exact ⟨0, by simp⟩
  · exact ⟨intErr, rfl⟩

/-- Only the W1C write to INT_STATUS clears an interrupt bit (10_state.md R42). -/
theorem writeReg_intStatus (v : Word) (s : State) (r : Reg) :
    (r = .intStatus ∧ (writeReg v s r).regs.intStatus = intNext s.regs.intStatus (v.extractLsb' 0 4) 0) ∨
    ∃ set, (writeReg v s r).regs.intStatus = intNext s.regs.intStatus 0 set := by
  cases r with
  | cmd => exact .inr (acceptCommand_intStatus v s)
  | fsAck => rcases acknowledge_cases s with ⟨-, h⟩ | h <;> exact .inr ⟨0, by simp [writeReg, h]⟩
  | intStatus => exact .inl ⟨rfl, rfl⟩
  | _ => exact .inr ⟨0, by simp [writeReg]⟩

theorem regAt_eq_intStatus {P : Params} {off : Nat} (h : regAt P off = some .intStatus) : off = 0x034 := by
  unfold regAt at h
  split at h
  · split at h <;> simp at h
  · obtain ⟨l₁, l₂, hl, -⟩ := List.lookup_eq_some_iff.1 h
    have hmap : ∀ p ∈ registerMap, p.2 = .intStatus → p.1 = 0x034 := by decide
    exact hmap (off, .intStatus) (by simp [hl]) rfl

/-! ## What the block's step changes -/

section Block
variable {P : Params} {s t : State}

/-- A context changes only in the effect of its own PKT.CREATE, PKT.RECONFIG or PKT.DESTROY. -/
theorem BlockEffect.ctxs (h : BlockEffect P s t) : t.ctxs = s.ctxs ∨
    ∃ c, (decode s.eng.word = .ok (.pktCreate c) ∨ decode s.eng.word = .ok (.pktReconfig c)
        ∨ decode s.eng.word = .ok (.pktDestroy c)) ∧
      s.eng.busy = true ∧ s.eng.started = false ∧ t.regs.done = true ∧ ∀ x, x ≠ c → t.ctx x = s.ctx x := by
  cases h with
  | command i busy started word =>
    refine (commandEffect_ctxs P s i).imp_right fun ⟨c, r, hi, hset⟩ => ?_
    have hother : ∀ x, x ≠ c → (commandEffect P s i).ctx x = s.ctx x := fun x hx =>
      (ctx_congr hset x).trans ((ctx_setCtx s c r x).trans (if_neg fun h => hx h.1))
    rcases hi with rfl | rfl | rfl
    · exact ⟨c, .inl word, busy, started, rfl, hother⟩
    · exact ⟨c, .inr (.inl word), busy, started, rfl, hother⟩
    · exact ⟨c, .inr (.inr word), busy, started, rfl, hother⟩
  | sample t m x hr hl effect =>
    rcases effect.frame with ⟨f, rfl, -⟩ | ⟨-, pl, pv, v, ⟨f, rfl, -⟩, rfl⟩ <;> exact .inl rfl
  | rest | error | finish | restart => exact .inl rfl

/-- Of the block's steps only CALLBACK entry writes an event register. -/
theorem BlockEffect.events (h : BlockEffect P s t) : t.regs.events = s.regs.events ∨
    (fsRunning s = true ∧ s.fs.tag = .rxPayload ∧ t.fs.tag = .callback ∧ t.fs.evtPending = true ∧
      t.regs.intStatus.getLsbD 2 = true) := by
  cases h with
  | command i => exact .inl (commandEffect_events P s i)
  | sample t m x running left effect =>
    rcases effect.frame with ⟨f, rfl, -⟩ | ⟨tag, pl, pv, v, ⟨f, rfl, -⟩, rfl⟩
    · exact .inl rfl
    · exact .inr ⟨running, tag, rfl, rfl, by simp [callbackEntry, intFrame]⟩
  | rest | error | finish | restart => exact .inl rfl

/-- An error and an FS engine step leave the results, and a command that writes them completes. -/
theorem BlockEffect.results (h : BlockEffect P s t) : t.regs.results = s.regs.results ∨
    ∃ i, decode s.eng.word = .ok i ∧ s.eng.busy = true ∧ s.eng.started = false ∧ t.eng.busy = false ∧ t.regs.done = true ∧
      ((t.regs.result1, t.regs.valid) ≠ (s.regs.result1, s.regs.valid) → ∃ c, i = .pktDecode c ∨ i = .pktDecodeSoft c) := by
  cases h with
  | command i busy started word =>
    refine (commandEffect_results P s i).imp_right fun hi => ?_
    obtain ⟨hidle, hdone⟩ := commandEffect_completes P s i hi
    exact ⟨i, word, busy, started, hidle, hdone, (commandEffect_result1_valid P s i).resolve_left⟩
  | sample t m x hr hl effect =>
    rcases effect.frame with ⟨f, rfl, -⟩ | ⟨-, pl, pv, v, ⟨f, rfl, -⟩, rfl⟩ <;> exact .inl rfl
  | rest | error | finish | restart => exact .inl rfl

/-- No step of the block clears an interrupt bit. -/
theorem BlockEffect.intStatus (h : BlockEffect P s t) : ∃ set, t.regs.intStatus = intNext s.regs.intStatus 0 set := by
  cases h with
  | rest | restart => exact ⟨0, by simp [resetStep]⟩
  | error => exact ⟨intErr, rfl⟩
  | command i => exact commandEffect_intStatus P s i
  | finish => exact ⟨intDone, rfl⟩
  | sample t m x hr hl effect =>
    rcases effect.frame with ⟨f, rfl, -⟩ | ⟨-, pl, pv, v, ⟨f, rfl, -⟩, rfl⟩
    · exact ⟨0, by simp [State.withFe]⟩
    · exact ⟨intFrame, rfl⟩

/-- The block leaves the host's registers as they are (10_state.md R38). -/
theorem BlockEffect.owned (h : BlockEffect P s t) : t.regs.owned = s.regs.owned := by
  cases h with
  | command i => exact commandEffect_owned P s i
  | sample t m x hr hl effect =>
    rcases effect.frame with ⟨f, rfl, -⟩ | ⟨-, pl, pv, v, ⟨f, rfl, -⟩, rfl⟩ <;> rfl
  | rest | error | finish | restart => rfl

/-- The block changes the latched configuration only in FS.CREATE and FS.DESTROY, which complete (10_state.md R78, R79). -/
theorem BlockEffect.cfg (h : BlockEffect P s t) : t.fs.cfg = s.fs.cfg ∨
    ((decode s.eng.word = .ok .fsCreate ∨ decode s.eng.word = .ok .fsDestroy) ∧
      s.eng.busy = true ∧ s.eng.started = false ∧ t.eng.busy = false ∧ t.regs.done = true) := by
  cases h with
  | command i busy started word =>
    rcases commandEffect_cfg P s i with hsame | rfl | rfl
    · exact .inl hsame
    · exact .inr ⟨.inl word, busy, started, rfl, rfl⟩
    · exact .inr ⟨.inr word, busy, started, rfl, rfl⟩
  | sample t m x hr hl effect =>
    rcases effect.frame with ⟨f, rfl, hcfg, -⟩ | ⟨-, pl, pv, v, ⟨f, rfl, hcfg, -⟩, rfl⟩ <;> exact .inl hcfg
  | rest | error | finish | restart => exact .inl rfl

end Block

/-! ## The promises -/

/-- Settles O56: by `BlockEffect.ctxs`; no host write changes a context. -/
theorem onlyThreeCommandsChangeContexts : Obligations.OnlyThreeCommandsChangeContexts := by
  intro s t hstep hne
  cases step_effect hstep with
  | reset rest head => exact .inl head
  | block before after u effect => exact .inr (effect.ctxs.resolve_left hne)
  | register tgt off v r rest => exact absurd (writeReg_frame v _ r).ctxs hne
  | memory | host => exact absurd rfl hne

/-- Settles O57: by `BlockEffect.events`; no host write changes an event register. -/
theorem eventRegistersChangeOnlyAtCallback : Obligations.EventRegistersChangeOnlyAtCallback := by
  intro s t hstep hne
  change t.regs.events ≠ s.regs.events at hne
  cases step_effect hstep with
  | reset rest head => exact .inl head
  | block before after u effect => exact .inr (effect.events.resolve_left hne)
  | register tgt off v r rest => exact absurd (writeReg_frame v _ r).events hne
  | memory | host => exact absurd rfl hne

/-- Settles O58: every step but power-on reset and the W1C write to INT_STATUS updates it by `intNext` with nothing to clear. -/
theorem interruptBitsClearedOnlyByHost : Obligations.InterruptBitsClearedOnlyByHost := by
  intro s t k hstep hone hzero
  have hclears : ¬∃ set, t.regs.intStatus = intNext s.regs.intStatus 0 set := by
    rintro ⟨set, h⟩
    simp [h, hone] at hzero
  cases step_effect hstep with
  | reset rest head => exact .inl head
  | block before after u effect => exact absurd effect.intStatus hclears
  | register tgt off v r rest head inside target reg =>
    obtain ⟨rfl, hw1c⟩ := (writeReg_intStatus v { s with agenda := rest } r).resolve_right hclears
    obtain rfl := regAt_eq_intStatus reg
    have hk : k < 4 := BitVec.lt_of_getLsbD hone
    have hbit : v.getLsbD k = true := by
      rw [hw1c, intNext_set_wins] at hzero
      simpa [hone, hk] using hzero
    exact .inr ⟨tgt, v, head, hbit, target⟩
  | memory | host => exact absurd ⟨0, by simp⟩ hclears

/-- Settles O59: by `BlockEffect.results`; no host write changes a result. -/
theorem resultsChangeOnlyAtCompletion : Obligations.ResultsChangeOnlyAtCompletion := by
  intro s t hstep hne
  change t.regs.results ≠ s.regs.results at hne
  cases step_effect hstep with
  | reset rest head => exact .inl head
  | block before after u effect => exact .inr (effect.results.resolve_left hne)
  | register tgt off v r rest => exact absurd (writeReg_frame v _ r).results hne
  | memory | host => exact absurd rfl hne

/-- Settles O60: of the host's registers by `BlockEffect.owned`, of the latched configuration by `BlockEffect.cfg`. -/
theorem blockLeavesHostRegisters : Obligations.BlockLeavesHostRegisters := by
  intro s t hstep
  change (t.regs.owned ≠ s.regs.owned → _) ∧ _
  cases step_effect hstep with
  | reset rest head => exact ⟨fun _ => .inl head, fun _ => .inl head⟩
  | block before after u effect no_write =>
    refine ⟨fun hne => absurd effect.owned hne, fun hne => ?_⟩
    obtain ⟨hi, busy, started, hidle, hdone⟩ := effect.cfg.resolve_left hne
    exact .inr ⟨hi, busy, started, hidle, hdone, no_write⟩
  | register tgt off v r rest head inside target =>
    exact ⟨fun _ => .inr ⟨tgt, off, v, head, inside, target⟩, fun hne => absurd (writeReg_frame v _ r).cfg hne⟩
  | memory | host => exact ⟨fun hne => absurd rfl hne, fun hne => absurd rfl hne⟩

end Sys2Proof.Machine
end

section
/-! PROOFS. The register map's unassigned offsets and reserved fields (10_state.md R32, R33), and the commands' blindness to the
argument registers (R38). -/

namespace Sys2Proof.Machine

/-! ## Unassigned offsets -/

/-- The registers outside the context block lie at 0x000 to 0x038 and at 0x200 to 0x240. -/
theorem registerMap_offsets : ∀ p ∈ registerMap, p.1 ≤ 0x038 ∨ (0x200 ≤ p.1 ∧ p.1 ≤ 0x240) := by decide

theorem regAt_unassigned {P : Params} (hP : P.numCtx ≤ 16) {off : Nat}
    (h : off = 0x03C ∨ (0x040 + 16 * P.numCtx ≤ off ∧ off < 0x200) ∨ 0x244 ≤ off) : regAt P off = none := by
  unfold regAt
  rw [if_neg (by omega), List.lookup_eq_none_iff]
  intro p hp
  have hne : off ≠ p.1 := by
    have := registerMap_offsets p hp
    omega
  simpa using hne

theorem readOffset_unassigned {P : Params} {off : Nat} (h : regAt P off = none) (s : State) : readOffset P s off = 0 := by
  simp [readOffset, h]

theorem writeOffset_unassigned {P : Params} {off : Nat} (h : regAt P off = none) (s : State) (v : Word) :
    writeOffset P s off v = s := by simp [writeOffset, h]

theorem regAccessOk_b4 {off : Nat} (h4 : off % 4 = 0) (hlt : off < 4096) : regAccessOk off .b4 = true := by
  simp [regAccessOk, h4, hlt]

theorem step_rd {off : Nat} (h4 : off % 4 = 0) (hlt : off < 4096) (s : State) :
    step { s with agenda := rd off :: s.agenda } = .next (s.deliver (readOffset Config.params s off)) :=
  hostReadReg_ok (regAccessOk_b4 h4 hlt) s

theorem step_wr {off : Nat} (h4 : off % 4 = 0) (hlt : off < 4096) (v : Word) (s : State) :
    step { s with agenda := wr off v :: s.agenda } = .next (writeOffset Config.params s off v) :=
  hostWriteReg_ok (regAccessOk_b4 h4 hlt) v s

/-! ## Read-only and write-only registers -/

theorem writeReg_ro {r : Reg} (h : r.access = .ro) (v : Word) (s : State) : writeReg v s r = s := by
  cases r with
  | cmd | arg0 | arg1 | arg2 | arg3 | intStatus | intEnable | fsCtrl | fsHdrCfg | fsPayCfg | fsPayLen | fsDetThresh | fsOutAddr
  | fsAck => cases h
  | _ => rfl

theorem readReg_wo (P : Params) {r : Reg} (h : r.access = .wo) (s : State) : readReg P s r = 0 := by
  cases r with
  | cmd | fsAck => rfl
  | _ => cases h

/-! ## Reserved fields -/

/-- A field above the low part of a concatenation is a field of its high part. -/
theorem extractLsb'_append_high {v w start len : Nat} {hi : BitVec v} {lo : BitVec w} {x : BitVec len} (h : w ≤ start)
    (hx : hi.extractLsb' (start - w) len = x) : (hi ++ lo).extractLsb' start len = x :=
  (BitVec.extractLsb'_append_eq_of_le h).trans hx

section Reserved
variable (P : Params) (s : State)

theorem version_reserved : (readReg P s .version).extractLsb' 8 24 = 0#24 := show versionValue.extractLsb' 8 24 = 0#24 by decide

theorem caps_reserved : (readReg P s .caps).extractLsb' 16 16 = 0#16 :=
  extractLsb'_append_high (by decide) BitVec.extractLsb'_append_eq_left

theorem status_reserved : (readReg P s .status).extractLsb' 4 4 = 0#4 ∧ (readReg P s .status).extractLsb' 24 8 = 0#8 := by
  constructor
  · iterate 4 apply extractLsb'_append_high (by decide)
    exact BitVec.extractLsb'_append_eq_right
  · iterate 6 apply extractLsb'_append_high (by decide)
    exact BitVec.extractLsb'_append_eq_left

theorem intStatus_reserved : (readReg P s .intStatus).extractLsb' 4 28 = 0#28 := BitVec.extractLsb'_append_eq_left

theorem intEnable_reserved : (readReg P s .intEnable).extractLsb' 4 28 = 0#28 := BitVec.extractLsb'_append_eq_left

theorem ctxState_reserved (c : Nat) : (readReg P s (.ctxState c)).extractLsb' 1 31 = 0#31 := by
  simp only [readReg, flagWord]
  split <;> decide

theorem schemeWord_reserved (ed inner outer : Byte) : (schemeWord ed inner outer).extractLsb' 24 8 = 0#8 :=
  extractLsb'_append_high (by decide) (extractLsb'_append_high (by decide) BitVec.extractLsb'_append_eq_left)

theorem fsCtrl_reserved : (readReg P s .fsCtrl).extractLsb' 2 30 = 0#30 := BitVec.extractLsb'_append_eq_left

theorem fsStatus_reserved : (readReg P s .fsStatus).extractLsb' 6 26 = 0#26 := by
  iterate 3 apply extractLsb'_append_high (by decide)
  exact BitVec.extractLsb'_append_eq_left

theorem fsEvt_reserved : (readReg P s .fsEvt).extractLsb' 2 30 = 0#30 :=
  extractLsb'_append_high (by decide) BitVec.extractLsb'_append_eq_left

end Reserved

/-- Settles O50: the map assigns nothing at the offsets between and past its blocks; the reserved fields are the zero parts of the
words read, and of FS_STAT_MOD and FS_STAT_SCHEME the invariant's `StatsOk`. -/
theorem unassignedAndReserved : Obligations.UnassignedAndReserved := by
  refine ⟨fun s off v h4 hlt hoff => ?_, fun s r v h => writeReg_ro h v s, fun s r h => readReg_wo _ h s, fun s hinv => ?_,
    fun s v => ⟨rfl, rfl⟩⟩
  · have hnone := regAt_unassigned params_lawful.numCtx.2 hoff
    exact ⟨by rw [step_rd h4 hlt, readOffset_unassigned hnone]; rfl, by rw [step_wr h4 hlt, writeOffset_unassigned hnone]⟩
  · obtain ⟨hlow, hhigh⟩ := status_reserved Config.params s
    exact ⟨version_reserved _ s, caps_reserved _ s, hlow, hhigh, intStatus_reserved _ s, intEnable_reserved _ s,
      fun c => ⟨ctxState_reserved _ s c, schemeWord_reserved _ _ _⟩, fsCtrl_reserved _ s, fsStatus_reserved _ s,
      fsEvt_reserved _ s, hinv.stats.mod, hinv.stats.scheme⟩

/-! ## The argument registers -/

/-- `s` with other values in ARG0 to ARG3. -/
def State.withArgs (s : State) (a : Args) : State := { s with regs := { s.regs with arg := a } }

section Arguments
variable (P : Params) (s : State) (a : Args) (i : Instr)

theorem commandError_withArgs : commandError P (s.withArgs a) i = commandError P s i := by cases i <;> rfl

theorem commandEffect_withArgs : commandEffect P (s.withArgs a) i = (commandEffect P s i).withArgs a := by cases i <;> rfl

theorem raise_withArgs (e : CmdError) : raise e (s.withArgs a) = (raise e s).withArgs a := rfl

theorem commandEffect_arg : (commandEffect P s i).regs.arg = s.regs.arg := by cases i <;> rfl

end Arguments

/-- Settles O53: neither the checks nor the effect of a command look at ARG0 to ARG3 or write them. -/
theorem commandsReadOnlyTheCopies : Obligations.CommandsReadOnlyTheCopies := by
  intro i s t a h
  rw [exec_eq] at h
  change _ ∧ exec i (s.withArgs a) = .next (t.withArgs a)
  rw [exec_eq]
  cases he : commandError Config.params s i with
  | some e =>
    cases (execWith_of_error he).symm.trans h
    have he' := (commandError_withArgs _ s a i).trans he
    exact ⟨rfl, (execWith_of_error he').trans (congrArg _ (raise_withArgs s a e))⟩
  | none =>
    cases (execWith_of_ok he).symm.trans h
    have he' := (commandError_withArgs _ s a i).trans he
    exact ⟨commandEffect_arg _ s i, (execWith_of_ok he').trans (congrArg _ (commandEffect_withArgs _ s a i))⟩

end Sys2Proof.Machine
end

section
/-! SUPPORT. What the passed checks of a command say, and the lengths of what the commands and the FS engine write to BUF: what keeps
the invariant (60_exceptions.md R263, R265). -/

namespace Sys2Proof.Machine

/-! ## Passed checks -/

section Checks
variable {P : Params}

theorem firstError_cons_none_iff (c : Option CmdError) (l : List (Option CmdError)) :
    firstError (c :: l) = none ↔ c = none ∧ firstError l = none := by cases c <;> simp

theorem firstError_append_none_iff (l l' : List (Option CmdError)) :
    firstError (l ++ l') = none ↔ firstError l = none ∧ firstError l' = none := by
  rw [firstError_append, Option.or_eq_none_iff]

theorem firstError_schemeChecks_none_iff (which : Nat) (sw : Word) :
    firstError (schemeChecks P which sw) = none ↔ TripleOk P sw := by
  simp [schemeChecks, firstError_cons_none_iff, TripleOk]

theorem lenCheck_none_iff (n : Nat) : lenCheck P n = none ↔ LengthOk P n := by simp [lenCheck_eq]

theorem rangeCheck_none_iff (off : Word) (n : Nat) : rangeCheck P off n = none ↔ InBuf P off n := by simp [rangeCheck_eq]

theorem modCheck_none_iff (which : Nat) (m : Byte) : modCheck P which m = none ↔ knownMod P m = true := by simp [modCheck_eq]

theorem ctxRangeCheck_none_iff (c : Nat) : ctxRangeCheck P c = none ↔ c < P.numCtx := by simp [ctxRangeCheck_eq]

theorem configureChecks_passed {bad : Bool} {c : Nat} {s : State} (h : firstError (configureChecks P bad c s) = none) :
    c < P.numCtx ∧ TripleOk P s.eng.arg.a1 ∧ LengthOk P s.eng.arg.a0.toNat := by
  simp only [configureChecks, firstError_cons_none_iff, firstError_append_none_iff, firstError_schemeChecks_none_iff,
    lenCheck_none_iff, ctxRangeCheck_none_iff] at h
  obtain ⟨hc, -, -, hsw, hlen, -⟩ := h
  exact ⟨hc, hsw, hlen⟩

theorem codingChecks_passed {c srcLen dstLen : Nat} {s : State} (h : firstError (codingChecks P c srcLen dstLen s) = none) :
    c < P.numCtx ∧ (s.ctx c).configured = true ∧ InBuf P s.eng.arg.a3 dstLen := by
  simp only [codingChecks, firstError_cons_none_iff, rangeCheck_none_iff, ctxRangeCheck_none_iff, check_none_iff,
    Bool.not_eq_eq_eq_not, Bool.not_false] at h
  obtain ⟨hc, hconf, -, hdst, -⟩ := h
  exact ⟨hc, hconf, hdst⟩

theorem schemeId2nameChecks_passed {s : State} (h : firstError (schemeId2nameChecks P s) = none) :
    InBuf P s.eng.arg.a3 16 := by
  simp only [schemeId2nameChecks, firstError_cons_none_iff, rangeCheck_none_iff] at h
  exact h.2.1

theorem fsExecuteChecks_passed {s : State} (h : firstError (fsExecuteChecks P s) = none) :
    s.fs.configured = true ∧ InBuf P s.eng.arg.a2 (4 * s.eng.arg.a0.toNat) := by
  simp only [fsExecuteChecks, firstError_cons_none_iff, rangeCheck_none_iff, check_none_iff, Bool.not_eq_eq_eq_not,
    Bool.not_false] at h
  obtain ⟨hconf, -, hsrc, -⟩ := h
  exact ⟨hconf, hsrc⟩

theorem feasible_iff (r : Decl) : feasible P r = true ↔
    LengthOk P r.len ∧ knownEd r.ed = true ∧ knownFec P r.inner = true ∧ knownFec P r.outer = true ∧ knownMod P r.mod = true := by
  simp [feasible, and_assoc]

/-- The conditional checks of FS.CREATE's payload word (45_frame_sync.md R211). -/
theorem payChecks_passed {r : Regs} (huse : usesPayConfig r.fsCtrl = true)
    (h : firstError (if usesPayConfig r.fsCtrl then
      schemeChecks P 1 r.fsPayCfg ++ [modCheck P 1 (swTop r.fsPayCfg), lenCheck P r.fsPayLen.toNat] else []) = none) :
    feasible P (latchedCfg P r).payDecl = true := by
  simp only [huse, if_true, firstError_append_none_iff, firstError_cons_none_iff, firstError_schemeChecks_none_iff,
    modCheck_none_iff, lenCheck_none_iff] at h
  obtain ⟨⟨hed, hinner, houter⟩, hmod, hlen, -⟩ := h
  exact (feasible_iff _).2 ⟨hlen, hed, hinner, houter, hmod⟩

/-- What FS.CREATE latches it has checked. -/
theorem fsCreateChecks_passed {s : State} (h : firstError (fsCreateChecks P s) = none) : FsCfgOk P (latchedCfg P s.regs) := by
  simp only [fsCreateChecks, firstError_append_none_iff, firstError_cons_none_iff] at h
  obtain ⟨-, ⟨⟨hscheme, hmod, -⟩, hpay⟩, hlen, harea, -⟩ := h
  obtain ⟨hed, hinner, houter⟩ := (firstError_schemeChecks_none_iff _ _).1 hscheme
  have harea := (rangeCheck_none_iff _ _).1 harea
  exact {
    hdrLen := ⟨rfl, (lenCheck_none_iff _).1 hlen⟩
    hdrKnown := ⟨hed, hinner, houter, (modCheck_none_iff _ _).1 hmod⟩
    hdrEnc := rfl
    pay := fun huse => payChecks_passed (by simpa [usesPayConfig, latchedCfg] using huse) hpay
    area := (Nat.add_assoc _ _ _).trans_le harea }

end Checks

/-! ## Lengths -/

theorem pktSplit_length_le (P : Params) (p : Pkt) (a : List Byte) : (pktSplit P p a).1.length ≤ p.len := List.length_take_le ..

theorem edName_length_le (id : Byte) : (edName id).length ≤ 15 := by
  unfold edName
  split <;> decide

section Lengths
variable {P : Params} (hP : P.Lawful) {p : Pkt}
include hP

/-- ENC answers E bytes (41_packetizer_coding.md R166). -/
theorem pktEnc_length (ho : knownFec P p.outer = true) (m : List Byte) : (pktEnc P p m).length = p.encodedLen P := by
  rw [pktEnc, fecEnc, (fecCodec_lawful hP ho).enc_length, ilv_length]
  rfl

/-- DEC answers L bytes (41_packetizer_coding.md R164). -/
theorem pktDec_length (hi : knownFec P p.inner = true) (d : List Byte) : (pktDec P p d).1.length = p.len := by
  have hkeyed := (fecCodec_lawful hP hi).dec_length (dilv P (p.innerLen P) (fecDec P p.outer d (p.innerLen P))) p.keyedLen
    (dilv_length ..)
  simp only [pktDec, pktSplit, fecDec, List.length_take] at hkeyed ⊢
  rw [hkeyed, Pkt.keyedLen]
  omega

theorem fecName_length_le (id : Byte) : (fecName P id).length ≤ 15 := by
  unfold fecName
  split
  · decide
  · decide
  · decide
  · split
    · exact (hP.extra _ _ ‹_›).name_length.2
    · decide

/-- A name and its NUL fit the 16 bytes reserved (42_scheme_names.md R190). -/
theorem askedName_length_le (s : State) : (askedName P s).length ≤ 15 := by
  unfold askedName schemeName
  split
  · exact fecName_length_le hP _
  · exact edName_length_le _

end Lengths

end Sys2Proof.Machine
end

section
/-! PROOFS. The reset state meets the invariant, and every step keeps it. The invariant's parts speak of different parts of the state:
first what each update of the state needs to keep it, then the commands, the FS engine and the host's writes. -/

namespace Sys2Proof.Machine

/-! ## Reset -/

theorem ctxOk_unconfigured (P : Params) (c : Nat) : CtxOk P c Ctx.unconfigured := ⟨fun _ => rfl, nofun, nofun, nofun, nofun⟩

/-- A block whose pieces all have their reset values meets the invariant, whatever the model's own fields are. -/
theorem inv_of_reset (P : Params) (agenda : List Turn) (seen : List Word) (epoch free : Nat) :
    Inv P { State.reset with agenda := agenda, seen := seen, epoch := epoch, free := free } where
  ctx c hc := by
    have h : State.reset.ctx c = Ctx.unconfigured := by simp [State.ctx, State.reset, hc]
    exact h ▸ ctxOk_unconfigured P c
  engine := ⟨nofun, fun _ => rfl, nofun, nofun, nofun⟩
  stats := ⟨show (0#32).extractLsb' 16 16 = 0#16 by decide, show (0#32).extractLsb' 24 8 = 0#8 by decide⟩
  fs := {
    idle := fun _ => ⟨rfl, rfl, rfl⟩
    cfg := nofun
    hold := ⟨nofun, nofun⟩
    flight := ⟨fun _ => rfl, fun _ => rfl⟩
    inside := nofun
    left := fun _ => rfl
    range := Nat.zero_le _
    sync := nofun
    header := nofun
    payload := nofun
    cur := nofun
    front := nofun }
  buf := ⟨rfl, nofun⟩

/-- Settles O43. -/
theorem invHoldsAtReset : Obligations.InvHoldsAtReset := inv_of_reset Config.params [] [] 0 0

theorem powerOnReset_inv (P : Params) (s : State) : Inv P (powerOnReset s) := inv_of_reset ..

/-! ## Updates of the state -/

/-- The fields of the registers that the invariant speaks of. -/
def Regs.guarded (r : Regs) : Bool × Bool × Byte × Byte × Word × Word :=
  (r.done, r.err, r.errCode, r.lastOpc, r.statMod, r.statScheme)

section Updates
variable {P : Params} {s : State}

theorem Inv.withHostSide (h : Inv P s) (agenda : List Turn) (seen : List Word) (free : Nat) :
    Inv P { s with agenda := agenda, seen := seen, free := free } where
  ctx := h.ctx
  engine := { h.engine with }
  stats := h.stats
  fs := { h.fs with }
  buf := { h.buf with }

theorem Inv.withRegs (h : Inv P s) {r : Regs} (hr : r.guarded = s.regs.guarded) : Inv P { s with regs := r } := by
  simp only [Regs.guarded, Prod.mk.injEq] at hr
  obtain ⟨hdone, herr, hcode, hopc, hmod, hscheme⟩ := hr
  exact {
    ctx := h.ctx
    engine := {
      doneOrErr := by simpa only [hdone, herr] using h.engine.doneOrErr
      noCode := by simpa only [herr, hcode] using h.engine.noCode
      busyClear := by simpa only [hdone, herr] using h.engine.busyClear
      busyLegal := by simpa only [hopc] using h.engine.busyLegal
      startedFs := h.engine.startedFs }
    stats := ⟨hmod ▸ h.stats.mod, hscheme ▸ h.stats.scheme⟩
    fs := { h.fs with }
    buf := { h.buf with } }

theorem Inv.setResult0 (h : Inv P s) (v : Word) : Inv P (s.setResult0 v) := h.withRegs rfl

theorem Inv.setResult1 (h : Inv P s) (v : Word) : Inv P (s.setResult1 v) := h.withRegs rfl

theorem Inv.setValid (h : Inv P s) (v : Bool) : Inv P (s.setValid v) := h.withRegs rfl

theorem Inv.setCtx (h : Inv P s) {c : Nat} {r : Ctx} (hr : CtxOk P c r) : Inv P (s.setCtx c r) where
  ctx x hx := by
    rw [ctx_setCtx]
    split
    · next heq => exact heq.1 ▸ hr
    · exact h.ctx x hx
  engine := { h.engine with }
  stats := h.stats
  fs := { h.fs with }
  buf := { h.buf with }

theorem Inv.memWrite (h : Inv P s) {off : Nat} {bs : List Byte} (hin : off + bs.length ≤ P.bufSize) :
    Inv P (s.memWrite P off bs) where
  ctx := h.ctx
  engine := { h.engine with }
  stats := h.stats
  fs := { h.fs with }
  buf.wf := Memory.wf_writeBytes h.buf.wf
  buf.inside e he := by
    rcases Memory.mem_writeBytes he with hold | hnew
    · exact h.buf.inside e hold
    · omega

theorem Inv.withFs (h : Inv P s) {f : Fs} (hf : FsOk P { s with fs := f }) (hconf : s.eng.started = true → f.configured = true) :
    Inv P { s with fs := f } where
  ctx := h.ctx
  engine := { h.engine with startedFs := fun hb hs => ⟨(h.engine.startedFs hb hs).1, hconf hs⟩ }
  stats := h.stats
  fs := hf
  buf := { h.buf with }

end Updates

/-! ## Ending a command -/

/-- The synchronizer needs no command to be running: it is in a consuming state and no sample is left (45_frame_sync.md R217). -/
def Fs.AtRest (f : Fs) : Prop := f.tag.Consuming ∧ f.execLeft = 0

section Ending
variable {P : Params} {s t : State}

theorem FsTag.consuming_of_ne {tag : FsTag} (h : ¬(tag = .callback ∨ tag = .reset)) : tag.Consuming := by
  cases tag with
  | callback | reset => simp at h
  | detect | sync | rxHeader | rxPayload => simp [FsTag.Consuming]

theorem FsOk.atRest (h : FsOk P s) (hr : fsRunning s = false) : s.fs.AtRest :=
  ⟨FsTag.consuming_of_ne fun ht => by simp [h.inside ht] at hr, h.left hr⟩

theorem fsRunning_of_idle (h : s.eng.busy = false) : fsRunning s = false := by simp [fsRunning, h]

theorem fsRunning_of_not_started (h : s.eng.started = false) : fsRunning s = false := by simp [fsRunning, h]

/-- A synchronizer at rest is right whether a command runs or not. -/
theorem FsOk.of_atRest (h : FsOk P s) (hrest : s.fs.AtRest) (ht : t.fs = s.fs) : FsOk P t := by
  obtain ⟨hcons, hleft⟩ := hrest
  have hin : s.fs.tag = .callback ∨ s.fs.tag = .reset → fsRunning t = true := fun htag => by
    rcases hcons with hc | hc | hc | hc <;> simp [hc] at htag
  cases s; cases t; cases ht
  exact { h with inside := hin, left := fun _ => hleft }

theorem Inv.complete (h : Inv P s) (hb : s.eng.busy = true) (hrest : s.fs.AtRest) : Inv P (complete s) where
  ctx := h.ctx
  engine := {
    doneOrErr := by simp [(h.engine.busyClear hb).2]
    noCode := h.engine.noCode
    busyClear := nofun
    busyLegal := nofun
    startedFs := nofun }
  stats := { h.stats with }
  fs := h.fs.of_atRest hrest rfl
  buf := { h.buf with }

theorem Inv.raise (h : Inv P s) (hrest : s.fs.AtRest) (e : CmdError) : Inv P (raise e s) where
  ctx := h.ctx
  engine := ⟨nofun, nofun, nofun, nofun, nofun⟩
  stats := { h.stats with }
  fs := h.fs.of_atRest hrest rfl
  buf := { h.buf with }

end Ending

/-! ## The commands -/

section Commands
variable {P : Params} {s : State}

theorem configuredCtx_ok (hP : P.Lawful) {c : Nat} (hc : c < P.numCtx) (hsw : TripleOk P s.eng.arg.a1)
    (hlen : LengthOk P s.eng.arg.a0.toNat) : CtxOk P c (configuredCtx P s) where
  unconfigured := nofun
  inRange := fun _ => hc
  length := fun _ => hlen
  known := fun _ => hsw
  encoded := fun _ => by
    obtain ⟨hed, hinner, houter⟩ := hsw
    simp only [configuredCtx, toWord, BitVec.toNat_ofNat]
    exact Nat.mod_eq_of_lt (encLen_lt hP hlen.2 hed hinner houter)

theorem configureEffect_inv (hP : P.Lawful) (h : Inv P s) (hb : s.eng.busy = true) (hrest : s.fs.AtRest) {bad : Bool} {c : Nat}
    (hok : firstError (configureChecks P bad c s) = none) : Inv P (configureEffect P c s) := by
  obtain ⟨hc, hsw, hlen⟩ := configureChecks_passed hok
  exact ((h.setCtx (configuredCtx_ok hP hc hsw hlen)).setResult0 _).complete hb hrest

theorem pktEncodeEffect_inv (hP : P.Lawful) (h : Inv P s) (hb : s.eng.busy = true) (hrest : s.fs.AtRest) {c : Nat}
    (hok : firstError (pktEncodeChecks P c s) = none) : Inv P (pktEncodeEffect P c s) := by
  obtain ⟨hc, hconf, hdst⟩ := codingChecks_passed hok
  have hctx := h.ctx c (hc.trans_le hP.numCtx.2)
  have hlen : (encodedBytes P c s).length = (s.ctx c).enc.toNat :=
    (pktEnc_length hP (hctx.known hconf).2.2 _).trans (hctx.encoded hconf).symm
  exact ((h.memWrite (by rw [hlen]; exact hdst)).setResult0 _).complete hb hrest

theorem decodedEffect_inv (h : Inv P s) (hb : s.eng.busy = true) (hrest : s.fs.AtRest) {c srcLen : Nat} {m : List Byte × Bool}
    (hok : firstError (codingChecks P c srcLen (s.ctx c).len.toNat s) = none) (hm : m.1.length ≤ (s.ctx c).len.toNat) :
    Inv P (decodedEffect P c m s) := by
  obtain ⟨-, -, hdst⟩ := codingChecks_passed hok
  have hin : s.eng.arg.a3.toNat + m.1.length ≤ P.bufSize := (Nat.add_le_add_left hm _).trans hdst
  exact ((((h.memWrite hin).setResult0 _).setResult1 _).setValid _).complete hb hrest

theorem schemeId2nameEffect_inv (hP : P.Lawful) (h : Inv P s) (hb : s.eng.busy = true) (hrest : s.fs.AtRest)
    (hok : firstError (schemeId2nameChecks P s) = none) : Inv P (schemeId2nameEffect P s) := by
  have hdst : s.eng.arg.a3.toNat + 16 ≤ P.bufSize := schemeId2nameChecks_passed hok
  have hname := askedName_length_le hP s
  have hin : s.eng.arg.a3.toNat + (askedName P s ++ [0]).length ≤ P.bufSize := by
    simp only [List.length_append, List.length_singleton]
    omega
  exact ((h.memWrite hin).setResult0 _).complete hb hrest

theorem fsCreateEffect_inv (h : Inv P s) (hb : s.eng.busy = true) (hrest : s.fs.AtRest)
    (hok : firstError (fsCreateChecks P s) = none) : Inv P (fsCreateEffect P s) := by
  refine Inv.complete (h.withFs ?_ fun _ => rfl) hb ⟨.inl rfl, hrest.2⟩
  exact { h.fs with
    idle := nofun
    cfg := fun _ => fsCreateChecks_passed hok
    hold := ⟨nofun, nofun⟩
    flight := ⟨fun _ => rfl, fun _ => rfl⟩
    inside := nofun
    left := fun _ => hrest.2
    sync := nofun
    header := nofun
    payload := nofun
    cur := nofun
    front := fun _ => .init }

theorem fsDestroyEffect_inv (h : Inv P s) (hb : s.eng.busy = true) (hs : s.eng.started = false) (hrest : s.fs.AtRest) :
    Inv P (fsDestroyEffect P s) := by
  refine ((h.withHostSide s.agenda s.seen (s.free + 1)).withFs ?_ (by simp [hs])).complete hb ⟨.inl rfl, hrest.2⟩
  exact { h.fs with
    idle := fun _ => ⟨rfl, rfl, rfl⟩
    cfg := nofun
    hold := ⟨nofun, nofun⟩
    flight := ⟨fun _ => rfl, fun _ => rfl⟩
    inside := nofun
    left := fun _ => hrest.2
    sync := nofun
    header := nofun
    payload := nofun
    cur := nofun
    front := nofun }

theorem instrOfOpcode_eq_fsExecute {opc c : Nat} (h : instrOfOpcode opc c = some .fsExecute) : opc = 0x11 := by
  unfold instrOfOpcode at h
  split at h <;> simp_all

/-- ENG holds FS.EXECUTE by its opcode (30_encoding.md R110). -/
theorem opc_of_decode_fsExecute {e : Eng} (h : decode e.word = .ok .fsExecute) : e.opc = 0x11#8 := by
  have hopc : e.word.extractLsb' 0 8 = e.opc := BitVec.extractLsb'_append_eq_right
  unfold decode at h
  split at h
  · cases h
  · split at h
    · cases h
    · next i hi =>
      split at h
      · cases h
      · cases h
        have := instrOfOpcode_eq_fsExecute hi
        rw [hopc] at this
        exact BitVec.eq_of_toNat_eq this

theorem fsExecuteEffect_inv (h : Inv P s) (hb : s.eng.busy = true) (hopc : s.eng.opc = 0x11#8)
    (hok : firstError (fsExecuteChecks P s) = none) : Inv P (fsExecuteEffect s) := by
  obtain ⟨hconf, hsrc⟩ := fsExecuteChecks_passed hok
  have hrun : fsRunning (fsExecuteEffect s) = true := (fsRunning_iff _).2 ⟨hb, rfl, hopc⟩
  exact {
    ctx := h.ctx
    engine := { h.engine with startedFs := fun _ _ => ⟨hopc, hconf⟩ }
    stats := h.stats
    fs := { h.fs with
      inside := fun _ => hrun
      left := fun hr => absurd (hrun.symm.trans hr) nofun
      range := hsrc }
    buf := { h.buf with } }

/-- Every command whose checks pass keeps the invariant. -/
theorem commandEffect_inv (hP : P.Lawful) (h : Inv P s) {i : Instr} (hb : s.eng.busy = true) (hs : s.eng.started = false)
    (hi : decode s.eng.word = .ok i) (hok : commandError P s i = none) : Inv P (commandEffect P s i) := by
  have hrest : s.fs.AtRest := h.fs.atRest (fsRunning_of_not_started hs)
  cases i with
  | pktEnclen | pktDeclen | schemeName2id => exact (h.setResult0 _).complete hb hrest
  | pktCreate c | pktReconfig c => exact configureEffect_inv hP h hb hrest hok
  | pktDestroy c => exact (h.setCtx (ctxOk_unconfigured P c)).complete hb hrest
  | pktEncode c => exact pktEncodeEffect_inv hP h hb hrest hok
  | pktDecode c | pktDecodeSoft c => exact decodedEffect_inv h hb hrest hok (pktSplit_length_le ..)
  | schemeId2name => exact schemeId2nameEffect_inv hP h hb hrest hok
  | fsCreate => exact fsCreateEffect_inv h hb hrest hok
  | fsExecute => exact fsExecuteEffect_inv h hb (opc_of_decode_fsExecute hi) hok
  | fsDestroy => exact fsDestroyEffect_inv h hb hs hrest

end Commands

end Sys2Proof.Machine
end

section
/-! PROOFS. The FS engine's steps and the host's writes keep the invariant, and so does every step of the machine. -/

namespace Sys2Proof.Machine

/-! ## Consuming a sample -/

theorem Params.Lawful.bufSize_le {P : Params} (hP : P.Lawful) : P.bufSize ≤ 2 ^ 31 :=
  Nat.pow_le_pow_right (by decide) hP.bufBits.2

/-- A message of at least one byte is encoded to at least one byte. -/
theorem encLen_pos {P : Params} (hP : P.Lawful) {L : Nat} (hL : 1 ≤ L) (ed inner outer : Byte) : 0 < encLen P L ed inner outer := by
  have := le_encLen hP L ed inner outer
  omega

/-- A header has at least one encoded bit. -/
theorem FsCfgOk.header_pos {P : Params} {g : FsCfg} (h : FsCfgOk P g) (hP : P.Lawful) : 0 < 8 * g.hdrEncLen := by
  rw [h.hdrEnc]
  exact Nat.mul_pos (by decide) (encLen_pos hP h.hdrLen.2.1 _ _ _)

section Samples
variable {P : Params} {s t : State}

theorem Inv.configured_of_running (h : Inv P s) (hr : fsRunning s = true) : s.fs.configured = true := by
  obtain ⟨hb, hs, -⟩ := (fsRunning_iff s).1 hr
  exact (h.engine.startedFs hb hs).2

theorem consumeSample_inv (hP : P.Lawful) (h : Inv P s) (hr : fsRunning s = true) (hl : s.fs.execLeft ≠ 0) :
    Inv P (consumeSample s) := by
  have hrange := h.fs.range
  have hsize := hP.bufSize_le
  have hleft : (s.fs.execLeft - 1).toNat + 1 = s.fs.execLeft.toNat := by bv_omega
  have hoff : (s.fs.execOff + 4).toNat = s.fs.execOff.toNat + 4 := by
    rw [BitVec.toNat_add, Nat.mod_eq_of_lt]
    · rfl
    · simp; omega
  refine h.withFs ?_ fun _ => h.configured_of_running hr
  exact { h.fs with
    left := fun hn => absurd (hr.symm.trans hn) nofun
    range := show (s.fs.execOff + 4).toNat + 4 * (s.fs.execLeft - 1).toNat ≤ P.bufSize by omega }

/-- The front end sees one more sample (45_frame_sync.md R203). -/
theorem withFe_inv (h : Inv P s) (hc : s.fs.configured = true) (m : FeMode) (x : Sample) :
    Inv P (s.withFe (P.feStep s.fs.fe m x).1) :=
  h.withFs { h.fs with front := fun _ => .step _ m x (h.fs.front hc) } fun _ => hc

/-! ## The FS engine's state changes -/

theorem FsOk.inFlight_ne (h : FsOk P s) (ht : s.fs.tag ≠ .detect) : ¬s.fs.inFlight = false := fun hn => ht (h.flight.1 hn)

theorem FsOk.evtPending_ne (h : FsOk P s) (ht : s.fs.tag ≠ .callback) : ¬s.fs.evtPending = true := fun hp => ht (h.hold.1 hp)

theorem discardAttempt_inv (h : Inv P s) (hr : fsRunning s = true) (ht : s.fs.tag = .rxHeader) : Inv P (discardAttempt s) := by
  have hc := h.configured_of_running hr
  refine h.withFs ?_ fun _ => hc
  exact { h.fs with
    idle := by simp [hc]
    hold := iff_of_false (h.fs.evtPending_ne (by simp [ht])) nofun
    flight := iff_of_false (h.fs.inFlight_ne (by simp [ht])) nofun
    inside := fun _ => hr
    sync := nofun
    header := nofun
    payload := nofun
    cur := nofun }

theorem startPayload_inv (hP : P.Lawful) (h : Inv P s) (hr : fsRunning s = true) (ht : s.fs.tag = .rxHeader)
    (hacc : s.fs.acc = []) (hhdr : s.fs.hdr.length = s.fs.cfg.hdrLen) {r : Decl} (hf : feasible P r = true)
    (hfits : r.len ≤ maxPayload P s.fs.cfg.profile s.fs.cfg.payLen) : Inv P (startPayload P r s) := by
  have hc := h.configured_of_running hr
  obtain ⟨⟨hlen, -⟩, -⟩ := (feasible_iff r).1 hf
  have hpos : s.fs.acc.length < 8 * (curOf P r).enc := by
    rw [hacc]
    exact Nat.mul_pos (by decide) (encLen_pos hP hlen _ _ _)
  refine h.withFs ?_ fun _ => hc
  exact { h.fs with
    idle := by simp [hc]
    hold := iff_of_false (h.fs.evtPending_ne (by simp [ht])) nofun
    flight := iff_of_false (h.fs.inFlight_ne (by simp [ht])) nofun
    inside := nofun
    sync := nofun
    header := nofun
    payload := fun _ => hpos
    cur := fun _ => ⟨⟨hf, rfl, hfits⟩, hhdr⟩ }

/-- A payload that BRANCH starts is feasible and fits the event area (45_frame_sync.md R211, R226). -/
theorem branch_inv (hP : P.Lawful) (h : Inv P s) (hr : fsRunning s = true) (ht : s.fs.tag = .rxHeader)
    (hacc : s.fs.acc = []) (hhdr : s.fs.hdr.length = s.fs.cfg.hdrLen) : Inv P (branch P s) := by
  have hcfg := h.fs.cfg (h.configured_of_running hr)
  rcases branch_cases P s with hb | ⟨r, hb, hr'⟩ <;> rw [hb]
  · exact discardAttempt_inv h hr ht
  · have hf : feasible P r = true := by
      rcases hr' with ⟨rfl, huse⟩ | ⟨-, hf⟩
      · exact hcfg.pay huse
      · exact hf
    refine startPayload_inv hP h hr ht hacc hhdr hf ?_
    obtain ⟨⟨-, hmax⟩, -⟩ := (feasible_iff r).1 hf
    cases hp : s.fs.cfg.profile with
    | flex => exact hmax
    | fixed =>
      rcases hr' with ⟨rfl, -⟩ | ⟨hflex, -⟩
      · exact Nat.le_refl _
      · simp [hp] at hflex

/-- CALLBACK entry on the last symbol of a payload: the event fits its area, whatever was received (45_frame_sync.md R230). -/
theorem callbackEntry_inv (h : Inv P s) (hr : fsRunning s = true) (ht : s.fs.tag = .rxPayload) {pl : List Byte}
    (hpl : pl.length ≤ s.fs.cur.len) (pv : Bool) (acc : List Byte) (n : Word) :
    Inv P (callbackEntry P pl pv { s with fs := { s.fs with acc := acc, paySyms := n } }) := by
  have hc := h.configured_of_running hr
  have harea := h.fs.event_fits ht
  have hin : s.fs.cfg.outAddr.toNat + (s.fs.hdr.take 8).length ≤ P.bufSize := by
    rw [List.length_take]
    omega
  have hin' : s.fs.cfg.outAddr.toNat + 8 + pl.length ≤ P.bufSize := by omega
  have hmem := (h.memWrite hin).memWrite hin'
  exact {
    ctx := h.ctx
    engine := { h.engine with }
    stats := ⟨extractLsb'_append_high (by decide) BitVec.extractLsb'_append_eq_left, schemeWord_reserved _ _ _⟩
    fs := { h.fs with
      idle := by simp [callbackEntry, hc]
      hold := ⟨fun _ => rfl, fun _ => rfl⟩
      flight := iff_of_false (h.fs.inFlight_ne (by simp [ht])) nofun
      inside := fun _ => hr
      sync := nofun
      header := nofun
      payload := nofun
      cur := fun _ => h.fs.cur (.inl ht) }
    buf := { hmem.buf with } }

theorem resetStep_inv (h : Inv P s) (hr : fsRunning s = true) (ht : s.fs.tag = .reset) : Inv P (resetStep P s) := by
  have hc := h.configured_of_running hr
  refine h.withFs ?_ fun _ => hc
  exact { h.fs with
    idle := by simp [hc]
    hold := iff_of_false (h.fs.evtPending_ne (by simp [ht])) nofun
    flight := ⟨fun _ => rfl, fun _ => rfl⟩
    inside := nofun
    sync := nofun
    header := nofun
    payload := nofun
    cur := nofun
    front := fun hc => .clear _ (h.fs.front hc) }

/-- The symbols of the preamble are counted up to SYNC_LEN, even where the counter wraps (log 22). -/
theorem symCount_succ_lt {n : Word} {m : Nat} (hn : n.toNat < m) (hne : (n + 1).toNat ≠ m) : (n + 1).toNat < m := by
  bv_omega

theorem SampleEffect.inv (hP : P.Lawful) (e : SampleEffect P s t) (h : Inv P s) (hr : fsRunning s = true) : Inv P t := by
  have hc := h.configured_of_running hr
  have hcfg := h.fs.cfg hc
  cases e with
  | wait => exact h
  | trigger tau cfo tag =>
    refine h.withFs ?_ fun _ => hc
    exact { h.fs with
      idle := by simp [hc]
      hold := iff_of_false (h.fs.evtPending_ne (by simp [tag])) nofun
      flight := ⟨nofun, nofun⟩
      inside := nofun
      sync := fun _ => hP.syncLen
      header := nofun
      payload := nofun
      cur := nofun }
  | syncSymbol tag not_last =>
    exact h.withFs { h.fs with sync := fun _ => symCount_succ_lt (h.fs.sync tag) not_last } fun _ => hc
  | synced tag last =>
    refine h.withFs ?_ fun _ => hc
    exact { h.fs with
      idle := by simp [hc]
      hold := iff_of_false (h.fs.evtPending_ne (by simp [tag])) nofun
      flight := iff_of_false (h.fs.inFlight_ne (by simp [tag])) nofun
      inside := nofun
      sync := nofun
      header := fun _ => hcfg.header_pos hP
      payload := nofun
      cur := nofun }
  | headerSymbol acc tag short =>
    exact h.withFs { h.fs with
      sync := by simp [tag]
      header := fun _ => short
      payload := by simp [tag] } fun _ => hc
  | header acc tag enough =>
    refine branch_inv hP (h.withFs ?_ fun _ => hc) hr tag rfl (pktDec_length hP hcfg.hdrKnown.2.1 _)
    exact { h.fs with
      sync := by simp [tag]
      header := fun _ => hcfg.header_pos hP
      payload := by simp [tag]
      cur := by simp [tag] }
  | payloadSymbol acc tag short =>
    exact h.withFs { h.fs with
      header := by simp [tag]
      payload := fun _ => short } fun _ => hc
  | event acc tag enough fits =>
    have hpl : (pktDecSoft P s.fs.cur.pkt (acc.take (8 * s.fs.cur.enc))).1.length ≤ s.fs.cur.len := pktSplit_length_le ..
    exact callbackEntry_inv h hr tag hpl _ acc _

end Samples

/-! ## The block's step and the host's writes -/

section Turns
variable {P : Params} {s t : State}

theorem BlockEffect.inv (hP : P.Lawful) (e : BlockEffect P s t) (h : Inv P s) : Inv P t := by
  cases e with
  | rest => exact h
  | error e busy started => exact h.raise (h.fs.atRest (fsRunning_of_not_started started)) e
  | command i busy started word passes => exact commandEffect_inv hP h busy started word passes
  | finish running consuming none_left => exact h.complete ((fsRunning_iff s).1 running).1 ⟨consuming, none_left⟩
  | restart running tag => exact resetStep_inv h running tag
  | sample t m x running left effect =>
    have hc := h.configured_of_running running
    exact effect.inv hP (withFe_inv (consumeSample_inv hP h running left) hc m x) running

theorem noteCommand_inv (h : Inv P s) (hb : s.eng.busy = false) (w : Word) : Inv P (noteCommand w s) where
  ctx := h.ctx
  engine := {
    doneOrErr := nofun
    noCode := fun _ => rfl
    busyClear := fun _ => ⟨rfl, rfl⟩
    busyLegal := fun hbusy => absurd (hbusy.symm.trans hb) nofun
    startedFs := fun hbusy => absurd (hbusy.symm.trans hb) nofun }
  stats := { h.stats with }
  fs := { h.fs with }
  buf := { h.buf with }

theorem acceptCommand_inv (h : Inv P s) (w : Word) : Inv P (acceptCommand w s) := by
  rcases acceptCommand_cases w s with ⟨-, ha⟩ | ⟨hb, hl, ha⟩ | ⟨hb, ha⟩ <;> rw [ha]
  · exact h.withRegs rfl
  · have hword := word_latchCommand (reserved_of_legal hl) (noteCommand w s)
    exact {
      ctx := h.ctx
      engine := ⟨nofun, fun _ => rfl, fun _ => ⟨rfl, rfl⟩, fun _ => ⟨by rw [hword]; exact hl, rfl⟩, nofun⟩
      stats := { h.stats with }
      fs := h.fs.of_atRest (h.fs.atRest (fsRunning_of_idle hb)) rfl
      buf := { h.buf with } }
  · exact (noteCommand_inv h hb w).raise (h.fs.atRest (fsRunning_of_idle hb)) _

theorem acknowledge_inv (h : Inv P s) : Inv P (acknowledge s) := by
  rcases acknowledge_cases s with ⟨hp, ha⟩ | ha <;> rw [ha]
  · have ht : s.fs.tag = .callback := h.fs.hold.1 hp
    have hr := h.fs.inside (.inl ht)
    have hc := h.configured_of_running hr
    refine h.withFs ?_ fun _ => hc
    exact { h.fs with
      idle := by simp [hc]
      hold := ⟨nofun, nofun⟩
      flight := iff_of_false (h.fs.inFlight_ne (by simp [ht])) nofun
      inside := fun _ => hr
      sync := nofun
      header := nofun
      payload := nofun
      cur := nofun }
  · exact h

theorem writeReg_inv (h : Inv P s) (v : Word) (r : Reg) : Inv P (writeReg v s r) := by
  cases r with
  | cmd => exact acceptCommand_inv h v
  | fsAck => exact acknowledge_inv h
  | arg0 | arg1 | arg2 | arg3 | intStatus | intEnable | fsCtrl | fsHdrCfg | fsPayCfg | fsPayLen | fsDetThresh | fsOutAddr =>
    exact h.withRegs rfl
  | _ => exact h

theorem TurnEffect.inv (hP : P.Lawful) (e : TurnEffect P s t) (h : Inv P s) : Inv P t := by
  cases e with
  | reset => exact powerOnReset_inv P _
  | block before after u effect =>
    exact (effect.inv hP (h.withHostSide before s.seen s.free)).withHostSide after u.seen u.free
  | register tgt off v r rest => exact writeReg_inv (h.withHostSide rest s.seen s.free) v r
  | memory off w v rest fits => exact (h.withHostSide rest s.seen s.free).memWrite (by simpa using fits)
  | host rest seen free => exact h.withHostSide rest seen free

end Turns

/-- Settles O44: every outcome of a turn keeps the invariant. -/
theorem stepKeepsInv : Obligations.StepKeepsInv := fun _ _ hinv hstep => (step_effect hstep).inv params_lawful hinv

end Sys2Proof.Machine
end

section
/-! SUPPORT. The host's accesses: little-endian words, footprints and what a host read of BUF returns (20_memory.md R83, R86, R93). -/

namespace Sys2Proof.Machine

/-! ## Little-endian words -/

/-- The bytes of a value, read back as a number (20_memory.md R83). -/
theorem foldr_leBytes (n v : Nat) :
    (leBytes n v).foldr (fun b acc => b.toNat + 256 * acc) 0 = v % 2 ^ (8 * n) := by
  induction n generalizing v with
  | zero => simp [leBytes, Nat.mod_one]
  | succ n ih =>
    rw [leBytes, List.foldr_cons, ih, BitVec.toNat_ofNat, Nat.mul_succ, Nat.pow_add, Nat.mul_comm (2 ^ (8 * n)), Nat.mod_mul]

theorem leWord_leBytes (n v : Nat) : leWord (leBytes n v) = BitVec.ofNat 32 (v % 2 ^ (8 * n)) := by
  rw [leWord, foldr_leBytes]

theorem leBytes_getD {n k : Nat} (hk : k < n) (v : Nat) : (leBytes n v).getD k 0 = BitVec.ofNat 8 (v / 2 ^ (8 * k)) := by
  induction n generalizing v k with
  | zero => omega
  | succ n ih =>
    cases k with
    | zero => simp [leBytes]
    | succ k =>
      rw [leBytes, List.getD_cons_succ, ih (by omega), Nat.div_div_eq_div_mul, Nat.mul_succ, Nat.pow_add, Nat.mul_comm]

theorem leBytes_toNat_getD {n k : Nat} (hk : k < n) (v : Word) : (leBytes n v.toNat).getD k 0 = v.extractLsb' (8 * k) 8 := by
  rw [leBytes_getD hk, ← Nat.shiftRight_eq_div_pow]
  rfl

section Accesses
variable {P : Params} {s : State}

/-- MemRead of the range just written (00_scope.md R13). -/
theorem memRead_memWrite (h : Memory.wf (s.bufDefault P) s.buf = true) (off : Nat) (bs : List Byte) :
    (s.memWrite P off bs).memRead P off bs.length = bs := Memory.readBytes_writeBytes h off bs

/-! ## Footprints -/

theorem Range.has_iff {r : Range} {a : Nat} : r.has a = true ↔ r.off ≤ a ∧ a < r.off + r.len := decide_eq_true_iff

theorem touches_iff {rs : List Range} {off n : Nat} :
    touches rs off n = true ↔ ∃ k, k < n ∧ ∃ r ∈ rs, r.off ≤ off + k ∧ off + k < r.off + r.len := by
  simp [touches, Range.has_iff]

theorem runningReads_of_fsRunning (h : fsRunning s = true) :
    runningReads P s = [⟨s.fs.execOff.toNat, 4 * s.fs.execLeft.toNat⟩] := by simp [runningReads, h]

theorem runningWrites_of_fsRunning (h : fsRunning s = true) : runningWrites P s = [eventArea P s.fs.cfg] := by
  simp [runningWrites, h]

theorem pendingCommand_of_idle (h : s.eng.busy = false) : pendingCommand P s = none := by simp [pendingCommand, h]

/-- An idle engine has no footprint. -/
theorem running_of_idle (h : s.eng.busy = false) : runningReads P s = [] ∧ runningWrites P s = [] := by
  simp [runningReads, runningWrites, fsRunning_of_idle h, pendingCommand_of_idle h]

/-! ## Host reads -/

/-- The bytes a host read of BUF returns are the stored ones in an event hold and where the running command writes nothing. -/
theorem hostByte_stored {a : Nat} (h : s.fs.evtPending = true ∨ ∀ r ∈ runningWrites P s, ¬(r.off ≤ a ∧ a < r.off + r.len))
    (ahead : State) (k : Nat) : hostByte P s ahead k a = s.byte P a := by
  have hold : (!eventHold s && (runningWrites P s).any (fun r => r.has a)) = false := by
    rcases h with hhold | hout
    · simp [eventHold, hhold]
    · have hmiss : (runningWrites P s).any (fun r => r.has a) = false :=
        List.any_eq_false.2 fun r hr => Range.has_iff.not.2 (hout r hr)
      rw [hmiss, Bool.and_false]
  simp [hostByte, hold]

@[simp] theorem hostBytes_length (off n : Nat) : (hostBytes P s off n).length = n := by simp [hostBytes]

theorem hostBytes_getD {n k : Nat} (hk : k < n) (off : Nat) :
    (hostBytes P s off n).getD k 0 = hostByte P s (runAhead P (aheadFuel s) s) (s.free + k) (off + k) := by
  simp [hostBytes, hk]

/-- With no command running a host read of BUF returns the stored bytes. -/
theorem hostBytes_of_idle (h : s.eng.busy = false) (off n : Nat) : hostBytes P s off n = s.memRead P off n := by
  refine List.ext_getElem (by simp) fun k hk _ => ?_
  have hkn : k < n := by simpa using hk
  have hbyte := hostByte_stored (P := P) (s := s) (a := off + k) (.inr (by simp [running_of_idle h]))
  rw [← List.getD_eq_getElem _ 0, ← List.getD_eq_getElem _ 0, hostBytes_getD hkn, hbyte, memRead_getD P s hkn]

theorem hostReadBuf_fits {off : Nat} {w : Width} (hfit : off + w.bytes ≤ P.bufSize) :
    hostReadBuf P off w s
      = .next { s with seen := leWord (hostBytes P s off w.bytes) :: s.seen, free := s.free + w.bytes } := if_pos hfit

/-- A host read changes only what the host has seen and how many free values are drawn (20_memory.md R89). -/
theorem hostReadReg_next {off : Nat} {w : Width} {t : State} (h : hostReadReg P off w s = .next t) :
    ∃ (v : Word) (drawn : Nat), t = { s with seen := v :: s.seen, free := drawn } := by
  unfold hostReadReg at h
  split at h <;> cases h
  exact ⟨_, s.free, rfl⟩

theorem hostReadBuf_next {off : Nat} {w : Width} {t : State} (h : hostReadBuf P off w s = .next t) :
    ∃ (v : Word) (drawn : Nat), t = { s with seen := v :: s.seen, free := drawn } := by
  unfold hostReadBuf at h
  split at h <;> cases h
  exact ⟨_, _, rfl⟩

theorem hostRead_next {tgt : Target} {w : Width} {t : State} (h : hostRead P tgt w s = .next t) :
    ∃ (v : Word) (drawn : Nat), t = { s with seen := v :: s.seen, free := drawn } := by
  cases tgt with
  | reg off => exact hostReadReg_next h
  | buf off => exact hostReadBuf_next h
  | addr a =>
    rcases hostRead_addr P a w s with ⟨-, -, hreg⟩ | ⟨-, -, hbuf⟩ | hout
    · exact hostReadReg_next (hreg ▸ h)
    · exact hostReadBuf_next (hbuf ▸ h)
    · cases hout.symm.trans h

/-! ## Host writes to BUF -/

/-- A host write of BUF that fits is refused exactly if it races (20_memory.md R93). -/
theorem hostWriteBuf_fits {off : Nat} {w : Width} (hfit : off + w.bytes ≤ P.bufSize) (v : Word) :
    hostWriteBuf P off w v s
      = if writeRaces P s off w.bytes then .refused (.footprintRace off w)
        else .next (s.memWrite P off (leBytes w.bytes v.toNat)) := if_pos hfit

theorem writeRaces_iff {off n : Nat} :
    writeRaces P s off n = true ↔ s.fs.evtPending = false ∧
      ∃ k, k < n ∧ ∃ r ∈ runningReads P s ++ runningWrites P s, r.off ≤ off + k ∧ off + k < r.off + r.len := by
  rw [writeRaces, Bool.and_eq_true, touches_iff, Bool.not_eq_true', eventHold]

theorem writeRaces_of_idle (h : s.eng.busy = false) (off n : Nat) : writeRaces P s off n = false := by
  rw [← Bool.not_eq_true, writeRaces_iff]
  simp [running_of_idle h]

theorem hostWriteBuf_next {off : Nat} {w : Width} {v : Word} {t : State} (h : hostWriteBuf P off w v s = .next t) :
    t = { s with buf := t.buf } := by
  unfold hostWriteBuf at h
  split at h
  · split at h <;> cases h
    rfl
  · cases h

/-! ## Register accesses -/

theorem regAccessOk_false {off : Nat} {w : Width} (h : w ≠ .b4 ∨ off % 4 ≠ 0 ∨ 4096 ≤ off) : regAccessOk off w = false := by
  rw [← Bool.not_eq_true, regAccessOk, Bool.and_eq_true, Bool.and_eq_true]
  simp only [decide_eq_true_eq]
  rintro ⟨⟨hw, halign⟩, hlt⟩
  rcases h with hw' | halign' | hge
  · exact hw' hw
  · exact halign' halign
  · omega

/-- A register write other than to CMD and FS_ACK changes nothing outside the registers. -/
theorem writeReg_eq_withRegs {r : Reg} (hcmd : r ≠ .cmd) (hack : r ≠ .fsAck) (v : Word) :
    writeReg v s r = { s with regs := (writeReg v s r).regs } := by
  cases r with
  | cmd => exact absurd rfl hcmd
  | fsAck => exact absurd rfl hack
  | _ => rfl

/-- A register write other than to CMD, FS_ACK and INT_STATUS, whose writes are actions, changes no other register's reading: it is
ignored, or stores to a field that no other read looks at (10_state.md R32). -/
theorem readReg_writeReg_other {r x : Reg} (hcmd : r ≠ .cmd) (hack : r ≠ .fsAck) (hint : r ≠ .intStatus) (hx : x ≠ r)
    (v : Word) : readReg P (writeReg v s r) x = readReg P s x := by
  cases r with
  | cmd => exact absurd rfl hcmd
  | fsAck => exact absurd rfl hack
  | intStatus => exact absurd rfl hint
  | arg0 | arg1 | arg2 | arg3 | intEnable | fsCtrl | fsHdrCfg | fsPayCfg | fsPayLen | fsDetThresh | fsOutAddr =>
    cases x <;> first | rfl | exact absurd rfl hx
  | _ => rfl

end Accesses

end Sys2Proof.Machine
end

section
/-! PROOFS. The host's accesses to the register block and to BUF (20_memory.md R85, R86, R89, R93, R98). -/

namespace Sys2Proof.Machine

/-- Settles O48: both host ports ask `regAccessOk` first. -/
theorem registerAccessForm : Obligations.RegisterAccessForm := by
  intro s off w v hbad
  have hok := regAccessOk_false hbad
  rw [step_turn, step_turn]
  simp [takeTurn, hostRead, hostWrite, hostReadReg, hostWriteReg, hok]

/-- Settles O46: with no command running nothing races, and reading back the bytes just written gives the value's low bytes. -/
theorem bufWriteReadsBack : Obligations.BufWriteReadsBack := by
  intro s off w v P hwf hidle hfit
  have hwrite : hostWriteBuf P off w v s = .next (s.memWrite P off (leBytes w.bytes v.toNat)) := by
    rw [hostWriteBuf_fits hfit, writeRaces_of_idle hidle]
    rfl
  have hread : hostBytes P (s.memWrite P off (leBytes w.bytes v.toNat)) off w.bytes = leBytes w.bytes v.toNat := by
    rw [hostBytes_of_idle (s := s.memWrite P off _) hidle]
    simpa using memRead_memWrite hwf off (leBytes w.bytes v.toNat)
  refine ⟨_, _, hwrite, hostReadBuf_fits hfit, ?_, fun k hk => ?_, fun a ha => ?_, rfl, rfl, rfl, rfl, rfl⟩
  · rw [hread, leWord_leBytes]
    rfl
  · rw [byte_memWrite hwf, leBytes_length, if_pos (by omega), Nat.add_sub_cancel_left, leBytes_toNat_getD hk]
  · rw [byte_memWrite hwf, leBytes_length, if_neg (by omega)]

/-- Settles O47: a write is refused exactly when it races, and a read's bytes are the stored ones where the command writes nothing. -/
theorem footprintRace : Obligations.FootprintRace := by
  intro s off w v P meets hfit
  refine ⟨fun hopen hmeets => ?_, fun hfree => ?_, ?_, fun hrun => ?_, running_of_idle⟩
  · exact (hostWriteBuf_fits hfit v).trans (if_pos (writeRaces_iff.2 ⟨hopen, hmeets⟩))
  · have hno : ¬writeRaces P s off w.bytes = true := by
      rw [writeRaces_iff]
      rintro ⟨hopen, hmeets⟩
      rcases hfree with hhold | hmiss
      · rw [hopen] at hhold; cases hhold
      · exact hmiss hmeets
    exact (hostWriteBuf_fits hfit v).trans (if_neg hno)
  · exact ⟨hostBytes P s off w.bytes, _, hostReadBuf_fits hfit, hostBytes_length off _, fun k hk hstored =>
      (hostBytes_getD hk off).trans (hostByte_stored hstored _ _)⟩
  · exact ⟨runningReads_of_fsRunning hrun, runningWrites_of_fsRunning hrun⟩

/-- Settles O55: a read by its target, a register write by the register, a BUF write by its one outcome that is no refusal. -/
theorem accessSideEffects : Obligations.AccessSideEffects :=
  ⟨fun _ _ _ _ hread => hostRead_next hread,
    fun _ v _ hcmd hack hint =>
      ⟨writeReg_eq_withRegs hcmd hack v, fun _ hx => readReg_writeReg_other hcmd hack hint hx v⟩,
    fun _ _ _ _ _ hwrite => hostWriteBuf_next hwrite⟩

end Sys2Proof.Machine
end

section
/-! SUPPORT. The command word by its three fields, reserved [31:12], CTX [11:8] and OPC [7:0]: which words an opcode has, what the decoder
answers on them, and which rows of the opcode map they select (30_encoding.md R100, R101, R110). -/

namespace Sys2Proof

/-! ## The fields of a word -/

theorem word_eq_fields (w : Word) : w.extractLsb' 12 20 ++ (w.extractLsb' 8 4 ++ w.extractLsb' 0 8) = w := by
  rw [BitVec.extractLsb'_append_extractLsb'_eq_extractLsb' (start₁ := 0) (len₁ := 8) rfl,
    BitVec.extractLsb'_append_extractLsb'_eq_extractLsb' (start₁ := 0) (len₁ := 12) rfl]
  exact BitVec.extractLsb'_eq_self

/-- A word is its three fields. -/
theorem word_ext_iff {v w : Word} : v = w ↔
    v.extractLsb' 12 20 = w.extractLsb' 12 20 ∧ v.extractLsb' 0 8 = w.extractLsb' 0 8 ∧
    v.extractLsb' 8 4 = w.extractLsb' 8 4 := by
  refine ⟨fun h => h ▸ ⟨rfl, rfl, rfl⟩, fun ⟨hres, hopc, hctx⟩ => ?_⟩
  rw [← word_eq_fields v, ← word_eq_fields w, hres, hopc, hctx]

/-! ## Opcode and context of a command -/

/-- The command with the same opcode and the context number `c`, where it takes one. -/
def Instr.withCtx (c : Nat) : Instr → Instr
  | .pktCreate _ => .pktCreate c
  | .pktReconfig _ => .pktReconfig c
  | .pktDestroy _ => .pktDestroy c
  | .pktEncode _ => .pktEncode c
  | .pktDecode _ => .pktDecode c
  | .pktDecodeSoft _ => .pktDecodeSoft c
  | i => i

@[simp] theorem Instr.withCtx_opcode (i : Instr) (c : Nat) : (i.withCtx c).opcode = i.opcode := by cases i <;> rfl

@[simp] theorem Instr.withCtx_ctx? (i : Instr) (c : Nat) : (i.withCtx c).ctx? = i.ctx?.map fun _ => c := by cases i <;> rfl

@[simp] theorem Instr.withCtx_withCtx (i : Instr) (c d : Nat) : (i.withCtx c).withCtx d = i.withCtx d := by cases i <;> rfl

@[simp] theorem Instr.withCtx_self (i : Instr) : i.withCtx (i.ctx?.getD 0) = i := by cases i <;> rfl

theorem Instr.opcode_lt (i : Instr) : i.opcode < 256 := by cases i <;> simp [Instr.opcode]

theorem Instr.opcode_toNat (i : Instr) : (BitVec.ofNat 8 i.opcode).toNat = i.opcode := by simp [i.opcode_lt]

/-- The opcodes of the map, none of which is reserved (30_encoding.md R110, R111). -/
theorem Instr.opcode_range (i : Instr) : (0x01 ≤ i.opcode ∧ i.opcode ≤ 0x0A) ∨ (0x10 ≤ i.opcode ∧ i.opcode ≤ 0x12) := by
  cases i <;> simp [Instr.opcode]

/-- The opcodes whose row says "CTX used". -/
theorem Instr.ctx?_eq_none_iff (i : Instr) : i.ctx? = none ↔ ¬(0x03 ≤ i.opcode ∧ i.opcode ≤ 0x08) := by
  cases i <;> simp [Instr.opcode, Instr.ctx?]

theorem Instr.wellFormed_iff (i : Instr) : i.wellFormed = true ↔ i.ctx?.getD 0 < 16 := by
  unfold Instr.wellFormed
  cases i.ctx? <;> simp

theorem instrOfOpcode_opcode (i : Instr) (c : Nat) : instrOfOpcode i.opcode c = some (i.withCtx c) := by cases i <;> rfl

theorem instrOfOpcode_eq_some_iff {opc c : Nat} {i : Instr} :
    instrOfOpcode opc c = some i ↔ opc = i.opcode ∧ i.withCtx c = i := by
  constructor
  · intro h
    unfold instrOfOpcode at h
    split at h <;> cases h <;> exact ⟨rfl, rfl⟩
  · rintro ⟨rfl, hc⟩
    rw [instrOfOpcode_opcode, hc]

/-! ## The words of an opcode -/

/-- `w` is a word of `i`'s opcode, with whatever context number: the reserved bits are 0, and CTX is 0 unless the opcode uses it
(30_encoding.md R101). -/
structure Instr.HasWord (i : Instr) (w : Word) : Prop where
  reserved : w.extractLsb' 12 20 = 0#20
  opc : w.extractLsb' 0 8 = BitVec.ofNat 8 i.opcode
  unused : i.ctx? = none → w.extractLsb' 8 4 = 0#4

/-- Having a word is a matter of the opcode alone. -/
theorem Instr.HasWord.congr {i j : Instr} {w : Word} (h : i.HasWord w) (hij : i.opcode = j.opcode) : j.HasWord w where
  reserved := h.reserved
  opc := hij ▸ h.opc
  unused := by
    rw [Instr.ctx?_eq_none_iff, ← hij, ← Instr.ctx?_eq_none_iff]
    exact h.unused

/-- A word has one opcode. -/
theorem Instr.HasWord.opcode_eq {i j : Instr} {w : Word} (hi : i.HasWord w) (hj : j.HasWord w) : i.opcode = j.opcode := by
  rw [← i.opcode_toNat, ← hi.opc, hj.opc, j.opcode_toNat]

/-- The decoder answers the command of the word's opcode, with the word's context number. -/
theorem decode_eq_ok_iff {w : Word} {i : Instr} :
    decode w = .ok i ↔ i.HasWord w ∧ i.withCtx (w.extractLsb' 8 4).toNat = i := by
  constructor
  · intro h
    unfold decode at h
    split at h
    · cases h
    · next hres =>
      split at h
      · cases h
      · next hi =>
        split at h
        · cases h
        · next hctx =>
          cases h
          obtain ⟨hopc, hc⟩ := instrOfOpcode_eq_some_iff.1 hi
          refine ⟨⟨not_not.1 hres, BitVec.eq_of_toNat_eq (hopc.trans i.opcode_toNat.symm), fun hnone => ?_⟩, hc⟩
          simpa [hnone] using hctx
  · rintro ⟨⟨hres, hopc, hunused⟩, hc⟩
    have hi := instrOfOpcode_opcode i (w.extractLsb' 8 4).toNat
    simp only [decode, hres, hopc, Instr.opcode_toNat, hi, hc]
    simpa using hunused

theorem Instr.HasWord.decode {i : Instr} {w : Word} (h : i.HasWord w) :
    decode w = .ok (i.withCtx (w.extractLsb' 8 4).toNat) :=
  decode_eq_ok_iff.2 ⟨h.congr (by simp), by simp⟩

/-- The legal words are the words of the opcodes (30_encoding.md R101). -/
theorem legal_iff {w : Word} : legal w = true ↔ ∃ i : Instr, i.HasWord w := by
  constructor
  · intro h
    unfold legal at h
    split at h
    · next i hi => exact ⟨i, (decode_eq_ok_iff.1 hi).1⟩
    · cases h
  · rintro ⟨i, hi⟩
    simp [legal, hi.decode]

/-! ## Encoder and decoder -/

theorem encode_fields {i : Instr} (h : i.wellFormed = true) : i.HasWord (encode i) ∧
    ((encode i).extractLsb' 8 4).toNat = i.ctx?.getD 0 := by
  obtain ⟨-, -, -, hopc, hctx, hres⟩ := Laws.word_fields (i.wellFormed_iff.1 h) i.opcode_lt
  exact ⟨⟨hres, BitVec.eq_of_toNat_eq (hopc.trans i.opcode_toNat.symm), fun hnone =>
    BitVec.eq_of_toNat_eq (hctx.trans (by simp [hnone]))⟩, hctx⟩

theorem decode_encode {i : Instr} (h : i.wellFormed = true) : decode (encode i) = .ok i := by
  obtain ⟨hword, hctx⟩ := encode_fields h
  rw [hword.decode, hctx, Instr.withCtx_self]

/-- The context number of the decoded command is the word's CTX field, which is 0 where the opcode takes none. -/
theorem ctx_of_decode {w : Word} {i : Instr} (h : decode w = .ok i) : i.ctx?.getD 0 = (w.extractLsb' 8 4).toNat := by
  obtain ⟨hword, hc⟩ := decode_eq_ok_iff.1 h
  rw [← hc, Instr.withCtx_ctx?]
  cases hi : i.ctx? with
  | none => simp [hword.unused hi]
  | some c => rfl

theorem wellFormed_of_decode {w : Word} {i : Instr} (h : decode w = .ok i) : i.wellFormed = true :=
  i.wellFormed_iff.2 (ctx_of_decode h ▸ (w.extractLsb' 8 4).isLt)

/-- `encode i` has the fields of every word that decodes to `i`. -/
theorem encode_of_decode {w : Word} {i : Instr} (h : decode w = .ok i) : encode i = w := by
  obtain ⟨hcode, hctx⟩ := encode_fields (wellFormed_of_decode h)
  obtain ⟨hword, -⟩ := decode_eq_ok_iff.1 h
  exact word_ext_iff.2 ⟨hcode.reserved.trans hword.reserved.symm, hcode.opc.trans hword.opc.symm,
    BitVec.eq_of_toNat_eq (hctx.trans (ctx_of_decode h))⟩

/-! ## The opcode map -/

/-- The row of the opcode map for a command's opcode. -/
def Instr.row (i : Instr) : OpcodeRow :=
  ⟨i.mnemonic, i.ctx?.isSome, BitVec.ofNat 32 i.opcode, if i.ctx?.isSome then 0xFFFFF0FF else 0xFFFFFFFF⟩

/-- One command of each opcode. -/
def opcodeCommands : List Instr :=
  [.pktEnclen, .pktDeclen, .pktCreate 0, .pktReconfig 0, .pktDestroy 0, .pktEncode 0, .pktDecode 0, .pktDecodeSoft 0,
    .schemeId2name, .schemeName2id, .fsCreate, .fsExecute, .fsDestroy]

theorem opcodeRows_eq : opcodeRows = opcodeCommands.map Instr.row := rfl

/-- No two rows have one opcode. -/
theorem mnemonics_of_opcode (i : Instr) :
    (opcodeCommands.filter fun j => decide (j.opcode = i.opcode)).map Instr.mnemonic = [i.mnemonic] := by cases i <;> rfl

/-- The mask of a row that uses CTX leaves out that field alone. -/
theorem and_ctxMask_fields (w : Word) :
    (w &&& 0xFFFFF0FF).extractLsb' 12 20 = w.extractLsb' 12 20 ∧ (w &&& 0xFFFFF0FF).extractLsb' 0 8 = w.extractLsb' 0 8 ∧
    (w &&& 0xFFFFF0FF).extractLsb' 8 4 = 0#4 := by
  simp only [BitVec.extractLsb'_and]
  exact ⟨BitVec.and_allOnes, BitVec.and_allOnes, BitVec.and_zero⟩

theorem pattern_fields (i : Instr) :
    (BitVec.ofNat 32 i.opcode).extractLsb' 12 20 = 0#20 ∧ (BitVec.ofNat 32 i.opcode).extractLsb' 0 8 = BitVec.ofNat 8 i.opcode ∧
    (BitVec.ofNat 32 i.opcode).extractLsb' 8 4 = 0#4 := by
  have h := Laws.word_fields (c := 0) (by decide) i.opcode_lt
  rw [Nat.zero_mul, Nat.zero_add] at h
  obtain ⟨-, -, -, hopc, hctx, hres⟩ := h
  exact ⟨hres, BitVec.eq_of_toNat_eq (hopc.trans i.opcode_toNat.symm), BitVec.eq_of_toNat_eq hctx⟩

/-- The words a row selects by mask and match are those of its opcode. -/
theorem row_selects_iff (i : Instr) (w : Word) : i.row.selects w = true ↔ i.HasWord w := by
  obtain ⟨hres, hopc, hctx⟩ := pattern_fields i
  rw [OpcodeRow.selects, decide_eq_true_iff, word_ext_iff]
  cases hi : i.ctx? with
  | none =>
    have hmask : w &&& i.row.mask = w := by simpa [Instr.row, hi] using BitVec.and_allOnes (x := w)
    rw [hmask, Instr.row, hres, hopc, hctx]
    exact ⟨fun ⟨h1, h2, h3⟩ => ⟨h1, h2, fun _ => h3⟩, fun ⟨h1, h2, h3⟩ => ⟨h1, h2, h3 hi⟩⟩
  | some c =>
    have hmask : i.row.mask = 0xFFFFF0FF := by simp [Instr.row, hi]
    obtain ⟨mres, mopc, mctx⟩ := and_ctxMask_fields w
    rw [hmask, mres, mopc, mctx, Instr.row, hres, hopc, hctx]
    exact ⟨fun ⟨h1, h2, _⟩ => ⟨h1, h2, fun hnone => nomatch hi.symm.trans hnone⟩, fun ⟨h1, h2, _⟩ => ⟨h1, h2, rfl⟩⟩

/-- The opcodes of the commands are the 13 of the map. -/
theorem mem_opcodes_iff (b : Byte) :
    b ∈ [0x01#8, 0x02#8, 0x03#8, 0x04#8, 0x05#8, 0x06#8, 0x07#8, 0x08#8, 0x09#8, 0x0A#8, 0x10#8, 0x11#8, 0x12#8] ↔
    ∃ i : Instr, b = BitVec.ofNat 8 i.opcode := by
  constructor
  · intro h
    obtain ⟨i, -, hi⟩ := List.mem_map.1 (show b ∈ opcodeCommands.map fun i => BitVec.ofNat 8 i.opcode from h)
    exact ⟨i, hi.symm⟩
  · rintro ⟨i, rfl⟩
    cases i <;> simp [Instr.opcode]

theorem mem_ctxOpcodes_iff (i : Instr) :
    BitVec.ofNat 8 i.opcode ∈ [0x03#8, 0x04#8, 0x05#8, 0x06#8, 0x07#8, 0x08#8] ↔ ¬i.ctx? = none := by
  cases i <;> simp [Instr.opcode, Instr.ctx?]

end Sys2Proof
end

section
/-! PROOFS. The command word: decoder against encoder and opcode map, the legal words, what an illegal one does (30_encoding.md R100,
R101, R110, R111), and the scheme tables (R104, R105). -/

namespace Sys2Proof.Machine

/-! ## Decoder, encoder and opcode map -/

/-- Settles O1: a command and its word have the same three fields. -/
theorem decodeAndEncodeAgree : Obligations.DecodeAndEncodeAgree :=
  ⟨fun _ h => decode_encode h, fun _ _ h => ⟨encode_of_decode h, wellFormed_of_decode h⟩⟩

/-- Settles O2: a row selects the words of its opcode, and a word has one opcode or, if it is illegal, none. -/
theorem decodeSelectsOneRow : Obligations.DecodeSelectsOneRow := by
  intro w
  rw [opcodeRows_eq, List.filter_map]
  refine ⟨fun i hi => ?_, fun hl => ?_⟩
  · obtain ⟨hword, -⟩ := decode_eq_ok_iff.1 hi
    have hrow : (fun r => r.selects w) ∘ Instr.row = fun j => decide (j.opcode = i.opcode) := by
      funext j
      rw [Bool.eq_iff_iff, decide_eq_true_iff]
      exact (row_selects_iff j w).trans ⟨fun hj => hj.opcode_eq hword, fun h => hword.congr h.symm⟩
    rw [hrow, List.map_map]
    exact mnemonics_of_opcode i
  · have hnone : ∀ j : Instr, ¬j.row.selects w = true := fun j hj => by
      rw [legal_iff.2 ⟨j, (row_selects_iff j w).1 hj⟩] at hl
      cases hl
    simp [hnone]

/-! ## Legal and illegal words -/

/-- R101's three conditions are those of having a word, the opcode being one of the map's. -/
theorem legal_iff_fields (w : Word) : legal w = true ↔
    w.extractLsb' 0 8 ∈ [0x01#8, 0x02#8, 0x03#8, 0x04#8, 0x05#8, 0x06#8, 0x07#8, 0x08#8, 0x09#8, 0x0A#8, 0x10#8, 0x11#8, 0x12#8] ∧
    w.extractLsb' 12 20 = 0#20 ∧
    (w.extractLsb' 0 8 ∉ [0x03#8, 0x04#8, 0x05#8, 0x06#8, 0x07#8, 0x08#8] → w.extractLsb' 8 4 = 0#4) := by
  rw [legal_iff, mem_opcodes_iff]
  constructor
  · rintro ⟨i, hres, hopc, hunused⟩
    rw [hopc, mem_ctxOpcodes_iff, not_not]
    exact ⟨⟨i, rfl⟩, hres, hunused⟩
  · rintro ⟨⟨i, hopc⟩, hres, hunused⟩
    rw [hopc, mem_ctxOpcodes_iff, not_not] at hunused
    exact ⟨i, hres, hopc, hunused⟩

theorem acceptCommand_illegal {w : Word} {s : State} (hl : legal w = false) (hb : s.eng.busy = false) :
    acceptCommand w s = raise ⟨.illegalCmd, w⟩ (noteCommand w s) := by simp [acceptCommand, acceptIdle, hl, hb]

/-- An idle engine is left as it is by an error. -/
theorem raise_idle {s : State} (hb : s.eng.busy = false) (e : CmdError) : raise e s = { s with
    regs := { s.regs with
      done := false, err := true, errCode := e.code.toByte, errInfo := e.info, intStatus := s.regs.intStatus ||| intErr } } := by
  have heng : { s.eng with busy := false } = s.eng := by rw [← hb]
  simp [raise, heng]

theorem writeOffset_cmd (P : Params) (s : State) (w : Word) : writeOffset P s 0x010 w = acceptCommand w s := rfl

/-- What an illegal word written to CMD at an idle engine does (30_encoding.md R101). -/
theorem step_illegal {w : Word} {s : State} (hl : legal w = false) (hb : s.eng.busy = false) :
    step { s with agenda := wr 0x010 w :: s.agenda } = .next { s with
      regs := { s.regs with
        done := false, err := true, errCode := 0x01#8, errInfo := w, lastOpc := w.extractLsb' 0 8
        intStatus := s.regs.intStatus ||| 0b0010#4 } } := by
  rw [step_wr (by decide) (by decide), writeOffset_cmd, acceptCommand_illegal hl hb, raise_idle (s := noteCommand w s) hb]
  rfl

/-- A command that takes a context checks its number before all else (60_exceptions.md R264, R265). -/
theorem commandError_ctx (P : Params) (s : State) {i : Instr} {c : Nat} (h : i.ctx? = some c) :
    ∃ rest, commandError P s i = firstError (ctxRangeCheck P c :: rest) := by
  cases i with
  | pktCreate | pktReconfig | pktDestroy | pktEncode | pktDecode | pktDecodeSoft => cases h; exact ⟨_, rfl⟩
  | _ => cases h

theorem exec_ctxRange {i : Instr} {c : Nat} (hi : i.ctx? = some c) (hc : Config.params.numCtx ≤ c) (s : State) :
    exec i s = .next (raise ⟨.ctxRange, BitVec.ofNat 32 c⟩ s) := by
  obtain ⟨rest, hchecks⟩ := commandError_ctx Config.params s hi
  rw [ctxRangeCheck_eq, if_neg (Nat.not_lt.2 hc), firstError_some_cons] at hchecks
  rw [exec_eq, execWith_of_error hchecks]

/-- Settles O3: by `legal_iff_fields`, `step_illegal` and `exec_ctxRange`. -/
theorem legalWords : Obligations.LegalWords :=
  ⟨legal_iff_fields, fun _ _ hl hb => step_illegal hl hb, fun s _ _ hi hc => exec_ctxRange hi hc s⟩

/-- Settles O5: no opcode of the map is reserved, so no command has such a word. -/
theorem reservedEncodingsAreRefused : Obligations.ReservedEncodingsAreRefused := by
  refine ⟨fun w hbad => ?_, fun _ _ hb hl => step_illegal hl hb⟩
  rw [← Bool.not_eq_true, legal_iff]
  rintro ⟨i, hres, hopc, -⟩
  rw [hopc, Instr.opcode_toNat, hres] at hbad
  have hrange := i.opcode_range
  simp only [ne_eq, not_true_eq_false, or_false] at hbad
  omega

/-- Settles O4: six are words of commands, and three break one of the decoder's conditions each. -/
theorem writtenWordsDecode : Obligations.WrittenWordsDecode :=
  ⟨decode_encode (i := .pktEnclen) rfl, decode_encode (i := .pktCreate 15) rfl, decode_encode (i := .pktEncode 2) rfl,
    decode_encode (i := .pktDecodeSoft 5) rfl, decode_encode (i := .schemeName2id) rfl, decode_encode (i := .fsExecute) rfl,
    by decide, by decide, by decide⟩

/-! ## The scheme tables -/

theorem edName_of_ge {id : Byte} (h : 7 ≤ id.toNat) : edName id = nameUnknown := by
  unfold edName
  split
  case h_7 => rfl
  all_goals omega

section Registry
variable (P : Params) {id : Byte} {e : FecEntry}

/-- Past the two fixed schemes the registry decides (30_encoding.md R105, R106). -/
theorem fec_registered (hid : 3 ≤ id.toNat) (he : P.fecExtra id = some e) (n : Nat) :
    knownFec P id = true ∧ fecLen P id n = e.len n ∧ fecName P id = e.name := by
  unfold knownFec fecLen fecName
  split
  case h_4 => simp [he]
  all_goals omega

theorem fec_unregistered (hid : 3 ≤ id.toNat) (he : P.fecExtra id = none) :
    knownFec P id = false ∧ fecName P id = nameUnknown := by
  unfold knownFec fecName
  split
  case h_4 => simp [he]
  all_goals omega

end Registry

/-- Settles O32: the fixed entries by evaluation, the others by the ranges of their ids. -/
theorem schemeTables : Obligations.SchemeTables :=
  ⟨fun _ => decide_eq_true_iff, by decide, by decide, fun _ h => edName_of_ge h, fun P n =>
    ⟨rfl, rfl, rfl, rfl, fun _ hid => ⟨fun _ he => fec_registered P hid he n, fun he => fec_unregistered P hid he⟩⟩⟩

end Sys2Proof.Machine
end

section
/-! SUPPORT. Encoded and decoded lengths (40_packetizer_config.md R131, R133, R134), which error a command's checks raise
(60_exceptions.md R265), and the packetizer's length and context commands as their checks and effects (R132 to R140). -/

namespace Sys2Proof.Machine

/-! ## Encoded and decoded lengths -/

section Lengths
variable {P : Params} {ed inner outer : Byte}

theorem encLen_mono (hP : P.Lawful) : Monotone fun n => encLen P n ed inner outer := fun _ _ h =>
  (fecLen_lawful hP outer).mono _ _ ((fecLen_lawful hP inner).mono _ _ (Nat.add_le_add_right h _))

/-- None gives each byte a byte, and Hamming(7,4) gives it 14 bits, so at least a byte after rounding up. -/
theorem fecLen_strictMono {fec : Byte} (h : fec = 1#8 ∨ fec = 2#8) : StrictMono (fecLen P fec) := by
  rcases h with rfl | rfl
  · exact strictMono_id
  · intro m n hlt
    rw [fecLen_hamming, fecLen_hamming]
    unfold hammingLen ceilDiv
    omega

theorem encLen_strictMono (hi : inner = 1#8 ∨ inner = 2#8) (ho : outer = 1#8 ∨ outer = 2#8) :
    StrictMono fun n => encLen P n ed inner outer := fun _ _ h =>
  fecLen_strictMono ho (fecLen_strictMono hi (Nat.add_lt_add_right h _))

/-- The search of PKT.DECLEN is the library's bounded search for the greatest number with a property. -/
theorem decLen_eq_findGreatest (E : Nat) :
    decLen P E ed inner outer = Nat.findGreatest (fun n => encLen P n ed inner outer ≤ E) P.maxDecLen := by
  unfold decLen
  induction P.maxDecLen with
  | zero => rfl
  | succ n ih => rw [largestFit, Nat.findGreatest_succ, ih]

theorem decLen_le (E : Nat) : decLen P E ed inner outer ≤ P.maxDecLen := by
  rw [decLen_eq_findGreatest]
  exact Nat.findGreatest_le _

theorem encLen_decLen_le {E : Nat} (h : 1 ≤ decLen P E ed inner outer) :
    encLen P (decLen P E ed inner outer) ed inner outer ≤ E := by
  rw [decLen_eq_findGreatest] at h ⊢
  exact Nat.findGreatest_of_ne_zero (P := fun n => encLen P n ed inner outer ≤ E) rfl (Nat.one_le_iff_ne_zero.1 h)

theorem le_decLen {n E : Nat} (hn : LengthOk P n) (h : encLen P n ed inner outer ≤ E) : n ≤ decLen P E ed inner outer := by
  rw [decLen_eq_findGreatest]
  exact Nat.le_findGreatest hn.2 h

end Lengths

/-! ## The first error -/

/-- A check, its condition put as a proposition, before checks of which one fails if this one does not. -/
theorem firstError_check_cons {bad : Bool} {p : Prop} [Decidable p] {code : ErrCode} {info : Word} {l : List (Option CmdError)}
    {rest : CmdError} (hp : bad = true ↔ p) (h : ¬p → firstError l = some rest) :
    firstError (check bad code info :: l) = some (if p then ⟨code, info⟩ else rest) := by
  by_cases hb : p
  · rw [hp.2 hb, check_true, firstError_some_cons, if_pos hb]
  · rw [Bool.eq_false_iff.2 (mt hp.1 hb), check_false, firstError_none_cons, h hb, if_neg hb]

theorem firstError_lenCheck {P : Params} {L : Word} (h : ¬LengthOk P L.toNat) :
    firstError [lenCheck P L.toNat] = some ⟨.configLength, L⟩ := by
  rw [lenCheck_eq, if_neg h, lengthInfo_toNat, firstError_some_cons]

theorem exec_of_error {i : Instr} {s : State} {e : CmdError} (h : commandError Config.params s i = some e) :
    exec i s = .next (raise e s) := (exec_eq i s).trans (execWith_of_error h)

theorem exec_of_ok {i : Instr} {s : State} (h : commandError Config.params s i = none) :
    exec i s = .next (commandEffect Config.params s i) := (exec_eq i s).trans (execWith_of_ok h)

/-! ## When each command's checks pass, and which fails -/

section Commands
variable {P : Params} {s : State} {c : Nat}

theorem pktEnclen_passes_iff :
    commandError P s .pktEnclen = none ↔ SchemeWordOk P s.eng.arg.a1 ∧ LengthOk P s.eng.arg.a0.toNat := by
  simp [commandError, pktEnclenChecks, firstError_cons_none_iff, firstError_append_none_iff, firstError_schemeChecks_none_iff,
    lenCheck_none_iff, and_assoc]

theorem pktEnclen_error (h : ¬(SchemeWordOk P s.eng.arg.a1 ∧ LengthOk P s.eng.arg.a0.toNat)) :
    commandError P s .pktEnclen = some (if swTop s.eng.arg.a1 ≠ 0 then ⟨.illegalArg, s.eng.arg.a1⟩
      else schemeErrorOr P 0 s.eng.arg.a1 ⟨.configLength, s.eng.arg.a0⟩) :=
  firstError_check_cons decide_eq_true_iff fun htop => firstError_schemeChecks fun hsw =>
    firstError_lenCheck fun hlen => h ⟨⟨not_not.1 htop, hsw⟩, hlen⟩

theorem pktDeclen_passes_iff : commandError P s .pktDeclen = none ↔ SchemeWordOk P s.eng.arg.a1 := by
  simp [commandError, pktDeclenChecks, firstError_cons_none_iff, firstError_schemeChecks_none_iff]

/-- The rest of `schemeErrorOr` is not reached: PKT.DECLEN has no check after those of the scheme word. -/
theorem pktDeclen_error (h : ¬SchemeWordOk P s.eng.arg.a1) (rest : CmdError) :
    commandError P s .pktDeclen = some (if swTop s.eng.arg.a1 ≠ 0 then ⟨.illegalArg, s.eng.arg.a1⟩
      else schemeErrorOr P 0 s.eng.arg.a1 rest) :=
  firstError_check_cons decide_eq_true_iff fun htop => by
    rw [← List.append_nil (schemeChecks P 0 s.eng.arg.a1)]
    exact firstError_schemeChecks fun hsw => absurd ⟨not_not.1 htop, hsw⟩ h

theorem configureChecks_pass_iff {bad : Bool} : firstError (configureChecks P bad c s) = none ↔
    c < P.numCtx ∧ SchemeWordOk P s.eng.arg.a1 ∧ bad = false ∧ LengthOk P s.eng.arg.a0.toNat := by
  simp only [configureChecks, firstError_cons_none_iff, firstError_append_none_iff, firstError_schemeChecks_none_iff,
    lenCheck_none_iff, ctxRangeCheck_none_iff, check_none_iff, firstError_nil, decide_eq_false_iff_not, not_not]
  tauto

/-- PKT.CREATE and PKT.RECONFIG differ in the condition of CTX_STATE alone. -/
theorem configureChecks_error {bad : Bool} {p : Prop} [Decidable p] (hp : bad = true ↔ p)
    (h : ¬(c < P.numCtx ∧ SchemeWordOk P s.eng.arg.a1 ∧ ¬p ∧ LengthOk P s.eng.arg.a0.toNat)) :
    firstError (configureChecks P bad c s) = some
      (if c ≥ P.numCtx then ⟨.ctxRange, BitVec.ofNat 32 c⟩
       else if swTop s.eng.arg.a1 ≠ 0 then ⟨.illegalArg, s.eng.arg.a1⟩
       else if p then ⟨.ctxState, BitVec.ofNat 32 c⟩
       else schemeErrorOr P 0 s.eng.arg.a1 ⟨.configLength, s.eng.arg.a0⟩) :=
  firstError_check_cons decide_eq_true_iff fun hc => firstError_check_cons decide_eq_true_iff fun htop =>
    firstError_check_cons hp fun hstate => firstError_schemeChecks fun hsw =>
      firstError_lenCheck fun hlen => h ⟨Nat.not_le.1 hc, ⟨not_not.1 htop, hsw⟩, hstate, hlen⟩

theorem pktCreate_passes_iff : commandError P s (.pktCreate c) = none ↔
    c < P.numCtx ∧ SchemeWordOk P s.eng.arg.a1 ∧ (s.ctx c).configured = false ∧ LengthOk P s.eng.arg.a0.toNat :=
  configureChecks_pass_iff

theorem pktReconfig_passes_iff : commandError P s (.pktReconfig c) = none ↔
    c < P.numCtx ∧ SchemeWordOk P s.eng.arg.a1 ∧ (s.ctx c).configured = true ∧ LengthOk P s.eng.arg.a0.toNat :=
  configureChecks_pass_iff.trans (by rw [Bool.not_eq_false'])

theorem pktDestroy_passes_iff :
    commandError P s (.pktDestroy c) = none ↔ c < P.numCtx ∧ (s.ctx c).configured = true := by
  simp [commandError, pktDestroyChecks, firstError_cons_none_iff, ctxRangeCheck_none_iff]

theorem pktDestroy_error (h : ¬(c < P.numCtx ∧ (s.ctx c).configured = true)) : commandError P s (.pktDestroy c) = some
    (if c ≥ P.numCtx then ⟨.ctxRange, BitVec.ofNat 32 c⟩ else ⟨.ctxState, BitVec.ofNat 32 c⟩) :=
  firstError_check_cons decide_eq_true_iff fun hc => by
    have hfree : (s.ctx c).configured = false := Bool.eq_false_iff.2 fun hconf => h ⟨Nat.not_le.1 hc, hconf⟩
    rw [hfree]
    rfl

/-! ## The effects -/

theorem complete_eq_completed (s : State) : complete s = completed s.regs s := by
  simp [complete, completed, completedRegs, intDone]

theorem pktEnclenEffect_eq : pktEnclenEffect P s = completed
    { s.regs with
      result0 := toWord (encLen P s.eng.arg.a0.toNat (swEd s.eng.arg.a1) (swInner s.eng.arg.a1) (swOuter s.eng.arg.a1)) } s :=
  complete_eq_completed _

theorem pktDeclenEffect_eq : pktDeclenEffect P s = completed
    { s.regs with
      result0 := toWord (decLen P s.eng.arg.a0.toNat (swEd s.eng.arg.a1) (swInner s.eng.arg.a1) (swOuter s.eng.arg.a1)) } s :=
  complete_eq_completed _

theorem configureEffect_eq : configureEffect P c s =
    completed { s.regs with result0 := (configuredCtx P s).enc }
      { s with ctxs := s.ctxs.setIfInBounds c (configuredCtx P s) } := complete_eq_completed _

theorem pktDestroyEffect_eq : pktDestroyEffect c s =
    completed s.regs { s with ctxs := s.ctxs.setIfInBounds c ⟨false, 0, 0, 0, 0, 0⟩ } := complete_eq_completed _

end Commands

/-- The word of a command with a context, as the rules of the commands write it. -/
theorem decode_ctxWord {i : Instr} {c : Nat} (hi : i.ctx? = some c) (hc : c < 16) :
    decode (BitVec.ofNat 32 (i.opcode + 256 * c)) = .ok i := by
  have henc : encode i = BitVec.ofNat 32 (i.opcode + 256 * c) := by
    rw [encode, hi, Option.getD_some, Nat.add_comm, Nat.mul_comm]
  rw [← henc]
  exact decode_encode (i.wellFormed_iff.2 (by rwa [hi]))

end Sys2Proof.Machine
end

section
/-! PROOFS. The packetizer's length and context commands, and the laws of the two lengths (40_packetizer_config.md). -/

namespace Sys2Proof.Machine

/-! ## The lengths -/

/-- Settles O28. -/
theorem encodedLengthIsMonotonic : Obligations.EncodedLengthIsMonotonic := fun _ _ _ _ hP =>
  ⟨fun _ _ h => encLen_mono hP h, fun hi ho _ _ h => encLen_strictMono hi ho h⟩

/-- Settles O29: `g (f L)` is at least `L` and no longer than `f L` allows, so `f` is constant between the two. -/
theorem decodedLengthLeftInverse : Obligations.DecodedLengthLeftInverse := by
  intro P L ed inner outer hP hL f g
  have hge : L ≤ g (f L) := le_decLen hL le_rfl
  have hfit : f (g (f L)) ≤ f L := encLen_decLen_le (hL.1.trans hge)
  have heq_of_lt (hlt : f L < f (L + 1)) : g (f L) = L := by
    by_contra hne
    have hsucc : L + 1 ≤ g (f L) := lt_of_le_of_ne hge (Ne.symm hne)
    exact absurd (hlt.trans_le (encLen_mono hP hsucc)) (Nat.not_lt.2 hfit)
  refine ⟨hge, ?_, fun hi ho => heq_of_lt (encLen_strictMono hi ho L.lt_succ_self), hfit.antisymm (encLen_mono hP hge),
    fun n hn hfn => le_decLen hn hfn.le⟩
  rintro (hlt | rfl)
  · exact heq_of_lt hlt
  · exact (decLen_le _).antisymm hge

/-! ## The commands -/

/-- Settles O10. -/
theorem enclenResult : Obligations.EnclenResult := by
  refine ⟨decode_encode (i := .pktEnclen) rfl, fun s => ⟨fun hok => ?_, fun hbad => exec_of_error (pktEnclen_error hbad)⟩⟩
  have ⟨⟨_, hed, hinner, houter⟩, hlen⟩ := hok
  exact ⟨encLen_lt params_lawful hlen.2 hed hinner houter,
    (exec_of_ok (pktEnclen_passes_iff.2 hok)).trans (congrArg _ pktEnclenEffect_eq)⟩

/-- Settles O11: the length is `decLen`. -/
theorem declenResult : Obligations.DeclenResult :=
  ⟨decode_encode (i := .pktDeclen) rfl, fun _ => ⟨fun hok => ⟨_,
      (exec_of_ok (pktDeclen_passes_iff.2 hok)).trans (congrArg _ pktDeclenEffect_eq),
      decLen_le _, encLen_decLen_le, fun _ => le_decLen⟩,
    fun hbad => exec_of_error (pktDeclen_error hbad _)⟩⟩

/-- Settles O12. -/
theorem createResult : Obligations.CreateResult := by
  refine ⟨fun c hc => decode_ctxWord (i := .pktCreate c) rfl hc, fun s c => ⟨fun hok => ?_, fun hbad => ?_⟩⟩
  · have ⟨_, ⟨_, hed, hinner, houter⟩, _, hlen⟩ := hok
    exact ⟨encLen_lt params_lawful hlen.2 hed hinner houter,
      (exec_of_ok (pktCreate_passes_iff.2 hok)).trans (congrArg _ configureEffect_eq)⟩
  · rw [← Bool.not_eq_true] at hbad
    exact exec_of_error (configureChecks_error Iff.rfl hbad)

/-- Settles O13. -/
theorem reconfigResult : Obligations.ReconfigResult := by
  refine ⟨fun c hc => decode_ctxWord (i := .pktReconfig c) rfl hc, fun s c => ⟨fun hok => ?_, fun hbad => ?_⟩⟩
  · have ⟨_, ⟨_, hed, hinner, houter⟩, _, hlen⟩ := hok
    exact ⟨encLen_lt params_lawful hlen.2 hed hinner houter,
      (exec_of_ok (pktReconfig_passes_iff.2 hok)).trans (congrArg _ configureEffect_eq)⟩
  · rw [← Bool.not_eq_false] at hbad
    exact exec_of_error (configureChecks_error (Bool.not_eq_true' _).to_iff hbad)

/-- Settles O14. -/
theorem destroyResult : Obligations.DestroyResult :=
  ⟨fun c hc => decode_ctxWord (i := .pktDestroy c) rfl hc, fun _ _ =>
    ⟨fun hok => (exec_of_ok (pktDestroy_passes_iff.2 hok)).trans (congrArg _ pktDestroyEffect_eq),
      fun hbad => exec_of_error (pktDestroy_error hbad)⟩⟩

/-! ## Reconfiguring again -/

/-- A command that leaves DONE at 1 has raised no error (60_exceptions.md R261). -/
theorem exec_done {i : Instr} {s t : State} (h : exec i s = .next t) (hdone : t.regs.done = true) :
    commandError Config.params s i = none ∧ t = commandEffect Config.params s i := by
  cases he : commandError Config.params s i with
  | none => cases h.symm.trans (exec_of_ok he); exact ⟨rfl, rfl⟩
  | some e => cases h.symm.trans (exec_of_error he); cases hdone

/-- The state in which the operands of `s` come again after PKT.RECONFIG has completed (40_packetizer_config.md R139). -/
def reconfigured (P : Params) (c : Nat) (s : State) : State :=
  let t := configureEffect P c s
  { t with eng := s.eng, regs := { t.regs with done := false } }

theorem reconfigured_ctx {P : Params} {c : Nat} (hc : c < 16) (s : State) :
    (reconfigured P c s).ctx c = configuredCtx P s :=
  (ctx_setCtx s c (configuredCtx P s) c).trans (if_pos ⟨rfl, hc⟩)

theorem pktReconfig_passes_again {P : Params} (hP : P.Lawful) {c : Nat} {s : State}
    (h : commandError P s (.pktReconfig c) = none) : commandError P (reconfigured P c s) (.pktReconfig c) = none := by
  obtain ⟨hc, hsw, -, hlen⟩ := pktReconfig_passes_iff.1 h
  refine pktReconfig_passes_iff.2 ⟨hc, hsw, ?_, hlen⟩
  rw [reconfigured_ctx (hc.trans_le hP.numCtx.2)]
  rfl

/-- Settles O30: the second PKT.RECONFIG passes the checks the first did and writes the same record; PKT.ENCLEN's checks and result
are made of its operands alone. -/
theorem reconfigIsIdempotent : Obligations.ReconfigIsIdempotent := by
  refine ⟨fun s t u c ht hdone _ hu => ?_, fun s ctxs => ?_⟩
  · obtain ⟨hok, rfl⟩ := exec_done ht hdone
    change exec (.pktReconfig c) (reconfigured Config.params c s) = _ at hu
    cases hu.symm.trans (exec_of_ok (pktReconfig_passes_again params_lawful hok))
    exact ⟨Vector.setIfInBounds_setIfInBounds .., rfl, rfl, rfl⟩
  · cases he : commandError Config.params s .pktEnclen with
    | none => exact ⟨_, _, exec_of_ok he, exec_of_ok (s := { s with ctxs := ctxs }) he⟩
    | some e => exact ⟨_, _, exec_of_error he, exec_of_error (s := { s with ctxs := ctxs }) he⟩

end Sys2Proof.Machine
end

section
/-! SUPPORT. What the coding pipeline's stages do to an encoded message and to hard soft bits, the keys byte by byte
(41_packetizer_coding.md R161 to R164), and the three coding commands as their checks and effects (R165 to R169). -/

namespace Sys2Proof.Machine

/-! ## Keys -/

theorem leBytes_toNat {w : Nat} (n : Nat) (v : BitVec w) :
    leBytes n v.toNat = (List.range n).map fun k => v.extractLsb' (8 * k) 8 := by
  apply List.ext_getElem
  · simp
  · intro k hk _
    have hget := leBytes_getD (by simpa using hk) v.toNat
    rw [List.getD_eq_getElem _ _ hk, ← Nat.shiftRight_eq_div_pow] at hget
    rw [hget, List.getElem_map, List.getElem_range]
    rfl

/-- The bytes of a value, most significant first (20_memory.md R83). -/
theorem beBytes_toNat {w : Nat} (n : Nat) (v : BitVec w) :
    beBytes n v.toNat = ((List.range n).map fun k => v.extractLsb' (8 * k) 8).reverse := by
  rw [beBytes, leBytes_toNat]

theorem checksum8_toNat (m : List Byte) : (checksum8 m).toNat = (256 - (m.map BitVec.toNat).sum % 256) % 256 := by
  rw [checksum8, BitVec.toNat_ofNat, List.sum_eq_foldr, List.foldr_map]
  exact Nat.mod_mod _ _

/-- The key brings the sum of the bytes to 0 mod 256 (41_packetizer_coding.md R162). -/
theorem sum_append_checksum8 (m : List Byte) : ((m ++ [checksum8 m]).map BitVec.toNat).sum % 256 = 0 := by
  rw [List.map_append, List.sum_append, List.map_singleton, List.sum_singleton, checksum8_toNat]
  omega

/-! ## SPLIT -/

section Pipeline
variable {P : Params} {p : Pkt}

theorem pktSplit_append_key {m : List Byte} (hm : m.length = p.len) : pktSplit P p (m ++ keyOf P p.ed m) = (m, true) := by
  have hkey : (keyOf P p.ed m).take (keyLen p.ed) = keyOf P p.ed m := List.take_of_length_le (keyOf_length ..).le
  simp [pktSplit, ← hm, hkey]

theorem pktSplit_valid_of_ed_none (hed : p.ed = schemeNone) (a : List Byte) : (pktSplit P p a).2 = true := by
  simp [pktSplit, hed]

theorem pktSplit_length {a : List Byte} (ha : a.length = p.keyedLen) : (pktSplit P p a).1.length = p.len := by
  rw [pktSplit, List.length_take, ha, Pkt.keyedLen]
  omega

/-! ## The FEC stages -/

section Stages
variable (hP : P.Lawful) {fec : Byte} (hf : knownFec P fec = true) {n : Nat}
include hP hf

theorem fecEnc_length {a : List Byte} (ha : a.length = n) : (fecEnc P fec a).length = fecLen P fec n :=
  ((fecCodec_lawful hP hf).enc_length a).trans (congrArg _ ha)

theorem fecDec_length {b : List Byte} (hb : b.length = fecLen P fec n) : (fecDec P fec b n).length = n :=
  (fecCodec_lawful hP hf).dec_length b n hb

theorem fecDecSoft_length {s : List Byte} (hs : s.length = 8 * fecLen P fec n) : (fecDecSoft P fec s n).length = n :=
  (fecCodec_lawful hP hf).decSoft_length s n hs

theorem fecDec_fecEnc {a : List Byte} (ha : a.length = n) : fecDec P fec (fecEnc P fec a) n = a :=
  ha ▸ (fecCodec_lawful hP hf).round_trip a

theorem fecDecSoft_soft {b : List Byte} (hb : b.length = fecLen P fec n) :
    fecDecSoft P fec (soft b) n = fecDec P fec b n :=
  (fecCodec_lawful hP hf).hard_input b n hb

end Stages

/-! ## Decoding -/

/-- Each stage of DEC undoes the stage of ENC it mirrors, from the outer FEC inwards (41_packetizer_coding.md R166). -/
theorem pktDec_pktEnc (hP : P.Lawful) (hi : knownFec P p.inner = true) (ho : knownFec P p.outer = true) {m : List Byte}
    (hm : m.length = p.len) : pktDec P p (pktEnc P p m) = (m, true) := by
  have hkeyed : (m ++ keyOf P p.ed m).length = p.keyedLen := by rw [List.length_append, keyOf_length, hm, Pkt.keyedLen]
  have hinner : (fecEnc P p.inner (m ++ keyOf P p.ed m)).length = p.innerLen P := fecEnc_length hP hi hkeyed
  rw [pktDec, pktEnc, fecDec_fecEnc hP ho (ilv_length ..), dilv_ilv P hinner, fecDec_fecEnc hP hi hkeyed,
    pktSplit_append_key hm]

theorem encodedLen_eq (P : Params) (p : Pkt) : p.encodedLen P = fecLen P p.outer (p.innerLen P) := rfl

/-- With no outer FEC the soft values pass on as they are, and DEC's outer stage is the identity (90_conflicts.md C5). -/
theorem outerSoft_soft (hP : P.Lawful) (ho : knownFec P p.outer = true) {d : List Byte} (hd : d.length = p.encodedLen P) :
    outerSoft P p (soft d) = soft (fecDec P p.outer d (p.innerLen P)) := by
  unfold outerSoft
  split
  · next hnone => rw [hnone]; rfl
  · rw [fecDecSoft_soft hP ho (hd.trans (encodedLen_eq P p))]

theorem pktDecSoft_soft (hP : P.Lawful) (hi : knownFec P p.inner = true) (ho : knownFec P p.outer = true) {d : List Byte}
    (hd : d.length = p.encodedLen P) : pktDecSoft P p (soft d) = pktDec P p d := by
  have houter := fecDec_length hP ho (hd.trans (encodedLen_eq P p))
  rw [pktDecSoft, pktDec, outerSoft_soft hP ho hd, dilvSoft_soft P houter,
    fecDecSoft_soft hP hi (dilv_length P (p.innerLen P) _)]

/-- DECSOFT answers L bytes (41_packetizer_coding.md R164). -/
theorem pktDecSoft_length (hP : P.Lawful) (hi : knownFec P p.inner = true) (s : List Byte) :
    (pktDecSoft P p s).1.length = p.len :=
  pktSplit_length (fecDecSoft_length hP hi (dilvSoft_length ..))

theorem slice_getD (s : List Byte) (k : Nat) : (slice s).getD k false = sliceByte (s.getD k 0) :=
  List.getD_map s 0 sliceByte

/-- Slicing the de-interleaved soft values is de-interleaving the sliced bytes. -/
theorem slice_dilvSoft (P : Params) (n : Nat) {k : Nat} {s : List Byte} (hs : s.length = 8 * k) :
    slice (dilvSoft P n s) = bits (dilv P n (pack (slice s))) := by
  rw [bits_dilv, bits_pack (n := k) (by rw [slice_length, hs]), slice, dilvSoft, List.map_ofFn]
  congr 1
  funext i
  exact (slice_getD s _).symm

/-- With both FECs None (41_packetizer_coding.md R169). -/
theorem pktDecSoft_of_fec_none (hi : p.inner = schemeNone) (ho : p.outer = schemeNone) {k : Nat} {s : List Byte}
    (hs : s.length = 8 * k) : pktDecSoft P p s = pktDec P p (pack (slice s)) := by
  have hinner : fecDecSoft P p.inner (dilvSoft P (p.innerLen P) s) p.keyedLen = dilv P (p.innerLen P) (pack (slice s)) := by
    rw [hi]
    exact (congrArg pack (slice_dilvSoft P _ hs)).trans (pack_bits _)
  rw [pktDecSoft, outerSoft, if_pos ho, hinner, pktDec, hi, ho]
  rfl

end Pipeline

/-! ## The coding commands -/

section Commands
variable {P : Params} {s : State} {c : Nat}

theorem codingChecks_pass_iff {srcLen dstLen : Nat} : firstError (codingChecks P c srcLen dstLen s) = none ↔
    c < P.numCtx ∧ (s.ctx c).configured = true ∧ InBuf P s.eng.arg.a2 srcLen ∧ InBuf P s.eng.arg.a3 dstLen := by
  simp [codingChecks, firstError_cons_none_iff, ctxRangeCheck_none_iff, rangeCheck_none_iff]

theorem firstError_rangeCheck_cons {off : Word} {n : Nat} {l : List (Option CmdError)} {rest : CmdError}
    (h : InBuf P off n → firstError l = some rest) :
    firstError (rangeCheck P off n :: l) = some (if ¬InBuf P off n then ⟨.bufRange, off⟩ else rest) :=
  firstError_check_cons (decide_eq_true_iff.trans Nat.not_le.symm) fun hin => h (not_not.1 hin)

theorem firstError_rangeCheck {off : Word} {n : Nat} (h : ¬InBuf P off n) :
    firstError [rangeCheck P off n] = some ⟨.bufRange, off⟩ := by
  rw [rangeCheck_eq, if_neg h, firstError_some_cons]

theorem codingChecks_error {srcLen dstLen : Nat}
    (h : ¬(c < P.numCtx ∧ (s.ctx c).configured = true ∧ InBuf P s.eng.arg.a2 srcLen ∧ InBuf P s.eng.arg.a3 dstLen)) :
    firstError (codingChecks P c srcLen dstLen s) = some
      (if c ≥ P.numCtx then ⟨.ctxRange, BitVec.ofNat 32 c⟩
       else if (s.ctx c).configured = false then ⟨.ctxState, BitVec.ofNat 32 c⟩
       else if ¬InBuf P s.eng.arg.a2 srcLen then ⟨.bufRange, s.eng.arg.a2⟩
       else ⟨.bufRange, s.eng.arg.a3⟩) :=
  firstError_check_cons decide_eq_true_iff fun hc => firstError_check_cons (Bool.not_eq_true' _).to_iff fun hconf =>
    firstError_rangeCheck_cons fun hsrc => firstError_rangeCheck fun hdst =>
      h ⟨Nat.not_le.1 hc, Bool.eq_true_of_not_eq_false hconf, hsrc, hdst⟩

theorem pktEncodeEffect_eq : pktEncodeEffect P c s =
    completed { s.regs with result0 := (s.ctx c).enc } (s.memWrite P s.eng.arg.a3.toNat (encodedBytes P c s)) :=
  complete_eq_completed _

theorem decodedEffect_eq (m : List Byte × Bool) : decodedEffect P c m s =
    completed { s.regs with result0 := if m.2 then 1 else 0, result1 := (s.ctx c).len, valid := m.2 }
      (s.memWrite P s.eng.arg.a3.toNat m.1) :=
  complete_eq_completed _

/-- What a coding command stores, when its bytes are as many as its rule says. -/
theorem Inv.byte_memWrite (h : Inv P s) (off : Nat) {bs : List Byte} {n : Nat} (hlen : bs.length = n) :
    bs.length = n ∧ ∀ a : Nat, (s.memWrite P off bs).byte P a =
      if off ≤ a ∧ a < off + n then bs.getD (a - off) 0 else s.byte P a :=
  ⟨hlen, fun a => hlen ▸ Machine.byte_memWrite h.buf.wf off bs a⟩

/-! ## Encoding and then decoding -/

theorem Inv.ctx_known (hP : P.Lawful) (h : Inv P s) (hc : c < P.numCtx) (hconf : (s.ctx c).configured = true) :
    knownEd (s.ctx c).ed = true ∧ knownFec P (s.ctx c).inner = true ∧ knownFec P (s.ctx c).outer = true :=
  (h.ctx c (hc.trans_le hP.numCtx.2)).known hconf

theorem encodedBytes_length (hP : P.Lawful) (h : Inv P s) (hc : c < P.numCtx) (hconf : (s.ctx c).configured = true) :
    (encodedBytes P c s).length = (s.ctx c).enc.toNat :=
  (pktEnc_length hP (h.ctx_known hP hc hconf).2.2 _).trans ((h.ctx c (hc.trans_le hP.numCtx.2)).encoded hconf).symm

/-- `s` after PKT.ENCODE and the acceptance of a PKT.DECODE whose source is what PKT.ENCODE wrote. -/
def decodeOfEncoded (P : Params) (c : Nat) (dst2 : Word) (s : State) : State :=
  let t := pktEncodeEffect P c s
  { t with eng := { t.eng with arg := { t.eng.arg with a2 := s.eng.arg.a3, a3 := dst2 } } }

theorem decodedMessage_decodeOfEncoded (hP : P.Lawful) (h : Inv P s) (hc : c < P.numCtx)
    (hconf : (s.ctx c).configured = true) (dst2 : Word) :
    decodedMessage P c (decodeOfEncoded P c dst2 s) = (s.memRead P s.eng.arg.a2.toNat (s.ctx c).len.toNat, true) := by
  obtain ⟨-, hinner, houter⟩ := h.ctx_known hP hc hconf
  have hread : (decodeOfEncoded P c dst2 s).memRead P s.eng.arg.a3.toNat (s.ctx c).enc.toNat = encodedBytes P c s := by
    rw [← encodedBytes_length hP h hc hconf]
    exact memRead_memWrite h.buf.wf _ _
  calc decodedMessage P c (decodeOfEncoded P c dst2 s)
      = pktDec P (s.ctx c).pkt (encodedBytes P c s) := congrArg (pktDec P (s.ctx c).pkt) hread
    _ = _ := pktDec_pktEnc hP hinner houter (memRead_length ..)

end Commands

end Sys2Proof.Machine
end

section
/-! PROOFS. The packetizer's coding pipeline and its three commands (41_packetizer_coding.md). -/

namespace Sys2Proof.Machine

/-! ## The pipeline -/

/-- Settles O23: the soft decode of hard soft bits is the hard decode, and the hard decode undoes each stage. -/
theorem packetRoundTrip : Obligations.PacketRoundTrip := fun _ _ m hP _ hi ho hm =>
  have hlen := pktEnc_length hP ho m
  have hhard := pktDec_pktEnc hP hi ho hm
  ⟨hlen, hhard, (pktDecSoft_soft hP hi ho hlen).trans hhard⟩

/-- Settles O25. -/
theorem softAgreesWithHard : Obligations.SoftAgreesWithHard := fun _ _ _ hP _ hi ho hd => pktDecSoft_soft hP hi ho hd

/-- Settles O27. -/
theorem errorDetectionKeys : Obligations.ErrorDetectionKeys := fun P m =>
  ⟨rfl, ⟨checksum8 m, rfl, checksum8_toNat m, sum_append_checksum8 m⟩,
    (beBytes_toNat 1 (P.crc 8 m)).trans (congrArg (fun b => [b]) BitVec.extractLsb'_eq_self),
    beBytes_toNat 2 (P.crc 16 m), beBytes_toNat 3 (P.crc 24 m), beBytes_toNat 4 (P.crc 32 m)⟩

/-! ## The commands -/

/-- Settles O15. -/
theorem encodeResult : Obligations.EncodeResult := by
  refine ⟨fun c hc => decode_ctxWord (i := .pktEncode c) rfl hc,
    fun s c => ⟨fun hok => ⟨?_, fun h => ?_⟩, fun hbad => ?_⟩⟩
  · exact (exec_of_ok (i := .pktEncode c) (codingChecks_pass_iff.2 hok)).trans (congrArg _ pktEncodeEffect_eq)
  · obtain ⟨hc, hconf, -⟩ := hok
    exact h.byte_memWrite _ (encodedBytes_length params_lawful h hc hconf)
  · exact exec_of_error (i := .pktEncode c) (codingChecks_error hbad)

/-- Settles O16. -/
theorem decodeResult : Obligations.DecodeResult := by
  refine ⟨fun c hc => decode_ctxWord (i := .pktDecode c) rfl hc,
    fun s c => ⟨fun hok => ⟨?_, fun hed => pktSplit_valid_of_ed_none hed _, fun h => ?_⟩, fun hbad => ?_⟩⟩
  · exact (exec_of_ok (i := .pktDecode c) (codingChecks_pass_iff.2 hok)).trans (congrArg _ (decodedEffect_eq _))
  · obtain ⟨hc, hconf, -⟩ := hok
    exact h.byte_memWrite _ (pktDec_length params_lawful (h.ctx_known params_lawful hc hconf).2.1 _)
  · exact exec_of_error (i := .pktDecode c) (codingChecks_error hbad)

/-- Settles O17. -/
theorem decodeSoftResult : Obligations.DecodeSoftResult := by
  refine ⟨fun c hc => decode_ctxWord (i := .pktDecodeSoft c) rfl hc,
    fun s c => ⟨fun hok => ⟨?_, fun hed => pktSplit_valid_of_ed_none hed _,
      fun hi ho => pktDecSoft_of_fec_none hi ho (memRead_length ..), fun h => ?_⟩, fun hbad => ?_⟩⟩
  · exact (exec_of_ok (i := .pktDecodeSoft c) (codingChecks_pass_iff.2 hok)).trans (congrArg _ (decodedEffect_eq _))
  · obtain ⟨hc, hconf, -⟩ := hok
    exact h.byte_memWrite _ (pktDecSoft_length params_lawful (h.ctx_known params_lawful hc hconf).2.1 _)
  · exact exec_of_error (i := .pktDecodeSoft c) (codingChecks_error hbad)

/-- Settles O24: PKT.DECODE reads the bytes PKT.ENCODE wrote, so it decodes the message to its own destination. -/
theorem encodeThenDecode : Obligations.EncodeThenDecode := by
  intro s c dst2 P L E src dst h hc hconf hsrc hdst hdst2
  have hmsg := decodedMessage_decodeOfEncoded params_lawful h hc hconf dst2
  have hlen := encodedBytes_length params_lawful h hc hconf
  have hwf := (h.memWrite (off := dst.toNat) (hlen ▸ hdst)).buf.wf
  have hstored := memRead_memWrite hwf dst2.toNat (s.memRead P src.toNat L.toNat)
  rw [memRead_length] at hstored
  refine ⟨_, _, exec_of_ok (i := .pktEncode c) (codingChecks_pass_iff.2 ⟨hc, hconf, hsrc, hdst⟩),
    exec_of_ok (i := .pktDecode c) (s := decodeOfEncoded P c dst2 s)
      (codingChecks_pass_iff.2 ⟨hc, hconf, hdst, hdst2⟩), ?_⟩
  rw [commandEffect, hmsg, decodedEffect_eq]
  exact ⟨hstored, rfl, rfl, rfl, rfl⟩

end Sys2Proof.Machine
end

section
/-! SUPPORT. The scheme names and the search for a name (42_scheme_names.md R190 to R194), NUL-terminated bytes in BUF, and the two
name commands as their checks and effects (R191, R193). -/

namespace Sys2Proof.Machine

/-! ## The names -/

section Names
variable {P : Params} {k : Bool} {id x y : Byte}

theorem schemeName_zero (P : Params) (k : Bool) : schemeName P k 0 = nameUnknown := by cases k <;> rfl

theorem edName_of_not_known (h : knownEd id = false) : edName id = nameUnknown := by
  have hid : ¬(1 ≤ id.toNat ∧ id.toNat ≤ 6) := decide_eq_false_iff_not.1 h
  unfold edName
  split
  case h_7 => rfl
  all_goals omega

theorem fecName_of_not_known (h : knownFec P id = false) : fecName P id = nameUnknown := by
  unfold knownFec at h
  unfold fecName
  split
  · rfl
  · next hid => rw [hid] at h; cases h
  · next hid => rw [hid] at h; cases h
  · split at h
    case h_4 => rw [Option.isSome_eq_false_iff, Option.isNone_iff_eq_none] at h; rw [h]
    all_goals contradiction

/-- An id that is not known is named "unknown" (42_scheme_names.md R191). -/
theorem schemeName_of_not_known (h : knownScheme P k id = false) : schemeName P k id = nameUnknown := by
  cases k
  case false => exact edName_of_not_known h
  case true => exact fecName_of_not_known h

/-- A known FEC id is None, Hamming(7,4) or a registered one, whose name is its entry's. -/
theorem fecName_of_known (h : knownFec P id = true) :
    (id = 1#8 ∧ fecName P id = nameNone) ∨ (id = 2#8 ∧ fecName P id = nameHamming) ∨
    ∃ e, P.fecExtra id = some e ∧ fecName P id = e.name := by
  rcases knownFec_cases h with rfl | rfl | ⟨hid, e, he⟩
  · exact .inl ⟨rfl, rfl⟩
  · exact .inr (.inl ⟨rfl, rfl⟩)
  · exact .inr (.inr ⟨e, he, (fec_registered P hid he 0).2.2⟩)

/-- The table's names, "unknown" with them, are distinct. -/
theorem edName_inj (hx : x.toNat ≤ 6) (hy : y.toNat ≤ 6) (h : edName x = edName y) : x = y := by
  have hdistinct : ∀ i j : Fin 7, edName (BitVec.ofNat 8 i) = edName (BitVec.ofNat 8 j) → i = j := by decide
  have hxy : x.toNat = y.toNat :=
    Fin.mk.inj (hdistinct ⟨x.toNat, by omega⟩ ⟨y.toNat, by omega⟩ (by simpa using h))
  exact BitVec.eq_of_toNat_eq hxy

section Lawful
variable (hP : P.Lawful)
include hP

theorem fecName_ne_unknown (h : knownFec P id = true) : fecName P id ≠ nameUnknown := by
  rcases fecName_of_known h with ⟨-, hn⟩ | ⟨-, hn⟩ | ⟨e, he, hn⟩ <;> rw [hn]
  · decide
  · decide
  · exact (hP.extra _ _ he).name_new.1

/-- The registry may repeat neither a fixed name nor one of its own (42_scheme_names.md R190). -/
theorem fecName_inj (hx : knownFec P x = true) (hy : knownFec P y = true) (h : fecName P x = fecName P y) : x = y := by
  have hnew {z : Byte} {e : FecEntry} (he : P.fecExtra z = some e) := (hP.extra z e he).name_new
  rcases fecName_of_known hx with ⟨rfl, hnx⟩ | ⟨rfl, hnx⟩ | ⟨e, he, hnx⟩ <;>
    rcases fecName_of_known hy with ⟨rfl, hny⟩ | ⟨rfl, hny⟩ | ⟨e', he', hny⟩ <;>
    replace h := hnx.symm.trans (h.trans hny)
  · rfl
  · exact absurd h (by decide)
  · exact absurd h.symm (hnew he').2.1
  · exact absurd h (by decide)
  · rfl
  · exact absurd h.symm (hnew he').2.2
  · exact absurd h (hnew he).2.1
  · exact absurd h (hnew he).2.2
  · exact hP.extra_distinct x y e e' he he' h

theorem schemeName_ne_unknown (h : knownScheme P k id = true) : schemeName P k id ≠ nameUnknown := by
  cases k
  case false =>
    have hid : 1 ≤ id.toNat ∧ id.toNat ≤ 6 := decide_eq_true_iff.1 h
    intro hn
    have h0 : id = 0 := edName_inj hid.2 (Nat.zero_le 6) hn
    simp [h0] at hid
  case true => exact fecName_ne_unknown hP h

/-- Known ids of one table have different names. -/
theorem schemeName_inj (hx : knownScheme P k x = true) (hy : knownScheme P k y = true)
    (h : schemeName P k x = schemeName P k y) : x = y := by
  cases k
  case false => exact edName_inj (decide_eq_true_iff.1 hx).2 (decide_eq_true_iff.1 hy).2 h
  case true => exact fecName_inj hP hx hy h

theorem schemeName_length_pos (k : Bool) (id : Byte) : 1 ≤ (schemeName P k id).length := by
  cases k
  case false =>
    change 1 ≤ (edName id).length
    unfold edName
    split <;> decide
  case true =>
    change 1 ≤ (fecName P id).length
    cases h : knownFec P id with
    | false => rw [fecName_of_not_known h]; decide
    | true =>
      rcases fecName_of_known h with ⟨-, hn⟩ | ⟨-, hn⟩ | ⟨e, he, hn⟩ <;> rw [hn]
      · decide
      · decide
      · exact (hP.extra _ _ he).name_length.1

end Lawful

end Names

/-! ## The search for a name -/

/-- "the known id of table k whose name equals q, or 0 if there is none" (42_scheme_names.md R193). -/
def IsIdOfName (P : Params) (k : Bool) (q : List Byte) (id : Byte) : Prop :=
  (knownScheme P k id = true ∧ schemeName P k id = q) ∨
  (id = 0 ∧ ∀ x, knownScheme P k x = true → schemeName P k x ≠ q)

theorem schemeIdOfName_spec (P : Params) (k : Bool) (q : List Byte) :
    ∃ id : Byte, schemeIdOfName P k q = id.toNat ∧ IsIdOfName P k q id := by
  unfold schemeIdOfName
  generalize hf : List.find? _ (List.range 256) = found
  cases found with
  | none =>
    refine ⟨0, rfl, .inr ⟨rfl, fun x hx hn => ?_⟩⟩
    have hnot := List.find?_eq_none.1 hf x.toNat (List.mem_range.2 x.isLt)
    simp [hx, hn] at hnot
  | some n =>
    have hn : n < 256 := List.mem_range.1 (List.mem_of_find?_eq_some hf)
    have hfound := List.find?_some hf
    simp only [Bool.and_eq_true, decide_eq_true_eq] at hfound
    exact ⟨BitVec.ofNat 8 n, (Nat.mod_eq_of_lt hn).symm, .inl hfound⟩

/-! ## NUL-terminated bytes -/

theorem upToNul_of_not_mem {l : List Byte} (h : 0 ∉ l) : upToNul l = none := by
  induction l with
  | nil => rfl
  | cons b rest ih =>
    obtain ⟨hb, hrest⟩ := not_or.1 (mt List.mem_cons.2 h)
    rw [upToNul, if_neg (Ne.symm hb), ih hrest, Option.map_none]

theorem upToNul_append_nul {q : List Byte} (h : 0 ∉ q) (rest : List Byte) : upToNul (q ++ 0 :: rest) = some q := by
  induction q with
  | nil => rfl
  | cons b q ih =>
    obtain ⟨hb, hq⟩ := not_or.1 (mt List.mem_cons.2 h)
    rw [List.cons_append, upToNul, if_neg (Ne.symm hb), ih hq, Option.map_some]

theorem schemeIdOfBytes_spec (P : Params) (k : Bool) (l : List Byte) :
    ∃ id : Byte, schemeIdOfBytes P k l = id.toNat ∧ (∀ q, upToNul l = some q → IsIdOfName P k q id) ∧
      (upToNul l = none → id = 0) := by
  unfold schemeIdOfBytes
  cases upToNul l with
  | none => exact ⟨0, rfl, nofun, fun _ => rfl⟩
  | some q =>
    obtain ⟨id, hid, hname⟩ := schemeIdOfName_spec P k q
    exact ⟨id, hid, by rintro _ ⟨⟩; exact hname, nofun⟩

section Buffer
variable {P : Params} {s : State}

theorem mem_memRead_iff {off n : Nat} {b : Byte} : b ∈ s.memRead P off n ↔ ∃ j, j < n ∧ s.byte P (off + j) = b := by
  rw [List.mem_iff_getElem]
  constructor
  · rintro ⟨j, hj, rfl⟩
    have hlt : j < n := by rwa [memRead_length] at hj
    exact ⟨j, hlt, by rw [← memRead_getD P s hlt, List.getD_eq_getElem _ _ hj]⟩
  · rintro ⟨j, hlt, rfl⟩
    have hj : j < (s.memRead P off n).length := by rwa [memRead_length]
    exact ⟨j, hj, by rw [← memRead_getD P s hlt, List.getD_eq_getElem _ _ hj]⟩

/-- MemRead of a range is the bytes before an offset in it, the byte there, and the bytes after it. -/
theorem memRead_split (P : Params) (s : State) (off n m : Nat) :
    s.memRead P off (n + (m + 1)) = s.memRead P off n ++ s.byte P (off + n) :: s.memRead P (off + n + 1) m := by
  induction n generalizing off with
  | zero => rw [Nat.zero_add]; rfl
  | succ n ih =>
    have hnext := ih (off + 1)
    rw [Nat.add_right_comm off 1 n] at hnext
    rw [Nat.add_right_comm n 1 (m + 1)]
    exact congrArg (s.byte P off :: ·) hnext

/-- The name of NUL-terminated bytes in BUF is the bytes before the first NUL (42_scheme_names.md R192). -/
theorem upToNul_memRead {off n m : Nat} (hn : n < m) (hnul : s.byte P (off + n) = 0)
    (hfirst : ∀ j, j < n → s.byte P (off + j) ≠ 0) : upToNul (s.memRead P off m) = some (s.memRead P off n) := by
  obtain ⟨r, rfl⟩ := Nat.exists_eq_add_of_lt hn
  have hno : 0 ∉ s.memRead P off n := fun h0 =>
    have ⟨j, hj, hzero⟩ := mem_memRead_iff.1 h0
    hfirst j hj hzero
  rw [Nat.add_assoc, memRead_split, hnul, upToNul_append_nul hno]

theorem upToNul_memRead_none {off m : Nat} (h : ∀ j, j < m → s.byte P (off + j) ≠ 0) :
    upToNul (s.memRead P off m) = none :=
  upToNul_of_not_mem fun h0 =>
    have ⟨j, hj, hzero⟩ := mem_memRead_iff.1 h0
    h j hj hzero

end Buffer

/-! ## The commands -/

section Commands
variable {P : Params} {s : State}

theorem schemeId2name_passes_iff : commandError P s .schemeId2name = none ↔
    kwReserved s.eng.arg.a0 = 0#23 ∧ InBuf P s.eng.arg.a3 16 := by
  simp [commandError, schemeId2nameChecks, firstError_cons_none_iff, rangeCheck_none_iff]

theorem schemeId2name_error (h : ¬(kwReserved s.eng.arg.a0 = 0#23 ∧ InBuf P s.eng.arg.a3 16)) :
    commandError P s .schemeId2name = some
      (if kwReserved s.eng.arg.a0 ≠ 0#23 then ⟨.illegalArg, s.eng.arg.a0⟩ else ⟨.bufRange, s.eng.arg.a3⟩) :=
  firstError_check_cons decide_eq_true_iff fun hres => firstError_rangeCheck fun hdst => h ⟨not_not.1 hres, hdst⟩

theorem schemeId2nameEffect_eq : schemeId2nameEffect P s =
    completed { s.regs with result0 := toWord (askedName P s).length }
      (s.memWrite P s.eng.arg.a3.toNat (askedName P s ++ [0])) := complete_eq_completed _

theorem schemeName2id_passes_iff : commandError P s .schemeName2id = none ↔
    (kwReserved s.eng.arg.a0 = 0#23 ∧ kwId s.eng.arg.a0 = 0#8) ∧ InBuf P s.eng.arg.a2 16 := by
  simp [commandError, schemeName2idChecks, firstError_cons_none_iff, rangeCheck_none_iff]

theorem schemeName2id_error
    (h : ¬((kwReserved s.eng.arg.a0 = 0#23 ∧ kwId s.eng.arg.a0 = 0#8) ∧ InBuf P s.eng.arg.a2 16)) :
    commandError P s .schemeName2id = some
      (if ¬(kwReserved s.eng.arg.a0 = 0#23 ∧ kwId s.eng.arg.a0 = 0#8) then ⟨.illegalArg, s.eng.arg.a0⟩
       else ⟨.bufRange, s.eng.arg.a2⟩) :=
  firstError_check_cons (decide_eq_true_iff.trans not_and_or.symm) fun hword =>
    firstError_rangeCheck fun hsrc => h ⟨not_not.1 hword, hsrc⟩

theorem schemeName2idEffect_eq : schemeName2idEffect P s =
    completed { s.regs with result0 := toWord (schemeIdOfBytes P (kwKind s.eng.arg.a0) (s.memRead P s.eng.arg.a2.toNat 16)) } s :=
  complete_eq_completed _

end Commands

end Sys2Proof.Machine
end

section
/-! PROOFS. The two scheme-name commands and their lookups (42_scheme_names.md). -/

namespace Sys2Proof.Machine

/-- Settles O31: the search answers a known id of the name if there is one, and a lawful registry makes it the only one. -/
theorem nameLookupsAreInverse : Obligations.NameLookupsAreInverse := by
  intro P k hP
  have hnone (q : List Byte) (hq : ∀ x, knownScheme P k x = true → schemeName P k x ≠ q) : schemeIdOfName P k q = 0 := by
    obtain ⟨id, hid, ⟨hknown, hname⟩ | ⟨rfl, -⟩⟩ := schemeIdOfName_spec P k q
    · exact absurd hname (hq id hknown)
    · exact hid
  refine ⟨fun x hx => ?_, hnone, schemeName_zero P k, hnone _ fun x hx => schemeName_ne_unknown hP hx⟩
  obtain ⟨id, hid, ⟨hknown, hname⟩ | ⟨-, hno⟩⟩ := schemeIdOfName_spec P k (schemeName P k x)
  · rw [hid, schemeName_inj hP hknown hx hname]
  · exact absurd rfl (hno x hx)

/-- Settles O18: what is written is the name asked for and a NUL. -/
theorem id2nameResult : Obligations.Id2nameResult := by
  refine ⟨decode_encode (i := .schemeId2name) rfl, fun s => ⟨fun hok => ⟨?_, ?_, ?_, ?_, fun hwf a => ?_⟩, fun hbad => ?_⟩⟩
  · exact (exec_of_ok (schemeId2name_passes_iff.2 hok)).trans (congrArg _ schemeId2nameEffect_eq)
  · exact schemeName_length_pos params_lawful _ _
  · exact askedName_length_le params_lawful s
  · exact schemeName_of_not_known
  · exact (byte_memWrite hwf _ _ a).trans (by rw [List.length_append, List.length_singleton])
  · exact exec_of_error (schemeId2name_error hbad)

/-- Settles O19: the id of the bytes before the first NUL of the 16 read. -/
theorem name2idResult : Obligations.Name2idResult := by
  refine ⟨decode_encode (i := .schemeName2id) rfl, fun s =>
    ⟨fun hok => ?_, fun hbad => exec_of_error (schemeName2id_error hbad)⟩⟩
  obtain ⟨id, hid, hname, hnone⟩ :=
    schemeIdOfBytes_spec Config.params (kwKind s.eng.arg.a0) (s.memRead Config.params s.eng.arg.a2.toNat 16)
  refine ⟨id, ?_, fun n hn hnul hfirst => ?_, fun hno => ?_⟩
  · rw [exec_of_ok (schemeName2id_passes_iff.2 hok), commandEffect, schemeName2idEffect_eq, hid]
    rfl
  · exact hname _ (upToNul_memRead hn hnul hfirst)
  · exact hnone (upToNul_memRead_none hno)

end Sys2Proof.Machine
end

section
/-! SUPPORT. When the checks of the synchronizer's three commands pass, which of them fails first, and the commands' effects
(45_frame_sync.md R211, R213, R218). -/

namespace Sys2Proof.Machine

section Commands
variable {P : Params} {s : State} {r : Regs} {l : List (Option CmdError)} {rest : CmdError}

/-! ## FS.CREATE -/

theorem headerLen_ctrlProfile (P : Params) (ct : BitVec 2) :
    headerLen P (ctrlProfile ct) = if ct.getLsbD 0 then 8 + P.hdrDescLen else 8 := by
  unfold ctrlProfile
  cases ct.getLsbD 0 <;> rfl

theorem maxPayload_ctrlProfile (P : Params) (ct : BitVec 2) (payLen : Word) :
    maxPayload P (ctrlProfile ct) payLen = if ct.getLsbD 0 then P.maxDecLen else payLen.toNat := by
  unfold ctrlProfile
  cases ct.getLsbD 0 <;> rfl

/-- The payload registers are used: in FIXED, or under CONTINUE (45_frame_sync.md R211). -/
abbrev Regs.UsesPay (r : Regs) : Prop := r.fsCtrl.getLsbD 0 = false ∨ r.fsCtrl.getLsbD 1 = true

theorem usesPayConfig_iff : usesPayConfig r.fsCtrl = true ↔ r.UsesPay := by
  unfold usesPayConfig ctrlProfile ctrlHdrFail Regs.UsesPay
  cases r.fsCtrl.getLsbD 0 <;> cases r.fsCtrl.getLsbD 1 <;> decide

/-- The payload registers pass their checks. -/
abbrev Regs.PayOk (P : Params) (r : Regs) : Prop :=
  TripleOk P r.fsPayCfg ∧ knownMod P (swTop r.fsPayCfg) = true ∧ LengthOk P r.fsPayLen.toNat

/-- The checks of the payload registers. -/
def payChecks (P : Params) (r : Regs) : List (Option CmdError) :=
  if usesPayConfig r.fsCtrl then
    schemeChecks P 1 r.fsPayCfg ++ [modCheck P 1 (swTop r.fsPayCfg), lenCheck P r.fsPayLen.toNat]
  else []

theorem fsCreateChecks_eq (P : Params) (s : State) : fsCreateChecks P s =
    check s.fs.configured .fsState 1 :: (schemeChecks P 0 s.regs.fsHdrCfg ++ (modCheck P 0 (swTop s.regs.fsHdrCfg) ::
      (payChecks P s.regs ++ [lenCheck P (headerLen P (ctrlProfile s.regs.fsCtrl)),
        rangeCheck P s.regs.fsOutAddr (8 + maxPayload P (ctrlProfile s.regs.fsCtrl) s.regs.fsPayLen)]))) := by
  simp only [fsCreateChecks, payChecks, List.append_assoc, List.cons_append, List.nil_append]

theorem firstError_modCheck_cons {which : Nat} {m : Byte} (h : knownMod P m = true → firstError l = some rest) :
    firstError (modCheck P which m :: l)
      = some (if knownMod P m = false then ⟨.configMod, BitVec.ofNat 32 (which * 256 + m.toNat)⟩ else rest) :=
  firstError_check_cons (Bool.not_eq_true' _).to_iff fun hm => h (Bool.eq_true_of_not_eq_false hm)

theorem firstError_lenCheck_cons {n : Nat} (h : LengthOk P n → firstError l = some rest) :
    firstError (lenCheck P n :: l) = some (if ¬LengthOk P n then ⟨.configLength, lengthInfo P n⟩ else rest) := by
  rw [lenCheck_eq]
  by_cases hn : LengthOk P n
  · rw [if_pos hn, firstError_none_cons, h hn, if_neg (not_not.2 hn)]
  · rw [if_neg hn, firstError_some_cons, if_pos hn]

theorem firstError_payChecks_none_iff : firstError (payChecks P r) = none ↔ (r.UsesPay → r.PayOk P) := by
  unfold payChecks
  simp only [usesPayConfig_iff]
  split
  · simp only [firstError_append_none_iff, firstError_cons_none_iff, firstError_schemeChecks_none_iff, modCheck_none_iff,
      lenCheck_none_iff, firstError_nil, and_true]
    exact (imp_iff_right ‹_›).symm
  · exact iff_of_true rfl fun huse => absurd huse ‹_›

/-- The error of the payload registers' checks, or `rest` if they pass or are not made. -/
def payErrorOr (P : Params) (r : Regs) (rest : CmdError) : CmdError :=
  if r.UsesPay then
    schemeErrorOr P 1 r.fsPayCfg
      (if knownMod P (swTop r.fsPayCfg) = false then ⟨.configMod, BitVec.ofNat 32 (256 + (swTop r.fsPayCfg).toNat)⟩
       else if ¬LengthOk P r.fsPayLen.toNat then ⟨.configLength, r.fsPayLen⟩ else rest)
  else rest

theorem firstError_payChecks (h : (r.UsesPay → r.PayOk P) → firstError l = some rest) :
    firstError (payChecks P r ++ l) = some (payErrorOr P r rest) := by
  unfold payChecks payErrorOr
  simp only [usesPayConfig_iff]
  split
  · rw [List.append_assoc]
    refine firstError_schemeChecks fun hsw => firstError_modCheck_cons fun hm => ?_
    have hlen := firstError_lenCheck_cons (n := r.fsPayLen.toNat) fun hlen => h fun _ => ⟨hsw, hm, hlen⟩
    rwa [lengthInfo_toNat] at hlen
  · exact h fun huse => absurd huse ‹_›

/-- Every check of FS.CREATE passes. -/
abbrev FsCreateOk (P : Params) (s : State) : Prop :=
  s.fs.configured = false ∧ TripleOk P s.regs.fsHdrCfg ∧ knownMod P (swTop s.regs.fsHdrCfg) = true ∧
  (s.regs.UsesPay → s.regs.PayOk P) ∧ LengthOk P (headerLen P (ctrlProfile s.regs.fsCtrl)) ∧
  InBuf P s.regs.fsOutAddr (8 + maxPayload P (ctrlProfile s.regs.fsCtrl) s.regs.fsPayLen)

theorem fsCreate_passes_iff : commandError P s .fsCreate = none ↔ FsCreateOk P s := by
  rw [commandError, fsCreateChecks_eq]
  simp only [firstError_cons_none_iff, firstError_append_none_iff, firstError_schemeChecks_none_iff,
    firstError_payChecks_none_iff, modCheck_none_iff, lenCheck_none_iff, rangeCheck_none_iff, check_none_iff, firstError_nil,
    and_true]

theorem fsCreate_error (h : ¬FsCreateOk P s) : commandError P s .fsCreate = some
    (if s.fs.configured = true then ⟨.fsState, 1⟩
     else schemeErrorOr P 0 s.regs.fsHdrCfg
      (if knownMod P (swTop s.regs.fsHdrCfg) = false then ⟨.configMod, BitVec.ofNat 32 (swTop s.regs.fsHdrCfg).toNat⟩
       else payErrorOr P s.regs
        (if ¬LengthOk P (headerLen P (ctrlProfile s.regs.fsCtrl)) then
          ⟨.configLength, lengthInfo P (headerLen P (ctrlProfile s.regs.fsCtrl))⟩
         else ⟨.bufRange, s.regs.fsOutAddr⟩))) := by
  rw [commandError, fsCreateChecks_eq, ← Nat.zero_add (swTop s.regs.fsHdrCfg).toNat]
  exact firstError_check_cons Iff.rfl fun hconf => firstError_schemeChecks fun hsw => firstError_modCheck_cons fun hm =>
    firstError_payChecks fun hpay => firstError_lenCheck_cons fun hlen => firstError_rangeCheck fun harea =>
      h ⟨Bool.eq_false_iff.2 hconf, hsw, hm, hpay, hlen, harea⟩

theorem fsCreateEffect_eq : fsCreateEffect P s = completed s.regs { s with
    fs := { s.fs with
      configured := true, tag := .detect, cfg := latchedCfg P s.regs, fe := P.feInit (latchedCfg P s.regs)
      acc := [], symCount := 0, paySyms := 0, hdr := [], hdrValid := false, cur := Cur.zero
      evtPending := false, inFlight := false } } := complete_eq_completed _

/-! ## FS.EXECUTE -/

theorem fsExecute_passes_iff : commandError P s .fsExecute = none ↔
    s.fs.configured = true ∧ s.eng.arg.a0 ≠ 0 ∧ InBuf P s.eng.arg.a2 (4 * s.eng.arg.a0.toNat) := by
  simp [commandError, fsExecuteChecks, firstError_cons_none_iff, rangeCheck_none_iff]

theorem fsExecute_error
    (h : ¬(s.fs.configured = true ∧ s.eng.arg.a0 ≠ 0 ∧ InBuf P s.eng.arg.a2 (4 * s.eng.arg.a0.toNat))) :
    commandError P s .fsExecute = some
      (if s.fs.configured = false then ⟨.fsState, 0⟩ else if s.eng.arg.a0 = 0 then ⟨.zeroLength, 0⟩
       else ⟨.bufRange, s.eng.arg.a2⟩) :=
  firstError_check_cons (Bool.not_eq_true' _).to_iff fun hconf => firstError_check_cons decide_eq_true_iff fun hn =>
    firstError_rangeCheck fun hsrc => h ⟨Bool.eq_true_of_not_eq_false hconf, hn, hsrc⟩

/-! ## FS.DESTROY -/

theorem fsDestroy_passes_iff : commandError P s .fsDestroy = none ↔ s.fs.configured = true := by
  simp [commandError, fsDestroyChecks, firstError_cons_none_iff]

theorem fsDestroy_error (h : s.fs.configured = false) : commandError P s .fsDestroy = some ⟨.fsState, 0⟩ := by
  simp [commandError, fsDestroyChecks, h]

theorem fsDestroyEffect_eq : fsDestroyEffect P s = completed s.regs { s with
    fs := { s.fs with
      configured := false, tag := .detect, fe := P.undefFe s.free, acc := [], symCount := 0, paySyms := 0, hdr := []
      hdrValid := false, cur := Cur.zero, cfg := FsCfg.zero, evtPending := false, inFlight := false }
    free := s.free + 1 } := complete_eq_completed _

end Commands

end Sys2Proof.Machine
end

section
/-! SUPPORT. What each step of the FS engine does, by its state and by the front end's event, and BRANCH by the header and the latched
configuration (45_frame_sync.md R215 to R232). -/

namespace Sys2Proof.Machine

variable {P : Params} {x : Sample} {s : State}

/-! ## The enabled step -/

theorem engineStep_of_running (hr : fsRunning s = true) (P : Params) : engineStep P s = fsEngineStep P s := by
  obtain ⟨-, hs, -⟩ := (fsRunning_iff s).1 hr
  simp [engineStep, hs, hr]

theorem engineStep_of_idle (hb : s.eng.busy = false) (P : Params) : engineStep P s = .next s := by
  simp [engineStep, hb, fsRunning_of_idle hb]

theorem fsEngineStep_of_canConsume (hc : s.fs.tag.Consuming) (h : CanConsume P s) :
    fsEngineStep P s = applySample P (sampleAt P s s.fs.execOff.toNat) { s with fs := s.fs.consumed } :=
  (fsEngineStep_consuming hc).trans (sampleStep_of_canConsume h)

theorem fsEngineStep_none_left (hc : s.fs.tag.Consuming) (hl : s.fs.execLeft = 0) :
    fsEngineStep P s = .next (complete s) := (fsEngineStep_consuming hc).trans (if_pos hl)

theorem fsEngineStep_callback (ht : s.fs.tag = .callback) : fsEngineStep P s = .next s := by simp only [fsEngineStep, ht]

theorem fsEngineStep_reset (ht : s.fs.tag = .reset) : fsEngineStep P s = .next (resetStep P s) := by
  simp only [fsEngineStep, ht]

theorem fsEngineStep_detect (h : CanConsume P s) (ht : s.fs.tag = .detect) : fsEngineStep P s
    = .next (detectStep P (sampleAt P s s.fs.execOff.toNat) { s with fs := s.fs.consumed }) := by
  rw [fsEngineStep_of_canConsume (.inl ht) h]
  simp only [applySample, Fs.consumed, ht]

theorem fsEngineStep_sync (h : CanConsume P s) (ht : s.fs.tag = .sync) : fsEngineStep P s
    = .next (syncStep P (sampleAt P s s.fs.execOff.toNat) { s with fs := s.fs.consumed }) := by
  rw [fsEngineStep_of_canConsume (.inr (.inl ht)) h]
  simp only [applySample, Fs.consumed, ht]

theorem fsEngineStep_rxHeader (h : CanConsume P s) (ht : s.fs.tag = .rxHeader) : fsEngineStep P s
    = .next (headerStep P (sampleAt P s s.fs.execOff.toNat) { s with fs := s.fs.consumed }) := by
  rw [fsEngineStep_of_canConsume (.inr (.inr (.inl ht))) h]
  simp only [applySample, Fs.consumed, ht]

theorem fsEngineStep_rxPayload (h : CanConsume P s) (ht : s.fs.tag = .rxPayload) : fsEngineStep P s
    = payloadStep P (sampleAt P s s.fs.execOff.toNat) { s with fs := s.fs.consumed } := by
  rw [fsEngineStep_of_canConsume (.inr (.inr (.inr ht))) h]
  simp only [applySample, Fs.consumed, ht]

/-! ## DETECT and SYNC -/

section Detect
variable {r : FeState × FeEvent} (hr : P.feStep s.fs.fe (.det s.fs.cfg.thresh) x = r)
include hr

theorem detectStep_trigger {tau cfo : FeCode} (h : r.2 = .trigger tau cfo) : detectStep P x s = { s with
    fs := { s.fs with fe := r.1, tau := tau, cfo := cfo, symCount := 0, inFlight := true, tag := .sync } } := by
  simp only [detectStep, hr, h]

theorem detectStep_no_trigger (h : ∀ tau cfo, r.2 ≠ .trigger tau cfo) : detectStep P x s = s.withFe r.1 := by
  simp only [detectStep, hr] -- by `h`, the last alternative
  rfl

end Detect

section Sync
variable {r : FeState × FeEvent} (hr : P.feStep s.fs.fe (.sync s.fs.tau s.fs.cfo) x = r)
include hr

theorem syncStep_last {y : FeCode} (h : r.2 = .symbol y) (hlast : (s.fs.symCount + 1).toNat = P.syncLen) :
    syncStep P x s = { s with fs := { s.fs with fe := r.1, symCount := 0, acc := [], tag := .rxHeader } } := by
  simp only [syncStep, hr, h, if_pos hlast]

theorem syncStep_symbol {y : FeCode} (h : r.2 = .symbol y) (hmore : (s.fs.symCount + 1).toNat ≠ P.syncLen) :
    syncStep P x s = { s with fs := { s.fs with fe := r.1, symCount := s.fs.symCount + 1 } } := by
  simp only [syncStep, hr, h, if_neg hmore]

theorem syncStep_no_symbol (h : ∀ y, r.2 ≠ .symbol y) : syncStep P x s = s.withFe r.1 := by
  simp only [syncStep, hr]
  rfl

end Sync

/-! ## RXHEADER -/

/-- `s` with the header decoded from the soft bits `acc` (45_frame_sync.md R222). -/
def State.withHeader (P : Params) (fe : FeState) (acc : List Byte) (s : State) : State :=
  { s with
    fs := { s.fs with
      fe := fe, hdr := (decodedHeader P s.fs.cfg acc).1, hdrValid := (decodedHeader P s.fs.cfg acc).2
      acc := [], symCount := 0 } }

section Header
variable {r : FeState × FeEvent} (hr : P.feStep s.fs.fe (.hdr s.fs.cfg.hdrMod) x = r)
include hr

theorem headerStep_short {y : FeCode} (h : r.2 = .symbol y)
    (hshort : (s.fs.acc ++ P.demod s.fs.cfg.hdrMod y).length < 8 * s.fs.cfg.hdrEncLen) : headerStep P x s = { s with
      fs := { s.fs with fe := r.1, acc := s.fs.acc ++ P.demod s.fs.cfg.hdrMod y, symCount := s.fs.symCount + 1 } } := by
  simp only [headerStep, hr, h, if_neg (Nat.not_le.2 hshort)]

theorem headerStep_decode {y : FeCode} (h : r.2 = .symbol y)
    (henough : 8 * s.fs.cfg.hdrEncLen ≤ (s.fs.acc ++ P.demod s.fs.cfg.hdrMod y).length) :
    headerStep P x s = branch P (s.withHeader P r.1 (s.fs.acc ++ P.demod s.fs.cfg.hdrMod y)) := by
  simp only [headerStep, hr, h, if_pos henough]
  rfl

theorem headerStep_no_symbol (h : ∀ y, r.2 ≠ .symbol y) : headerStep P x s = s.withFe r.1 := by
  simp only [headerStep, hr]
  rfl

end Header

/-! ## BRANCH -/

theorem branch_valid_fixed (hv : s.fs.hdrValid = true) (hp : s.fs.cfg.profile = .fixed) :
    branch P s = startPayload P s.fs.cfg.payDecl s := by simp only [branch, hv, hp, if_true]

section Flex
variable (hv : s.fs.hdrValid = true) (hp : s.fs.cfg.profile = .flex)
include hv hp

theorem branch_valid_undeclared (hd : P.descParse ((s.fs.hdr.take s.fs.cfg.hdrLen).drop 8) = none) :
    branch P s = discardAttempt s := by simp only [branch, hv, hp, hd, if_true]

theorem branch_valid_feasible {d : Decl} (hd : P.descParse ((s.fs.hdr.take s.fs.cfg.hdrLen).drop 8) = some d)
    (hf : feasible P d = true) : branch P s = startPayload P d s := by simp only [branch, hv, hp, hd, hf, if_true]

theorem branch_valid_infeasible {d : Decl} (hd : P.descParse ((s.fs.hdr.take s.fs.cfg.hdrLen).drop 8) = some d)
    (hf : ¬feasible P d = true) : branch P s = discardAttempt s := by simp only [branch, hv, hp, hd, if_true, if_neg hf]

end Flex

theorem branch_invalid_abort (hv : s.fs.hdrValid = false) (hf : s.fs.cfg.hdrFail = .abort) :
    branch P s = discardAttempt s := by simp only [branch, hv, hf, Bool.false_eq_true, if_false]

theorem branch_invalid_continue (hv : s.fs.hdrValid = false) (hf : s.fs.cfg.hdrFail = .continue) :
    branch P s = startPayload P s.fs.cfg.payDecl s := by simp only [branch, hv, hf, Bool.false_eq_true, if_false]

/-! ## RXPAYLOAD -/

section Payload
variable {r : FeState × FeEvent} (hr : P.feStep s.fs.fe (.pay s.fs.cur.mod) x = r)
include hr

theorem payloadStep_short {y : FeCode} (h : r.2 = .symbol y)
    (hshort : (s.fs.acc ++ P.demod s.fs.cur.mod y).length < 8 * s.fs.cur.enc) : payloadStep P x s = .next { s with
      fs := { s.fs with fe := r.1, acc := s.fs.acc ++ P.demod s.fs.cur.mod y, paySyms := s.fs.paySyms + 1 } } := by
  simp only [payloadStep, hr, h, if_neg (Nat.not_le.2 hshort)]

theorem payloadStep_event {y : FeCode} {d : List Byte × Bool} (h : r.2 = .symbol y)
    (henough : 8 * s.fs.cur.enc ≤ (s.fs.acc ++ P.demod s.fs.cur.mod y).length)
    (hd : pktDecSoft P s.fs.cur.pkt ((s.fs.acc ++ P.demod s.fs.cur.mod y).take (8 * s.fs.cur.enc)) = d)
    (hfits : s.fs.cfg.outAddr.toNat + 8 + s.fs.cur.len ≤ P.bufSize) :
    payloadStep P x s = .next (callbackEntry P d.1 d.2 { s with
      fs := { s.fs with fe := r.1, acc := s.fs.acc ++ P.demod s.fs.cur.mod y, paySyms := s.fs.paySyms + 1 } }) := by
  simp only [payloadStep, hr, h, hd, if_pos henough, if_neg (Nat.not_lt.2 hfits)]

theorem payloadStep_no_symbol (h : ∀ y, r.2 ≠ .symbol y) : payloadStep P x s = .next (s.withFe r.1) := by
  simp only [payloadStep, hr]
  rfl

end Payload

theorem callbackEntry_eq (pl : List Byte) (pv : Bool) (s : State) : callbackEntry P pl pv s =
    { (s.memWrite P s.fs.cfg.outAddr.toNat (s.fs.hdr.take 8)).memWrite P (s.fs.cfg.outAddr.toNat + 8) pl with
      regs := { s.regs with
        evtHdrValid := s.fs.hdrValid, evtPayValid := pv, fsEvtLen := toWord s.fs.cur.len
        statEvm := (P.feStats s.fs.fe).evm, statRssi := (P.feStats s.fs.fe).rssi, statCfo := (P.feStats s.fs.fe).cfo
        statNsym := s.fs.paySyms, statMod := statModWord P s.fs.cur.mod
        statScheme := schemeWord s.fs.cur.ed s.fs.cur.inner s.fs.cur.outer
        intStatus := s.regs.intStatus ||| 0b0100#4 }
      fs := { s.fs with evtPending := true, tag := .callback } } := by
  simp [callbackEntry, intFrame]

/-- A header begins with the 8 bytes of every profile (45_frame_sync.md R202). -/
theorem FsCfgOk.eight_le_hdrLen {g : FsCfg} (h : FsCfgOk P g) : 8 ≤ g.hdrLen := by
  obtain ⟨hlen, -⟩ := h.hdrLen
  rw [hlen]
  cases g.profile with
  | fixed => exact le_rfl
  | flex => exact Nat.le_add_right 8 _

/-- What CALLBACK entry stores: the first 8 header bytes and then the payload, and no other byte (45_frame_sync.md R230). -/
theorem byte_eventArea (h : Memory.wf (s.bufDefault P) s.buf = true) {out n : Nat} {hdr pl : List Byte} (hhdr : 8 ≤ hdr.length)
    (hpl : pl.length = n) (a : Nat) : ((s.memWrite P out (hdr.take 8)).memWrite P (out + 8) pl).byte P a =
      if out ≤ a ∧ a < out + 8 then hdr.getD (a - out) 0
      else if out + 8 ≤ a ∧ a < out + 8 + n then pl.getD (a - (out + 8)) 0 else s.byte P a := by
  have htake : (hdr.take 8).length = 8 := by rw [List.length_take]; omega
  rw [byte_memWrite (Memory.wf_writeBytes h), byte_memWrite h, htake, hpl]
  by_cases hin : out ≤ a ∧ a < out + 8
  · rw [if_neg (by omega), if_pos hin, if_pos hin, List.getD_eq_getElem?_getD, List.getD_eq_getElem?_getD,
      List.getElem?_take_of_lt (by omega)]
  · rw [if_neg hin, if_neg hin]

/-! ## The acknowledgement -/

theorem regAt_fsAck (hP : P.Lawful) : regAt P 0x220 = some .fsAck := by
  have hctx := hP.numCtx.2
  rw [regAt, if_neg (by omega)]
  rfl

/-- A host write of any value to FS_ACK is the acknowledgement (45_frame_sync.md R231). -/
theorem step_write_fsAck (v : Word) (s : State) :
    step { s with agenda := wr 0x220 v :: s.agenda } = .next (acknowledge s) := by
  have hok : regAccessOk 0x220 .b4 = true := by decide
  rw [step_turn]
  refine (hostWriteReg_ok hok v s).trans ?_
  rw [writeOffset, regAt_fsAck params_lawful]
  rfl

end Sys2Proof.Machine
end

section
/-! SUPPORT. Runs of an FS.EXECUTE in which the host acknowledges every event at once: how far it is from its completion, which every
step and every acknowledgement lessens, and two such runs side by side (45_frame_sync.md R213 to R217, R231, R234, R236). -/

namespace Sys2Proof.Machine

/-! ## The steps of a running FS.EXECUTE -/

/-- Only the consumption itself moves the position. -/
theorem SampleEffect.position {P : Params} {u t : State} (h : SampleEffect P u t) :
    t.eng = u.eng ∧ t.fs.execOff = u.fs.execOff ∧ t.fs.execLeft = u.fs.execLeft := by
  cases h with
  | header => rcases branch_cases P _ with hb | ⟨r, hb, -⟩ <;> rw [hb] <;> exact ⟨rfl, rfl, rfl⟩
  | wait | trigger | syncSymbol | synced | headerSymbol | payloadSymbol | event => exact ⟨rfl, rfl, rfl⟩

/-- No sample is left and no event is held: the completion step is next (45_frame_sync.md R217). -/
structure Finishing (P : Params) (s : State) : Prop where
  inv : Inv P s
  running : fsRunning s = true
  consuming : s.fs.tag.Consuming
  none_left : s.fs.execLeft = 0

theorem FsOk.evtPending_of_ne {P : Params} {s : State} (h : FsOk P s) (ht : s.fs.tag ≠ .callback) : s.fs.evtPending = false :=
  Bool.eq_false_iff.2 (h.evtPending_ne ht)

theorem FsTag.Consuming.ne_callback {tag : FsTag} (h : tag.Consuming) : tag ≠ .callback := by
  rintro rfl
  simp [FsTag.Consuming] at h

theorem FsTag.Consuming.ne_reset {tag : FsTag} (h : tag.Consuming) : tag ≠ .reset := by
  rintro rfl
  simp [FsTag.Consuming] at h

theorem Finishing.busy {P : Params} {s : State} (h : Finishing P s) : s.eng.busy = true := ((fsRunning_iff s).1 h.running).1

theorem Finishing.engineStep {P : Params} {s : State} (h : Finishing P s) : engineStep P s = .next (complete s) :=
  (engineStep_of_running h.running P).trans (fsEngineStep_none_left h.consuming h.none_left)

/-! ## The way to the completion -/

/-- A bound on the steps to the completion, acknowledgements included: three a sample, since a sample's step may enter CALLBACK, which
the acknowledgement and the RESET step leave. -/
def Fs.stepsLeft (f : Fs) : Nat :=
  3 * f.execLeft.toNat +
    match f.tag with
    | .callback => 3
    | .reset => 2
    | .detect | .sync | .rxHeader | .rxPayload => 1

/-- A bound on the events to come, the held one included: at most one a sample. -/
def Fs.eventsLeft (f : Fs) : Nat := f.execLeft.toNat + if f.tag = .callback then 1 else 0

/-- Where the samples of the FS.EXECUTE end. -/
def Fs.stop (f : Fs) : Word := f.execOff + 4 * f.execLeft

/-- `u` is one step of the block nearer to the completion than `s`. -/
structure Nearer (s u : State) : Prop where
  running : fsRunning u = true
  steps : u.fs.stepsLeft < s.fs.stepsLeft
  events : u.fs.eventsLeft ≤ s.fs.eventsLeft
  stop : u.fs.stop = s.fs.stop

theorem Fs.stepsLeft_bounds (f : Fs) : 3 * f.execLeft.toNat + 1 ≤ f.stepsLeft ∧ f.stepsLeft ≤ 3 * f.execLeft.toNat + 3 := by
  unfold Fs.stepsLeft
  split <;> omega

theorem Fs.eventsLeft_bounds (f : Fs) : f.execLeft.toNat ≤ f.eventsLeft ∧ f.eventsLeft ≤ f.execLeft.toNat + 1 := by
  unfold Fs.eventsLeft
  split <;> omega

section Progress
variable {P : Params} {s t u : State}

theorem SampleEffect.nearer (hr : fsRunning s = true) (hl : s.fs.execLeft ≠ 0) {fe : FeState}
    (h : SampleEffect P ((consumeSample s).withFe fe) u) : Nearer s u := by
  obtain ⟨heng, hoff, hleft⟩ := h.position
  change u.fs.execOff = s.fs.execOff + 4 at hoff
  change u.fs.execLeft = s.fs.execLeft - 1 at hleft
  have hone : u.fs.execLeft.toNat + 1 = s.fs.execLeft.toNat := by rw [hleft]; bv_omega
  have hsteps := u.fs.stepsLeft_bounds
  have hsteps' := s.fs.stepsLeft_bounds
  have hevents := u.fs.eventsLeft_bounds
  have hevents' := s.fs.eventsLeft_bounds
  refine ⟨?_, by omega, by omega, ?_⟩
  · rw [fsRunning, heng]
    exact hr
  · rw [Fs.stop, Fs.stop, hoff, hleft]
    ring

theorem resetStep_nearer (hr : fsRunning s = true) (ht : s.fs.tag = .reset) : Nearer s (resetStep P s) where
  running := hr
  steps := by simp [Fs.stepsLeft, resetStep, ht]
  events := by simp [Fs.eventsLeft, resetStep, ht]
  stop := rfl

/-- A running FS.EXECUTE that does not finish and holds no event takes a step towards its completion. -/
theorem exists_nearer (h : Inv P s) (hr : fsRunning s = true) (ht : s.fs.tag ≠ .callback)
    (hl : s.fs.tag.Consuming → s.fs.execLeft ≠ 0) : ∃ u, engineStep P s = .next u ∧ Nearer s u := by
  rw [engineStep_of_running hr]
  by_cases hreset : s.fs.tag = .reset
  · exact ⟨_, fsEngineStep_reset hreset, resetStep_nearer hr hreset⟩
  · have hc : s.fs.tag.Consuming := FsTag.consuming_of_ne (by tauto)
    have hsample := fsEngineStep_of_canConsume hc (h.fs.canConsume hr (hl hc))
    obtain ⟨u, hu⟩ := fsEngineStep_next h.fs hr
    obtain ⟨m, effect⟩ := applySample_effect (s := consumeSample s) hc (hsample.symm.trans hu)
    exact ⟨u, hu, effect.nearer hr (hl hc)⟩

section Held
variable (h : FsOk P s) (ht : s.fs.tag = .callback)
include h ht

theorem FsOk.acknowledge_eq : acknowledge s = { s with fs := { s.fs with evtPending := false, tag := .reset } } :=
  if_pos (h.hold.2 ht)

theorem FsOk.stepsLeft_acknowledge : (acknowledge s).fs.stepsLeft + 1 = s.fs.stepsLeft := by
  rw [h.acknowledge_eq ht]
  simp [Fs.stepsLeft, ht]

theorem FsOk.eventsLeft_acknowledge : (acknowledge s).fs.eventsLeft + 1 = s.fs.eventsLeft := by
  rw [h.acknowledge_eq ht]
  simp [Fs.eventsLeft, ht]

end Held

/-- Induction over a running FS.EXECUTE, down to its completion step: the host acknowledges a held event, and else the block takes a
step. -/
theorem running_induction (hP : P.Lawful) {motive : State → Prop}
    (finishing : ∀ s, Finishing P s → motive s)
    (held : ∀ s, Inv P s → fsRunning s = true → s.fs.tag = .callback → motive (acknowledge s) → motive s)
    (step : ∀ s u, Inv P s → fsRunning s = true → s.fs.tag ≠ .callback → (s.fs.tag.Consuming → s.fs.execLeft ≠ 0) →
      engineStep P s = .next u → Nearer s u → motive u → motive s)
    (h : Inv P s) (hr : fsRunning s = true) : motive s := by
  induction hn : s.fs.stepsLeft using Nat.strong_induction_on generalizing s with
  | _ n ih =>
    subst hn
    by_cases ht : s.fs.tag = .callback
    · have hr' : fsRunning (acknowledge s) = true := by rwa [h.fs.acknowledge_eq ht]
      exact held s h hr ht (ih _ (h.fs.stepsLeft_acknowledge ht).le (acknowledge_inv h) hr' rfl)
    · by_cases hfin : s.fs.tag.Consuming ∧ s.fs.execLeft = 0
      · exact finishing s ⟨h, hr, hfin.1, hfin.2⟩
      · have hl : s.fs.tag.Consuming → s.fs.execLeft ≠ 0 := fun hc hl => hfin ⟨hc, hl⟩
        obtain ⟨u, hu, near⟩ := exists_nearer h hr ht hl
        exact step s u h hr ht hl hu near (ih _ near.steps ((engineStep_effect hu).inv hP h) near.running rfl)

end Progress

/-! ## Runs -/

section Runs
variable {P : Params} {s t u : State} {k m : Nat} {ev ev' : List SeenEvent}

theorem ackRun_held (hp : s.fs.evtPending = true) (h : ackRun P k (acknowledge s) = some (t, ev)) :
    ackRun P (k + 1) s = some (t, seenEvent P s :: ev) := by simp [ackRun, hp, h]

theorem ackRun_next (hp : s.fs.evtPending = false) (hstep : engineStep P s = .next u) (h : ackRun P k u = some (t, ev)) :
    ackRun P (k + 1) s = some (t, ev) := by simp [ackRun, hp, hstep, h]

theorem ackRun_append (h : ackRun P k s = some (u, ev)) (h' : ackRun P m u = some (t, ev')) :
    ackRun P (k + m) s = some (t, ev ++ ev') := by
  induction k generalizing s ev with
  | zero => cases h; rwa [Nat.zero_add]
  | succ k ih =>
    rw [Nat.succ_add]
    cases hp : s.fs.evtPending with
    | true =>
      simp only [ackRun, hp, if_true, Option.map_eq_some_iff, Prod.exists, Prod.mk.injEq] at h
      obtain ⟨u', ev₁, hrun, rfl, rfl⟩ := h
      exact ackRun_held hp (ih hrun)
    | false =>
      cases hstep : engineStep P s with
      | next v =>
        simp only [ackRun, hp, hstep] at h
        exact ackRun_next hp hstep (ih h)
      | fault r | refused r => simp [ackRun, hp, hstep] at h

theorem Finishing.ackRun (h : Finishing P s) : ackRun P 1 s = some (complete s, []) :=
  ackRun_next (h.inv.fs.evtPending_of_ne h.consuming.ne_callback) h.engineStep rfl

/-- Every running FS.EXECUTE comes to its completion step, within the two bounds. -/
theorem exists_run_to_finish (hP : P.Lawful) (h : Inv P s) (hr : fsRunning s = true) : ∃ k t ev,
    ackRun P k s = some (t, ev) ∧ Finishing P t ∧ k < s.fs.stepsLeft ∧ ev.length ≤ s.fs.eventsLeft := by
  refine running_induction hP (motive := fun s => ∃ k t ev,
      ackRun P k s = some (t, ev) ∧ Finishing P t ∧ k < s.fs.stepsLeft ∧ ev.length ≤ s.fs.eventsLeft)
    (fun s hfin => ?_) (fun s h hr ht ⟨k, t, ev, hrun, hfin, hk, hev⟩ => ?_)
    (fun s u h hr ht hl hu near ⟨k, t, ev, hrun, hfin, hk, hev⟩ => ?_) h hr
  · exact ⟨0, s, [], rfl, hfin, s.fs.stepsLeft_bounds.1.trans_lt' (Nat.succ_pos _), Nat.zero_le _⟩
  · have hsteps := h.fs.stepsLeft_acknowledge ht
    have hevents := h.fs.eventsLeft_acknowledge ht
    exact ⟨k + 1, t, _, ackRun_held (h.fs.hold.2 ht) hrun, hfin, by omega, by rw [List.length_cons]; omega⟩
  · exact ⟨k + 1, t, ev, ackRun_next (h.fs.evtPending_of_ne ht) hu hrun, hfin, Nat.lt_of_le_of_lt hk near.steps,
      hev.trans near.events⟩

end Runs

/-! ## Two runs side by side -/

/-- `t` is `s` with `d` more samples to come, as far as the FS engine and what the host sees of its events go. -/
structure Ahead (d : Word) (s t : State) : Prop where
  fs : t.fs = { s.fs with execLeft := s.fs.execLeft + d }
  buf : t.buf = s.buf
  epoch : t.epoch = s.epoch
  events : t.regs.events = s.regs.events
  running : fsRunning t = true
  /-- The samples to come are counted without overflow. -/
  room : s.fs.execLeft.toNat + d.toNat < 2 ^ 32

section Ahead
variable {P : Params} {d : Word} {x : Sample} {s t u : State}

theorem Ahead.byte (h : Ahead d s t) (a : Nat) : t.byte P a = s.byte P a := byte_congr h.buf h.epoch a

theorem Ahead.memRead (h : Ahead d s t) (off n : Nat) : t.memRead P off n = s.memRead P off n := by
  rw [State.memRead, State.memRead, State.bufDefault, State.bufDefault, h.buf, h.epoch]

theorem Ahead.seenEvent (h : Ahead d s t) : seenEvent P t = seenEvent P s := by
  have hevents := h.events
  simp only [Regs.events, Prod.mk.injEq] at hevents
  obtain ⟨hhdr, hpay, hlen, hevm, hrssi, hcfo, hnsym, hmod, hscheme⟩ := hevents
  simp only [Machine.seenEvent, h.memRead, h.fs, *]

theorem Ahead.consumeSample (h : Ahead d s t) (hl : s.fs.execLeft ≠ 0) : Ahead d (consumeSample s) (consumeSample t) where
  fs := by
    have hleft : s.fs.execLeft + d - 1 = s.fs.execLeft - 1 + d := by ring
    simp only [consumeSample_fs, h.fs, hleft]
  buf := h.buf
  epoch := h.epoch
  events := h.events
  running := h.running
  room := by
    have hroom := h.room
    change (s.fs.execLeft - 1).toNat + d.toNat < 2 ^ 32
    bv_omega

/-- An update of FS that leaves the samples to come. -/
theorem Ahead.withFs (h : Ahead d s t) {f : Fs} (hl : f.execLeft = s.fs.execLeft := by rfl) :
    Ahead d { s with fs := f } { t with fs := { f with execLeft := s.fs.execLeft + d } } :=
  ⟨by rw [hl], h.buf, h.epoch, h.events, h.running, hl ▸ h.room⟩

theorem Ahead.discardAttempt (h : Ahead d s t) : Ahead d (discardAttempt s) (discardAttempt t) := by
  simp only [Machine.discardAttempt, h.fs]
  exact h.withFs

theorem Ahead.startPayload (h : Ahead d s t) (r : Decl) : Ahead d (startPayload P r s) (startPayload P r t) := by
  simp only [Machine.startPayload, h.fs]
  exact h.withFs

theorem Ahead.resetStep (h : Ahead d s t) : Ahead d (resetStep P s) (resetStep P t) := by
  simp only [Machine.resetStep, h.fs]
  exact h.withFs

theorem Ahead.acknowledge (h : Ahead d s t) : Ahead d (acknowledge s) (acknowledge t) := by
  simp only [Machine.acknowledge, h.fs]
  split
  · exact h.withFs
  · exact h

theorem Ahead.branch (h : Ahead d s t) : Ahead d (branch P s) (branch P t) := by
  simp only [Machine.branch, h.fs]
  split
  · split
    · exact h.startPayload _
    · split
      · exact h.discardAttempt
      · split
        · exact h.startPayload _
        · exact h.discardAttempt
  · split
    · exact h.discardAttempt
    · exact h.startPayload _

theorem Ahead.detectStep (h : Ahead d s t) : Ahead d (detectStep P x s) (detectStep P x t) := by
  simp only [Machine.detectStep, h.fs]
  split <;> exact h.withFs

theorem Ahead.syncStep (h : Ahead d s t) : Ahead d (syncStep P x s) (syncStep P x t) := by
  simp only [Machine.syncStep, h.fs]
  split
  · split <;> exact h.withFs
  · exact h.withFs

theorem Ahead.headerStep (h : Ahead d s t) : Ahead d (headerStep P x s) (headerStep P x t) := by
  simp only [Machine.headerStep, h.fs]
  split
  · split
    · exact h.withFs.branch
    · exact h.withFs
  · exact h.withFs

/-- CALLBACK entry writes every event register from FS and the payload. -/
theorem Ahead.callbackEntry (h : Ahead d s t) (pl : List Byte) (pv : Bool) :
    Ahead d (callbackEntry P pl pv s) (callbackEntry P pl pv t) where
  fs := by simp only [Machine.callbackEntry, memWrite_fs, h.fs]
  buf := by simp [Machine.callbackEntry, State.bufDefault, h.fs, h.buf, h.epoch]
  epoch := h.epoch
  events := by simp only [Machine.callbackEntry, Regs.events, h.fs]
  running := h.running
  room := h.room

theorem Ahead.payloadStep (h : Ahead d s t) (hu : payloadStep P x s = .next u) :
    ∃ v, payloadStep P x t = .next v ∧ Ahead d u v := by
  revert hu
  simp only [Machine.payloadStep, h.fs]
  split
  · split
    · split
      · nofun
      · rintro ⟨⟩
        exact ⟨_, rfl, h.withFs.callbackEntry _ _⟩
    · rintro ⟨⟩
      exact ⟨_, rfl, h.withFs⟩
  · rintro ⟨⟩
    exact ⟨_, rfl, h.withFs⟩

theorem Ahead.applySample (h : Ahead d s t) (hu : applySample P x s = .next u) :
    ∃ v, applySample P x t = .next v ∧ Ahead d u v := by
  have htag : t.fs.tag = s.fs.tag := by rw [h.fs]
  cases hs : s.fs.tag <;> simp only [Machine.applySample, htag, hs] at hu ⊢
  case rxPayload => exact h.payloadStep hu
  case detect => cases hu; exact ⟨_, rfl, h.detectStep⟩
  case sync => cases hu; exact ⟨_, rfl, h.syncStep⟩
  case rxHeader => cases hu; exact ⟨_, rfl, h.headerStep⟩
  case callback | reset => cases hu; exact ⟨_, rfl, h⟩

theorem Ahead.canConsume (h : Ahead d s t) (hs : CanConsume P s) : CanConsume P t := by
  obtain ⟨-, hl, hoff⟩ := hs
  refine ⟨h.running, ?_, by rwa [h.fs]⟩
  have hroom := h.room
  rw [h.fs]
  change s.fs.execLeft + d ≠ 0
  bv_omega

/-- Until the shorter FS.EXECUTE is to complete, the longer takes the same step. -/
theorem Ahead.engineStep (h : Ahead d s t) (hinv : Inv P s) (hr : fsRunning s = true)
    (hl : s.fs.tag.Consuming → s.fs.execLeft ≠ 0) (hu : engineStep P s = .next u) :
    ∃ v, engineStep P t = .next v ∧ Ahead d u v := by
  have htag : t.fs.tag = s.fs.tag := by rw [h.fs]
  rw [engineStep_of_running hr] at hu
  rw [engineStep_of_running h.running]
  by_cases hcallback : s.fs.tag = .callback
  · cases (fsEngineStep_callback hcallback).symm.trans hu
    exact ⟨t, fsEngineStep_callback (htag.trans hcallback), h⟩
  by_cases hreset : s.fs.tag = .reset
  · cases (fsEngineStep_reset hreset).symm.trans hu
    exact ⟨_, fsEngineStep_reset (htag.trans hreset), h.resetStep⟩
  have hc : s.fs.tag.Consuming := FsTag.consuming_of_ne (by tauto)
  have hcan := hinv.fs.canConsume hr (hl hc)
  have hx : sampleAt P t t.fs.execOff.toNat = sampleAt P s s.fs.execOff.toNat := by simp only [sampleAt, h.byte, h.fs]
  rw [fsEngineStep_of_canConsume hc hcan] at hu
  rw [fsEngineStep_of_canConsume (htag ▸ hc) (h.canConsume hcan), hx]
  exact (h.consumeSample (hl hc)).applySample hu

/-- Side by side down to the completion step of the shorter FS.EXECUTE, with the same events. -/
theorem Ahead.exists_run_to_finish (hP : P.Lawful) (h : Ahead d s t) (hinv : Inv P s) (hr : fsRunning s = true) :
    ∃ k s' t' ev, ackRun P k s = some (s', ev) ∧ ackRun P k t = some (t', ev) ∧ Finishing P s' ∧ Ahead d s' t' ∧
      s'.fs.stop = s.fs.stop := by
  refine running_induction hP (motive := fun s => ∀ t, Ahead d s t → ∃ k s' t' ev,
      ackRun P k s = some (s', ev) ∧ ackRun P k t = some (t', ev) ∧ Finishing P s' ∧ Ahead d s' t' ∧ s'.fs.stop = s.fs.stop)
    (fun s hfin t h => ?_) (fun s hinv hr ht ih t h => ?_) (fun s u hinv hr ht hl hu near ih t h => ?_) hinv hr t h
  · exact ⟨0, s, t, [], rfl, rfl, hfin, h, rfl⟩
  · obtain ⟨k, s', t', ev, hrun, hrun', hfin, h', hstop⟩ := ih _ h.acknowledge
    have hp : s.fs.evtPending = true := hinv.fs.hold.2 ht
    have hp' : t.fs.evtPending = true := by rw [h.fs]; exact hp
    refine ⟨k + 1, s', t', _, ackRun_held hp hrun, h.seenEvent ▸ ackRun_held hp' hrun', hfin, h', hstop.trans ?_⟩
    rw [hinv.fs.acknowledge_eq ht]
    rfl
  · obtain ⟨v, hv, hahead⟩ := h.engineStep hinv hr hl hu
    obtain ⟨k, s', t', ev, hrun, hrun', hfin, h', hstop⟩ := ih v hahead
    have hp : s.fs.evtPending = false := hinv.fs.evtPending_of_ne ht
    have hp' : t.fs.evtPending = false := by rw [h.fs]; exact hp
    exact ⟨k + 1, s', t', ev, ackRun_next hp hu hrun, ackRun_next hp' hv hrun', hfin, h', hstop.trans near.stop⟩

end Ahead

/-! ## Starting an FS.EXECUTE -/

section Starting
variable {P : Params} {s t : State} {src n : Word}

/-- An accepted FS.EXECUTE that passes its checks runs after its first execution step. -/
theorem engineStep_fsExecute (hb : s.eng.busy = true) (hs : s.eng.started = false) (hi : decode s.eng.word = .ok .fsExecute)
    (hok : commandError P s .fsExecute = none) :
    engineStep P s = .next (fsExecuteEffect s) ∧ fsRunning (fsExecuteEffect s) = true := by
  refine ⟨?_, (fsRunning_iff _).2 ⟨hb, rfl, opc_of_decode_fsExecute hi⟩⟩
  simp only [engineStep, hb, hs, executionStep, hi, execWith_of_ok hok]
  rfl

/-- `s` with the operands of FS.EXECUTE in the argument registers (30_encoding.md R114). -/
def State.withExecuteArgs (src n : Word) (s : State) : State :=
  { s with regs := { s.regs with arg := { s.regs.arg with a0 := n, a2 := src } } }

theorem acceptedExecute_eq (src n : Word) (s : State) :
    acceptedExecute src n s = latchCommand 0x11#32 (noteCommand 0x11#32 (s.withExecuteArgs src n)) := by
  have hl : legal 0x11#32 = true := by decide
  rw [acceptedExecute, acceptIdle, if_pos hl]
  rfl

theorem acceptedExecute_inv (h : Inv P s) (hb : s.eng.busy = false) : Inv P (acceptedExecute src n s) := by
  have haccept := acceptCommand_inv (h.withRegs (r := (s.withExecuteArgs src n).regs) rfl) 0x11#32
  rwa [acceptCommand, if_neg (by simp [hb])] at haccept

/-- `b` runs an FS.EXECUTE on `n` samples at `src`, the synchronizer, BUF and the event registers being those of `s`. -/
structure Begun (src n : Word) (s b : State) : Prop where
  fs : b.fs = { s.fs with execOff := src, execLeft := n }
  buf : b.buf = s.buf
  epoch : b.epoch = s.epoch
  events : b.regs.events = s.regs.events
  running : fsRunning b = true

theorem acceptedExecute_begins (h : Inv P s) (hb : s.eng.busy = false) (hconf : s.fs.configured = true) (hn : n ≠ 0)
    (hsrc : InBuf P src (4 * n.toNat)) :
    ∃ b, ackRun P 1 (acceptedExecute src n s) = some (b, []) ∧ Inv P b ∧ Begun src n s b := by
  have hinv := acceptedExecute_inv (src := src) (n := n) h hb
  have hno := (h.fs.atRest (fsRunning_of_idle hb)).1.ne_callback
  rw [acceptedExecute_eq] at hinv ⊢
  have hi : decode (latchCommand 0x11#32 (noteCommand 0x11#32 (s.withExecuteArgs src n))).eng.word = .ok .fsExecute := by
    rw [word_latchCommand (by decide)]
    exact decode_encode (i := .fsExecute) rfl
  obtain ⟨hstep, hr⟩ := engineStep_fsExecute rfl rfl hi (fsExecute_passes_iff.2 ⟨hconf, hn, hsrc⟩)
  exact ⟨_, ackRun_next (h.fs.evtPending_of_ne hno) hstep rfl,
    fsExecuteEffect_inv hinv rfl rfl (fsExecute_passes_iff.2 ⟨hconf, hn, hsrc⟩), rfl, rfl, rfl, rfl, hr⟩

/-- Two FS.EXECUTE from one state, the second on `d` more samples. -/
theorem Begun.ahead {d : Word} {b b' : State} (hb : Begun src n s b) (hb' : Begun src (n + d) s b')
    (hroom : n.toNat + d.toNat < 2 ^ 32) : Ahead d b b' where
  fs := by rw [hb'.fs, hb.fs]
  buf := hb'.buf.trans hb.buf.symm
  epoch := hb'.epoch.trans hb.epoch.symm
  events := hb'.events.trans hb.events.symm
  running := hb'.running
  room := by rwa [hb.fs]

/-- An FS.EXECUTE begun where the last one ended, beside one that has the same samples still to come. -/
theorem Ahead.begun {b t' : State} (h : Ahead n t t') (hl : t.fs.execLeft = 0) (hoff : t.fs.execOff = src)
    (hb : Begun src n (complete t) b) : Ahead 0 b t' where
  fs := by rw [h.fs, hb.fs, complete_fs, hl, ← hoff, zero_add, add_zero]
  buf := h.buf.trans hb.buf.symm
  epoch := h.epoch.trans hb.epoch.symm
  events := h.events.trans hb.events.symm
  running := h.running
  room := by simpa using b.fs.execLeft.isLt

theorem Ahead.fs_eq (h : Ahead 0 s t) : t.fs = s.fs := by rw [h.fs, add_zero]

/-- Two runs in step complete together. -/
theorem Ahead.ackRun_finish (h : Ahead 0 s t) (hfin : Finishing P s) : ackRun P 1 t = some (complete t, []) := by
  refine ackRun_next ?_ ((engineStep_of_running h.running P).trans (fsEngineStep_none_left ?_ ?_)) rfl
  · rw [h.fs_eq]
    exact hfin.inv.fs.evtPending_of_ne hfin.consuming.ne_callback
  · rw [h.fs_eq]
    exact hfin.consuming
  · rw [h.fs_eq]
    exact hfin.none_left

end Starting

end Sys2Proof.Machine
end

section
/-! SUPPORT. A running FS.EXECUTE in DETECT whose front end is silent and whose samples to come are all zero (45_frame_sync.md R203,
R235). -/

namespace Sys2Proof.Machine

/-- A running FS.EXECUTE that only zero samples have reached since FE_INIT or FE_CLEAR, and only zero samples are to reach. -/
structure Silent (P : Params) (s : State) : Prop where
  running : fsRunning s = true
  tag : s.fs.tag = .detect
  noEvent : s.fs.evtPending = false
  front : FeSilent P.toBlockParams s.fs.cfg s.fs.fe
  range : s.fs.execOff.toNat + 4 * s.fs.execLeft.toNat ≤ P.bufSize
  zero : ∀ a, s.fs.execOff.toNat ≤ a → a < s.fs.execOff.toNat + 4 * s.fs.execLeft.toNat → s.byte P a = 0

section Silent
variable {P : Params} {s : State}

theorem sampleAt_zero {off : Nat} (h : ∀ k, k < 4 → s.byte P (off + k) = 0) : sampleAt P s off = Sample.zero := by
  have h0 : s.byte P off = 0 := h 0 (by decide)
  rw [sampleAt, h0, h 1 (by decide), h 2 (by decide), h 3 (by decide)]
  rfl

/-- FS.exec_off and FS.exec_left after a consumption, which wraps neither (45_frame_sync.md R205). -/
theorem Fs.consumed_toNat {f : Fs} (hP : P.Lawful) (hl : f.execLeft ≠ 0)
    (h : f.execOff.toNat + 4 * f.execLeft.toNat ≤ P.bufSize) :
    f.consumed.execOff.toNat = f.execOff.toNat + 4 ∧ f.consumed.execLeft.toNat + 1 = f.execLeft.toNat := by
  have hsize := hP.bufSize_le
  change (f.execOff + 4).toNat = _ ∧ (f.execLeft - 1).toNat + 1 = _
  constructor <;> bv_omega

/-- A zero sample leaves a silent front end silent, and does not trigger it. -/
theorem Silent.step (hP : P.Lawful) (h : Silent P s) (hl : s.fs.execLeft ≠ 0) : ∃ fe,
    engineStep P s = .next { s with fs := { s.fs.consumed with fe := fe } } ∧
    Silent P { s with fs := { s.fs.consumed with fe := fe } } := by
  obtain ⟨hoff, hleft⟩ := Fs.consumed_toNat hP hl h.range
  have hrange := h.range
  have hcan : CanConsume P s := ⟨h.running, hl, by omega⟩
  have hx : sampleAt P s s.fs.execOff.toNat = Sample.zero := sampleAt_zero fun k hk => h.zero _ (by omega) (by omega)
  refine ⟨(P.feStep s.fs.fe (.det s.fs.cfg.thresh) Sample.zero).1, ?_, ?_⟩
  · rw [engineStep_of_running h.running, fsEngineStep_detect hcan h.tag, hx]
    exact congrArg _ (detectStep_no_trigger rfl fun tau cfo => hP.frontEnd.silence _ _ _ tau cfo h.front)
  · exact {
      running := h.running
      tag := h.tag
      noEvent := h.noEvent
      front := .step _ _ h.front
      range := by
        change s.fs.consumed.execOff.toNat + 4 * s.fs.consumed.execLeft.toNat ≤ P.bufSize
        omega
      zero := fun a hge hlt => by
        change s.fs.consumed.execOff.toNat ≤ a at hge
        change a < s.fs.consumed.execOff.toNat + 4 * s.fs.consumed.execLeft.toNat at hlt
        exact h.zero a (by omega) (by omega) }

theorem Silent.run (hP : P.Lawful) {k : Nat} (h : Silent P s) (hk : k ≤ s.fs.execLeft.toNat) : ∃ t,
    ackRun P k s = some (t, []) ∧ Silent P t ∧ t.fs.inFlight = s.fs.inFlight ∧
    t.fs.execLeft.toNat = s.fs.execLeft.toNat - k ∧ t.regs = s.regs ∧ t.buf = s.buf := by
  induction k generalizing s with
  | zero => exact ⟨s, rfl, h, rfl, rfl, rfl, rfl⟩
  | succ k ih =>
    have hl : s.fs.execLeft ≠ 0 := by bv_omega
    obtain ⟨-, hleft⟩ := Fs.consumed_toNat hP hl h.range
    obtain ⟨fe, hstep, hsilent⟩ := h.step hP hl
    obtain ⟨t, hrun, ht, hflight, hleft', hregs, hbuf⟩ := ih hsilent (show k ≤ s.fs.consumed.execLeft.toNat by omega)
    change t.fs.execLeft.toNat = s.fs.consumed.execLeft.toNat - k at hleft'
    exact ⟨t, ackRun_next h.noEvent hstep hrun, ht, hflight, by omega, hregs, hbuf⟩

end Silent

end Sys2Proof.Machine
end

section
/-! PROOFS. The synchronizer's commands, the FS engine's steps, and what holds of whole runs (45_frame_sync.md). -/

namespace Sys2Proof.Machine

/-! ## The commands -/

/-- Settles O20: in either block the command is `execWith`, its checks made in the order of R211. -/
theorem fsCreateResult : Obligations.FsCreateResult := by
  refine ⟨decode_encode (i := .fsCreate) rfl, fun P run hrun s => ?_⟩
  have hexec : run s = execWith P .fsCreate s := by
    rcases hrun with ⟨rfl, rfl⟩ | rfl
    · exact exec_eq .fsCreate s
    · rfl
  simp only [hexec, ← headerLen_ctrlProfile, ← maxPayload_ctrlProfile]
  exact ⟨fun hok => (execWith_of_ok (fsCreate_passes_iff.2 hok)).trans (congrArg _ fsCreateEffect_eq),
    fun hbad => execWith_of_error (fsCreate_error hbad)⟩

/-- Settles O21. -/
theorem fsExecuteStarts : Obligations.FsExecuteStarts :=
  ⟨decode_encode (i := .fsExecute) rfl, fun _ =>
    ⟨fun hok => exec_of_ok (fsExecute_passes_iff.2 hok), fun hbad => exec_of_error (fsExecute_error hbad)⟩⟩

/-- Settles O22: the front end's state afterwards is the free value drawn. -/
theorem fsDestroyResult : Obligations.FsDestroyResult :=
  ⟨decode_encode (i := .fsDestroy) rfl, fun _ =>
    ⟨fun hconf => ⟨_, _, (exec_of_ok (fsDestroy_passes_iff.2 hconf)).trans (congrArg _ fsDestroyEffect_eq)⟩,
      fun hno => exec_of_error (fsDestroy_error hno)⟩⟩

/-! ## The FS engine's steps -/

/-- Settles O33. -/
theorem fsEnabledStep : Obligations.FsEnabledStep := fun P s =>
  ⟨fun hr => engineStep_of_running hr P, fun hb => engineStep_of_idle hb P, fsEngineStep_of_canConsume, fsEngineStep_callback,
    fsEngineStep_reset, fun hc hl => (fsEngineStep_none_left hc hl).trans (congrArg _ (complete_eq_completed s))⟩

/-- Settles O34. -/
theorem detectStepResult : Obligations.DetectStepResult := fun _ _ hcan ht =>
  have hstep := fsEngineStep_detect hcan ht
  ⟨fun _ _ h => hstep.trans (congrArg _ (detectStep_trigger rfl h)),
    fun h => hstep.trans (congrArg _ (detectStep_no_trigger rfl h))⟩

/-- Settles O35. -/
theorem syncStepResult : Obligations.SyncStepResult := fun _ _ hcan ht =>
  have hstep := fsEngineStep_sync hcan ht
  ⟨fun _ h hlast => hstep.trans (congrArg _ (syncStep_last rfl h hlast)),
    fun _ h hmore => hstep.trans (congrArg _ (syncStep_symbol rfl h hmore)),
    fun h => hstep.trans (congrArg _ (syncStep_no_symbol rfl h))⟩

/-- Settles O36: with the header decoded, what happens is BRANCH's choice. -/
theorem headerStepResult : Obligations.HeaderStepResult := by
  intro P s hcan ht g r
  have hstep := fsEngineStep_rxHeader hcan ht
  refine ⟨fun y h => ⟨fun hshort => hstep.trans (congrArg _ (headerStep_short rfl h hshort)), fun henough => ?_⟩,
    fun h => hstep.trans (congrArg _ (headerStep_no_symbol rfl h))⟩
  let u := State.withHeader P r.1 (s.fs.acc ++ P.demod g.hdrMod y) { s with fs := s.fs.consumed }
  have hbranch : fsEngineStep P s = .next (branch P u) := hstep.trans (congrArg _ (headerStep_decode rfl h henough))
  rw [hbranch]
  refine ⟨fun hv hp => ?_, fun hv hp hd => ?_, fun hv hp d hd => ⟨fun hf => ?_, fun hf => ?_⟩, fun hv hf => ?_,
    fun hv hf => ?_⟩
  · exact congrArg _ (branch_valid_fixed (s := u) hv hp)
  · exact congrArg _ (branch_valid_undeclared (s := u) hv hp hd)
  · exact congrArg _ (branch_valid_feasible (s := u) hv hp hd ((feasible_iff d).2 hf))
  · exact congrArg _ (branch_valid_infeasible (s := u) hv hp hd (mt (feasible_iff d).1 hf))
  · exact congrArg _ (branch_invalid_abort (s := u) hv hf)
  · exact congrArg _ (branch_invalid_continue (s := u) hv hf)

/-- Settles O37. -/
theorem payloadStepResult : Obligations.PayloadStepResult := by
  intro P s hcan ht out c r
  have hstep := fsEngineStep_rxPayload hcan ht
  refine ⟨fun y h => ⟨fun hshort => hstep.trans (payloadStep_short rfl h hshort), fun henough hfits =>
    ⟨?_, fun hP hfs hbuf => ?_⟩⟩, fun h => hstep.trans (payloadStep_no_symbol rfl h)⟩
  · rw [hstep, payloadStep_event (s := { s with fs := s.fs.consumed }) rfl h henough rfl hfits]
    exact congrArg _ (callbackEntry_eq _ _ _)
  · obtain ⟨hcur, hhdr⟩ := hfs.cur (.inl ht)
    obtain ⟨-, -, hinner, -⟩ := (feasible_iff _).1 hcur.feasible
    have hhdr8 := (hfs.cfg (hfs.configured_of_tag (by simp [ht]))).eight_le_hdrLen
    have hpl := pktDecSoft_length (p := c.pkt) hP hinner
    exact ⟨hpl _, byte_eventArea hbuf.wf (hhdr8.trans_eq hhdr.symm) (hpl _)⟩

/-- Settles O38. -/
theorem acknowledgeEndsTheHold : Obligations.AcknowledgeEndsTheHold := by
  intro s v
  rw [step_write_fsAck]
  refine ⟨fun hp => congrArg _ (if_pos hp), fun hp => congrArg _ (if_neg (by simp [hp])), fun P hP h hp => ?_⟩
  have ht : s.fs.tag = .callback := h.fs.hold.1 hp
  rw [engineStep_of_running (h.fs.inside (.inl ht)), fsEngineStep_callback ht]

/-- Settles O39. -/
theorem resetStepResult : Obligations.ResetStepResult := fun _ _ ht =>
  ⟨fsEngineStep_reset ht, fun hP => hP.frontEnd.clear_persist _, fun hP => hP.frontEnd.clear_frame _ _⟩

/-! ## Runs -/

/-- Settles O40: up to the first completion the whole FS.EXECUTE runs beside the first part, `n2` samples ahead, and from the second
acceptance on beside the second part, in step. -/
theorem chunkIndependence : Obligations.ChunkIndependence := by
  intro P s off n1 n2 hP h hb hconf hn1 hn2 hbuf
  have hsize := hP.bufSize_le
  have hsum : (n1 + n2).toNat = n1.toNat + n2.toNat := by rw [BitVec.toNat_add, Nat.mod_eq_of_lt (by omega)]
  have hsum_ne : n1 + n2 ≠ 0 := by bv_omega
  have hsrc2 : (off + 4 * n1).toNat + 4 * n2.toNat ≤ P.bufSize := by bv_omega
  obtain ⟨b, hb0, -, hbegun⟩ := acceptedExecute_begins h hb hconf hsum_ne (src := off) (by rw [InBuf, hsum]; exact hbuf)
  obtain ⟨b1, hb1, hinv1, hbegun1⟩ := acceptedExecute_begins h hb hconf hn1 (src := off) (by unfold InBuf; omega)
  obtain ⟨k, s1, s', ev1, hrun1, hrun', hfin1, hahead, hstop⟩ :=
    (hbegun1.ahead hbegun (by omega)).exists_run_to_finish hP hinv1 hbegun1.running
  have hoff : s1.fs.execOff = off + 4 * n1 := by
    rw [hbegun1.fs, Fs.stop, Fs.stop, hfin1.none_left] at hstop
    simpa using hstop
  have hinv1' := hfin1.inv.complete hfin1.busy ⟨hfin1.consuming, hfin1.none_left⟩
  have hconf1 := hfin1.inv.configured_of_running hfin1.running
  obtain ⟨b2, hb2, hinv2, hbegun2⟩ := acceptedExecute_begins hinv1' rfl hconf1 hn2 hsrc2
  obtain ⟨k', s2, s'', ev2, hrun2, hrun'', hfin2, hahead2, -⟩ :=
    (hahead.begun hfin1.none_left hoff hbegun2).exists_run_to_finish hP hinv2 hbegun2.running
  exact ⟨_, _, _, complete s'', complete s1, complete s2, _, _, _,
    ackRun_append hb0 (ackRun_append hrun' (ackRun_append hrun'' (hahead2.ackRun_finish hfin2))), rfl,
    ackRun_append hb1 (ackRun_append hrun1 hfin1.ackRun), rfl,
    ackRun_append hb2 (ackRun_append hrun2 hfin2.ackRun), rfl, hahead2.fs_eq.symm, hahead2.buf.symm, by simp⟩

/-- Settles O41: FS.CREATE and RESET leave the front end as FE_INIT and FE_CLEAR do, and zero samples keep it silent. -/
theorem silenceNeverTriggers : Obligations.SilenceNeverTriggers := by
  intro P hP
  refine ⟨fun s t hexec hno hconf => ?_, fun s t ht hreach hstep => ?_, fun s k hr ht hp hfe hrange hzero hk => ?_⟩
  · cases he : commandError P s .fsCreate with
    | some e =>
      cases hexec.symm.trans (execWith_of_error he)
      exact absurd (hno.symm.trans hconf) nofun
    | none =>
      cases hexec.symm.trans (execWith_of_ok he)
      exact ⟨rfl, .init⟩
  · cases hstep.symm.trans (fsEngineStep_reset ht)
    exact ⟨rfl, .clear _ hreach⟩
  · obtain ⟨t, hrun, hsilent, hflight, hleft, hregs, hbuf⟩ := Silent.run hP ⟨hr, ht, hp, hfe, hrange, hzero⟩ hk
    exact ⟨t, hrun, hsilent.tag, hflight, hleft, hregs, hbuf, hsilent.front⟩

/-- Settles O42: every step of the block and every acknowledgement brings the completion step nearer. -/
theorem executeCompletes : Obligations.ExecuteCompletes := by
  intro P s hP h
  refine ⟨fun hr => ?_, fun hb hs hi hconf hn hsrc => ?_⟩
  · obtain ⟨k, t, ev, hrun, hfin, hk, hev⟩ := exists_run_to_finish hP h hr
    refine ⟨k + 1, complete t, ev, hk.trans_le s.fs.stepsLeft_bounds.2, ?_, hev.trans s.fs.eventsLeft_bounds.2, rfl, rfl,
      (hfin.inv.engine.busyClear hfin.busy).2, hfin.none_left, hfin.consuming.ne_callback, hfin.consuming.ne_reset⟩
    simpa using ackRun_append hrun hfin.ackRun
  · have hok := fsExecute_passes_iff.2 ⟨hconf, hn, hsrc⟩
    obtain ⟨hstep, hr⟩ := engineStep_fsExecute hb hs hi hok
    exact ⟨_, hstep, hr, fsExecuteEffect_inv h hb (opc_of_decode_fsExecute hi) hok, rfl⟩

end Sys2Proof.Machine
end

section
/-! SUPPORT. What the host's register writes do, register by register, what an accepted command's turn runs, and the interrupt bits one
by one (60_exceptions.md R261 to R272). -/

namespace Sys2Proof.Machine

/-! ## Register writes -/

/-- A register outside the context block is at its offset of the map, however many contexts there are (10_state.md R32). -/
theorem regAt_of_mem {P : Params} (hP : P.Lawful) {off : Nat} {r : Reg} (h : (off, r) ∈ registerMap) : regAt P off = some r := by
  have hctx := hP.numCtx.2
  have houtside := registerMap_offsets _ h
  have hmap : ∀ p ∈ registerMap, registerMap.lookup p.1 = some p.2 := by decide
  rw [regAt, if_neg (by omega)]
  exact hmap _ h

/-- Every offset of the map is one the host may access with 32 bits (20_memory.md R85). -/
theorem registerMap_accessible : ∀ p ∈ registerMap, p.1 % 4 = 0 ∧ p.1 < 4096 := by decide

theorem step_wr_of_regAt {off : Nat} {r : Reg} (h4 : off % 4 = 0) (hlt : off < 4096) (h : regAt Config.params off = some r)
    (v : Word) (s : State) : step { s with agenda := wr off v :: s.agenda } = .next (writeReg v s r) := by
  rw [step_wr h4 hlt, writeOffset, h]

/-- A host write at a register's offset is a write to that register. -/
theorem step_wr_of_mem {off : Nat} {r : Reg} (h : (off, r) ∈ registerMap) (v : Word) (s : State) :
    step { s with agenda := wr off v :: s.agenda } = .next (writeReg v s r) := by
  obtain ⟨h4, hlt⟩ := registerMap_accessible _ h
  exact step_wr_of_regAt h4 hlt (regAt_of_mem params_lawful h) v s

/-- An address of the register window is an offset of the register block, whatever BUF's window is (log 16). -/
theorem locate_reg (P : Params) {off : Nat} (h : off < 4096) : locate P (P.regBase + off) = some (.reg off) := by
  rw [locate, if_pos (by omega), Nat.add_sub_cancel_left]

theorem step_write_addr {off : Nat} (h : off < 4096) (v : Word) (s : State) :
    step { s with agenda := .write (.addr (Config.params.regBase + off)) .b4 v :: s.agenda }
      = step { s with agenda := wr off v :: s.agenda } := by
  rw [step_turn, step_turn]
  simp only [takeTurn, wr, hostWrite, locate_reg _ h]

theorem acknowledge_of_pending {s : State} (h : s.fs.evtPending = true) :
    acknowledge s = { s with fs := { s.fs with evtPending := false, tag := .reset } } := if_pos h

theorem acknowledge_of_not_pending {s : State} (h : s.fs.evtPending = false) : acknowledge s = s := if_neg (by simp [h])

/-! ## A write to CMD -/

theorem acceptIdle_legal {w : Word} (hl : legal w = true) (s : State) :
    acceptIdle w s = latchCommand w (noteCommand w s) := if_pos hl

theorem acceptCommand_legal {w : Word} {s : State} (hl : legal w = true) (hb : s.eng.busy = false) :
    acceptCommand w s = latchCommand w (noteCommand w s) := by
  rw [acceptCommand, hb]
  exact acceptIdle_legal hl s

theorem acceptCommand_busy {s : State} (hb : s.eng.busy = true) (w : Word) : acceptCommand w s = overrun s := if_pos hb

theorem overrun_eq (s : State) :
    overrun s = { s with regs := { s.regs with intStatus := s.regs.intStatus ||| 0b1000#4 } } := by
  simp [overrun, intOvr]

/-! ## The execution step -/

/-- With an accepted command waiting, the block's step runs it (60_exceptions.md R266). -/
theorem engineStep_accepted {s : State} {i : Instr} (hb : s.eng.busy = true) (hs : s.eng.started = false)
    (hi : decode s.eng.word = .ok i) (P : Params) : engineStep P s = execWith P i s := by
  simp [engineStep, hb, hs, executionStep, hi]

theorem engineStep_accepted_exec {s : State} {i : Instr} (hb : s.eng.busy = true) (hs : s.eng.started = false)
    (hi : decode s.eng.word = .ok i) : engineStep Config.params s = exec i s :=
  (engineStep_accepted hb hs hi _).trans (exec_eq i s).symm

theorem decodeTableWord_eq_some {nbits w : Nat} {i : Instr} (h : decodeTableWord nbits w = some i) :
    decode (BitVec.ofNat 32 (w % 2 ^ nbits)) = .ok i := by
  unfold decodeTableWord at h
  split at h
  · cases h; assumption
  · cases h

/-- After the arrival of a legal word the block's turn is next, on the state of its acceptance (log 2). -/
theorem step_commandArrives {w : Word} (hl : legal w = true) (s : State) :
    step (commandArrives w s) = engineStep Config.params (latchCommand w (noteCommand w s)) := by
  rw [commandArrives, acceptIdle_legal hl]
  exact step_turn (latchCommand w (noteCommand w s)) .engine

theorem raise_eq (e : CmdError) (s : State) : raise e s = { s with
    regs := { s.regs with
      done := false, err := true, errCode := e.code.toByte, errInfo := e.info, intStatus := s.regs.intStatus ||| 0b0010#4 }
    eng := { s.eng with busy := false } } := by
  simp [raise, intErr]

/-- A command that passes its checks leaves STATUS.ERR as its acceptance cleared it (60_exceptions.md R266). -/
theorem commandEffect_err (P : Params) (s : State) (i : Instr) : (commandEffect P s i).regs.err = s.regs.err := by
  cases i <;> rfl

/-! ## Interrupt bits -/

theorem irq_iff (s : State) :
    irq s = true ↔ ∃ i, i < 4 ∧ s.regs.intStatus.getLsbD i = true ∧ s.regs.intEnable.getLsbD i = true := by
  rw [irq, decide_eq_true_iff, ne_eq, BitVec.eq_of_getLsbD_eq_iff]
  simp

theorem intNext_clear (old clear : BitVec 4) : intNext old clear 0 = old &&& ~~~clear := BitVec.or_zero

end Sys2Proof.Machine
end

section
/-! PROOFS. The life of a command: acceptance, overrun, the one execution step and precise errors; and the host's register writes and
the interrupt output (60_exceptions.md). -/

namespace Sys2Proof.Machine

/-! ## The life of a command -/

/-- Settles O6: `withFetchWord` leaves in ENG the word that the command was decoded from. -/
theorem stepRunsTheDecodedCommand : Obligations.StepRunsTheDecodedCommand := by
  refine ⟨fun s i hb hs hi => ⟨engineStep_accepted_exec hb hs hi, engineStep_accepted hb hs hi⟩,
    fun s hnil => ?_, fun s => step_turn s .engine, fun s nbits w i _ hi => ?_⟩
  · rw [step, nextTurn, hnil]
  · have hdecode := decodeTableWord_eq_some hi
    have hl : legal (BitVec.ofNat 32 (w % 2 ^ nbits)) = true := by simp [legal, hdecode]
    rw [State.withFetchWord, step_commandArrives hl]
    refine engineStep_accepted_exec rfl rfl ?_
    rwa [word_latchCommand (reserved_of_legal hl)]

/-- Settles O7: the two outcomes of a write to CMD that are no error. -/
theorem commandAcceptance : Obligations.CommandAcceptance := by
  intro s w
  have hcmd := step_wr_of_mem (off := 0x010) (r := .cmd) (by decide) w s
  refine ⟨fun hb hl => ?_, fun hb => ?_⟩
  · exact hcmd.trans (congrArg _ (acceptCommand_legal hl hb))
  · exact hcmd.trans (congrArg _ ((acceptCommand_busy hb w).trans (overrun_eq s)))

/-- Settles O8: a command whose checks fail is `raise` of the first error. -/
theorem errorsArePrecise : Obligations.ErrorsArePrecise := fun s _ e he =>
  (exec_of_error he).trans (congrArg _ (raise_eq e s))

/-- Settles O9: a command raises its first error, or has its effect, which completes it unless it is FS.EXECUTE. -/
theorem oneExecutionStep : Obligations.OneExecutionStep := by
  intro s i _ herr
  cases he : commandError Config.params s i with
  | some e => exact ⟨_, exec_of_error he, fun _ => ⟨rfl, rfl⟩, fun _ => .inl ⟨rfl, rfl, rfl⟩⟩
  | none =>
    refine ⟨_, exec_of_ok he, fun hi => ?_, fun hi => ?_⟩
    · obtain ⟨hidle, hdone⟩ := commandEffect_completes Config.params s i hi
      exact ⟨hidle, by rw [hdone, commandEffect_err, herr]; rfl⟩
    · subst hi
      exact .inr ⟨rfl, rfl⟩

/-! ## The host's register writes -/

/-- Settles O52: each offset is that of its register in the map, and `writeReg` says what the write does. -/
theorem registerWrites : Obligations.RegisterWrites := by
  intro s v after
  have hafter {off : Nat} {r : Reg} (h : (off, r) ∈ registerMap) : after off = .next (writeReg v s r) := step_wr_of_mem h v s
  have hack : after 0x220 = .next (acknowledge s) := step_write_fsAck v s
  refine ⟨fun off hlt => step_write_addr hlt v s, hafter (r := .arg0) (by decide), hafter (r := .arg1) (by decide),
    hafter (r := .arg2) (by decide), hafter (r := .arg3) (by decide), ?_, hafter (r := .intEnable) (by decide),
    hafter (r := .fsCtrl) (by decide), hafter (r := .fsHdrCfg) (by decide), hafter (r := .fsPayCfg) (by decide),
    hafter (r := .fsPayLen) (by decide), hafter (r := .fsDetThresh) (by decide), hafter (r := .fsOutAddr) (by decide),
    fun hp => hack.trans (congrArg _ (acknowledge_of_pending hp)),
    fun hp => hack.trans (congrArg _ (acknowledge_of_not_pending hp)), fun off r h4 hlt hr hro => ?_⟩
  · rw [hafter (r := .intStatus) (by decide), writeReg, clearInterrupts, intNext_clear]
  · exact (step_wr_of_regAt h4 hlt hr v s).trans (congrArg _ (writeReg_ro hro v s))

/-- Settles O54: bit by bit, `intNext` is "set, or held and not cleared". -/
theorem interruptOutputAndReturn : Obligations.InterruptOutputAndReturn := by
  intro s
  refine ⟨irq_iff s, fun v => ⟨_, step_wr_of_mem (r := .intStatus) (by decide) v s, fun i hi => ?_, rfl, rfl, rfl,
    fun i old clear set _ hset => ?_⟩⟩
  · rw [writeReg, clearInterrupts_regs, intNext_set_wins]
    simp [hi]
  · rw [intNext_set_wins, hset, Bool.true_or]

end Sys2Proof.Machine
end

section
/-! SUPPORT. What a host read of each register delivers: the register at an offset, the fields of the words read, and the readings after
power-on reset (10_state.md R32 to R76, 70_reset_and_hazards.md R290). -/

namespace Sys2Proof.Machine

/-! ## The register at an offset -/

theorem readOffset_of_regAt {P : Params} {off : Nat} {r : Reg} (h : regAt P off = some r) (s : State) :
    readOffset P s off = readReg P s r := by
  rw [readOffset, h]

/-- A read at a register's offset is a read of that register. -/
theorem readOffset_of_mem {P : Params} (hP : P.Lawful) (s : State) (r : Reg) {off : Nat}
    (h : (off, r) ∈ registerMap := by decide) : readOffset P s off = readReg P s r := readOffset_of_regAt (regAt_of_mem hP h) s

/-- The register of context `c` at byte `k` of its 16 bytes (10_state.md R32). -/
def contextReg (c k : Nat) : Option Reg :=
  match k with
  | 0 => some (.ctxState c)
  | 4 => some (.ctxDecLen c)
  | 8 => some (.ctxScheme c)
  | 12 => some (.ctxEncLen c)
  | _ => none

theorem regAt_context {P : Params} {c k : Nat} (hc : c < P.numCtx) (hk : k < 16) :
    regAt P (0x040 + k + 16 * c) = contextReg c k := by
  have hbyte : (0x040 + k + 16 * c - 0x040) % 16 = k := by omega
  have hctx : (0x040 + k + 16 * c - 0x040) / 16 = c := by omega
  rw [regAt, if_pos (by omega), hbyte, hctx]
  rfl

theorem readOffset_context {P : Params} {c k : Nat} {r : Reg} (hc : c < P.numCtx) (hk : k < 16) (hr : contextReg c k = some r)
    (s : State) : readOffset P s (0x040 + k + 16 * c) = readReg P s r :=
  readOffset_of_regAt ((regAt_context hc hk).trans hr) s

/-- The register at an offset is in the map at that offset, or is a context's. -/
theorem regAt_cases {P : Params} {off : Nat} {r : Reg} (h : regAt P off = some r) :
    (off, r) ∈ registerMap ∨ ∃ c k, contextReg c k = some r := by
  unfold regAt at h
  split at h
  · exact .inr ⟨_, _, h⟩
  · obtain ⟨before, after, hmap, -⟩ := List.lookup_eq_some_iff.1 h
    exact .inl (by simp [hmap])

/-- A host read at an address of the register window, whatever BUF's window is (log 16). -/
theorem step_read_addr {off : Nat} (h : off < 4096) (s : State) :
    step { s with agenda := .read (.addr (Config.params.regBase + off)) .b4 :: s.agenda }
      = step { s with agenda := rd off :: s.agenda } := by
  rw [step_turn, step_turn]
  simp only [takeTurn, rd, hostRead, locate_reg _ h]

/-! ## The fields of the words read -/

/-- A bit above the low part of a concatenation is a bit of its high part. -/
theorem getLsbD_append_high {v w i : Nat} {hi : BitVec v} {lo : BitVec w} {b : Bool} (h : w ≤ i) (hb : hi.getLsbD (i - w) = b) :
    (hi ++ lo).getLsbD i = b := by
  rw [BitVec.getLsbD_append, if_neg (Nat.not_lt.2 h), hb]

theorem getLsbD_append_flagBit {v : Nat} (hi : BitVec v) (b : Bool) : (hi ++ flagBit b).getLsbD 0 = b := by
  rw [BitVec.getLsbD_append, if_pos Nat.zero_lt_one]
  cases b <;> rfl

theorem flagWord_getLsbD_zero (b : Bool) : (flagWord b).getLsbD 0 = b := by cases b <;> rfl

/-- NUM_CTX and log2(BUF_SIZE) fit their fields of 8 bits (10_state.md R36). -/
theorem capsValue_fields {P : Params} (hP : P.Lawful) :
    ((capsValue P).extractLsb' 0 8).toNat = P.numCtx ∧ ((capsValue P).extractLsb' 8 8).toNat = P.bufBits := by
  have hnum := hP.numCtx.2
  have hbits := hP.bufBits.2
  have hlow : (capsValue P).extractLsb' 0 8 = BitVec.ofNat 8 P.numCtx := BitVec.extractLsb'_append_eq_right
  have hmid : (capsValue P).extractLsb' 8 8 = BitVec.ofNat 8 P.bufBits :=
    extractLsb'_append_high (by decide) BitVec.extractLsb'_append_eq_right
  rw [hlow, hmid, BitVec.toNat_ofNat, BitVec.toNat_ofNat]
  omega

theorem capsValue_eq {P : Params} (hP : P.Lawful) : capsValue P = BitVec.ofNat 32 (P.bufBits * 256 + P.numCtx) := by
  have hnum := hP.numCtx.2
  have hbits := hP.bufBits.2
  apply BitVec.eq_of_toNat_eq
  rw [capsValue, BitVec.toNat_append, ← Nat.shiftLeft_add_eq_or_of_lt (BitVec.isLt _), Nat.shiftLeft_eq]
  simp only [BitVec.toNat_append, BitVec.toNat_ofNat, Nat.zero_mod, Nat.zero_shiftLeft, Nat.zero_or]
  omega

theorem toWord_maxDecLen_toNat {P : Params} (hP : P.Lawful) : (toWord P.maxDecLen).toNat = P.maxDecLen := by
  have hmax := hP.maxDecLen.2
  rw [toWord, BitVec.toNat_ofNat]
  omega

/-- STATUS (10_state.md R40). -/
theorem statusWord_fields (s : State) :
    (statusWord s).getLsbD 0 = s.eng.busy ∧ (statusWord s).getLsbD 1 = s.regs.done ∧ (statusWord s).getLsbD 2 = s.regs.err ∧
    (statusWord s).getLsbD 3 = s.regs.valid ∧ (statusWord s).extractLsb' 8 8 = s.regs.errCode ∧
    (statusWord s).extractLsb' 16 8 = s.regs.lastOpc := by
  refine ⟨getLsbD_append_flagBit .., ?_, ?_, ?_, ?_, ?_⟩
  · exact getLsbD_append_high (by decide) (getLsbD_append_flagBit ..)
  · iterate 2 apply getLsbD_append_high (by decide)
    exact getLsbD_append_flagBit ..
  · iterate 3 apply getLsbD_append_high (by decide)
    exact getLsbD_append_flagBit ..
  · iterate 5 apply extractLsb'_append_high (by decide)
    exact BitVec.extractLsb'_append_eq_right
  · iterate 6 apply extractLsb'_append_high (by decide)
    exact BitVec.extractLsb'_append_eq_right

/-- CTX_SCHEME (10_state.md R44). -/
theorem schemeWord_fields (ed inner outer : Byte) :
    (schemeWord ed inner outer).extractLsb' 0 8 = ed ∧ (schemeWord ed inner outer).extractLsb' 8 8 = inner ∧
    (schemeWord ed inner outer).extractLsb' 16 8 = outer :=
  ⟨BitVec.extractLsb'_append_eq_right, extractLsb'_append_high (by decide) BitVec.extractLsb'_append_eq_right,
    extractLsb'_append_high (by decide) (extractLsb'_append_high (by decide) BitVec.extractLsb'_append_eq_right)⟩

/-- FS_STATUS (10_state.md R66). -/
theorem fsStatusWord_fields (s : State) :
    (fsStatusWord s).extractLsb' 0 3 = s.fs.tag.code ∧ (fsStatusWord s).getLsbD 3 = s.fs.configured ∧
    (fsStatusWord s).getLsbD 4 = s.fs.evtPending ∧ (fsStatusWord s).getLsbD 5 = s.fs.inFlight := by
  refine ⟨BitVec.extractLsb'_append_eq_right, ?_, ?_, ?_⟩
  · exact getLsbD_append_high (by decide) (getLsbD_append_flagBit ..)
  · iterate 2 apply getLsbD_append_high (by decide)
    exact getLsbD_append_flagBit ..
  · iterate 3 apply getLsbD_append_high (by decide)
    exact getLsbD_append_flagBit ..

/-- FS_EVT (10_state.md R69). -/
theorem fsEvtWord_fields (s : State) :
    (fsEvtWord s).getLsbD 0 = s.regs.evtHdrValid ∧ (fsEvtWord s).getLsbD 1 = s.regs.evtPayValid :=
  ⟨getLsbD_append_flagBit .., getLsbD_append_high (by decide) (getLsbD_append_flagBit ..)⟩

/-- The four registers of a context (10_state.md R44). -/
theorem contextReadings {P : Params} {c : Nat} (hc : c < P.numCtx) (s : State) :
    (readOffset P s (0x040 + 16 * c)).getLsbD 0 = (s.ctx c).configured ∧
    (readOffset P s (0x040 + 16 * c)).extractLsb' 1 31 = 0#31 ∧
    readOffset P s (0x044 + 16 * c) = (s.ctx c).len ∧
    (readOffset P s (0x048 + 16 * c)).extractLsb' 0 8 = (s.ctx c).ed ∧
    (readOffset P s (0x048 + 16 * c)).extractLsb' 8 8 = (s.ctx c).inner ∧
    (readOffset P s (0x048 + 16 * c)).extractLsb' 16 8 = (s.ctx c).outer ∧
    (readOffset P s (0x048 + 16 * c)).extractLsb' 24 8 = 0#8 ∧
    readOffset P s (0x04C + 16 * c) = (s.ctx c).enc := by
  have hstate : readOffset P s (0x040 + 16 * c) = flagWord (s.ctx c).configured :=
    readOffset_context (k := 0) hc (by decide) rfl s
  have hscheme : readOffset P s (0x048 + 16 * c) = schemeWord (s.ctx c).ed (s.ctx c).inner (s.ctx c).outer :=
    readOffset_context (k := 8) hc (by decide) rfl s
  obtain ⟨hed, hinner, houter⟩ := schemeWord_fields (s.ctx c).ed (s.ctx c).inner (s.ctx c).outer
  rw [hstate, hscheme]
  exact ⟨flagWord_getLsbD_zero _, ctxState_reserved P s c, readOffset_context (k := 4) hc (by decide) rfl s, hed, hinner, houter,
    schemeWord_reserved _ _ _, readOffset_context (k := 12) hc (by decide) rfl s⟩

/-! ## After power-on reset -/

theorem reset_ctx (c : Nat) : State.reset.ctx c = Ctx.unconfigured := by
  by_cases hc : c < 16
  · simp [State.ctx, State.reset, hc]
  · exact ctx_of_ge _ (Nat.le_of_not_lt hc)

theorem readReg_reset (P : Params) {r : Reg} (h : r ∉ [.id, .version, .caps, .capsMaxLen]) : readReg P State.reset r = 0 := by
  cases r with
  | id | version | caps | capsMaxLen => simp at h
  | ctxState c | ctxDecLen c | ctxScheme c | ctxEncLen c => rw [readReg, reset_ctx]; rfl
  | _ => rfl

/-- The map has ID, VERSION, CAPS and CAPS_MAXLEN at their four offsets alone. -/
theorem regAt_not_mem_constants {P : Params} {off : Nat} {r : Reg} (h : regAt P off = some r)
    (hoff : off ∉ [0x000, 0x004, 0x008, 0x00C]) : r ∉ [.id, .version, .caps, .capsMaxLen] := by
  rcases regAt_cases h with hmem | ⟨c, k, hctx⟩
  · have hmap : ∀ p ∈ registerMap, p.1 ∉ [0x000, 0x004, 0x008, 0x00C] → p.2 ∉ [Reg.id, .version, .caps, .capsMaxLen] := by decide
    exact hmap _ hmem hoff
  · unfold contextReg at hctx
    split at hctx <;> cases hctx <;> simp

theorem readOffset_reset {P : Params} {off : Nat} (hoff : off ∉ [0x000, 0x004, 0x008, 0x00C]) :
    readOffset P State.reset off = 0 := by
  cases h : regAt P off with
  | none => exact readOffset_unassigned h _
  | some r => exact (readOffset_of_regAt h _).trans (readReg_reset P (regAt_not_mem_constants h hoff))

/-- A byte of BUF that nothing has written since the reset reads as a free value (20_memory.md R81). -/
theorem byte_of_buf_nil {s : State} (h : s.buf = []) (a : Nat) : s.byte Config.params a = Config.bufInit s.epoch a := by
  rw [State.byte, h]
  rfl

theorem irq_of_regs_reset {s : State} (h : s.regs = Regs.reset) : irq s = false := by
  rw [irq, h]
  rfl

end Sys2Proof.Machine
end

section
/-! PROOFS. What the host reads from each register, and power-on reset at any step (70_reset_and_hazards.md R290, R291). -/

namespace Sys2Proof.Machine

/-- Settles O51: a turn of power-on reset is `powerOnReset`, which keeps only the model's own fields and counts the reset, so that BUF's
free values are those of the next epoch. -/
theorem powerOnResetAtAnyStep : Obligations.PowerOnResetAtAnyStep := fun s =>
  ⟨powerOnReset s, step_turn s .por, rfl, rfl, rfl, rfl, rfl, byte_of_buf_nil rfl, irq_of_regs_reset rfl⟩

/-- Settles O49: each offset is that of its register in the map, `readReg` says what the register reads as, and the lemmas about the
words read give their fields; after reset only the four constants read as anything but 0. -/
theorem hostReadings : Obligations.HostReadings := by
  unfold Obligations.HostReadings
  intro P
  have hP : P.Lawful := params_lawful
  refine ⟨fun s off h4 hlt => ⟨step_rd h4 hlt s, step_read_addr hlt s⟩, fun s => ?_, fun off => ?_, fun c => ?_, rfl, rfl, rfl,
    rfl, rfl, fun a => byte_of_buf_nil rfl a, irq_of_regs_reset rfl⟩
  · intro x
    have hread := @readOffset_of_mem P hP s
    obtain ⟨hnum, hbits⟩ := capsValue_fields hP
    obtain ⟨hbusy, hdone, herr, hvalid, hcode, hopc⟩ := statusWord_fields s
    obtain ⟨hlow, hhigh⟩ := status_reserved P s
    obtain ⟨htag, hconf, hpend, hflight⟩ := fsStatusWord_fields s
    obtain ⟨hhv, hpv⟩ := fsEvtWord_fields s
    have hcaps : x 0x008 = capsValue P := hread .caps
    have hmax : x 0x00C = toWord P.maxDecLen := hread .capsMaxLen
    have hstatus : x 0x02C = statusWord s := hread .status
    have hfs : x 0x218 = fsStatusWord s := hread .fsStatus
    have hevt : x 0x224 = fsEvtWord s := hread .fsEvt
    rw [hcaps, hmax, hstatus, hfs, hevt]
    refine ⟨hread .id, hread .version, hnum, congrArg (2 ^ ·) hbits, caps_reserved P s, toWord_maxDecLen_toNat hP, hread .cmd,
      hread .arg0, hread .arg1, hread .arg2, hread .arg3, hread .result0, hread .result1,
      ⟨hbusy, hdone, herr, hvalid, hlow, hcode, hopc, hhigh⟩, hread .errInfo,
      (hread .intStatus).trans (BitVec.setWidth_eq_append (by decide)).symm,
      (hread .intEnable).trans (BitVec.setWidth_eq_append (by decide)).symm, fun c hc => contextReadings hc s,
      (hread .fsCtrl).trans (BitVec.setWidth_eq_append (by decide)).symm, hread .fsHdrCfg, hread .fsPayCfg, hread .fsPayLen,
      hread .fsDetThresh, hread .fsOutAddr, ⟨htag.trans ?_, hconf, hpend, hflight, fsStatus_reserved P s⟩,
      hread .fsSamplesLeft, hread .fsAck, ⟨hhv, hpv, fsEvt_reserved P s⟩, hread .fsEvtLen, hread .fsStatEvm, hread .fsStatRssi,
      hread .fsStatCfo, hread .fsStatNsym, hread .fsStatMod, hread .fsStatScheme⟩
    cases s.fs.tag <;> rfl
  · by_cases hoff : off ∈ [0x000, 0x004, 0x008, 0x00C]
    · have hread := @readOffset_of_mem P hP State.reset
      simp only [List.mem_cons, List.not_mem_nil, or_false] at hoff
      rcases hoff with rfl | rfl | rfl | rfl
      · exact hread .id
      · exact hread .version
      · exact (hread .caps).trans (capsValue_eq hP)
      · exact hread .capsMaxLen
    · rw [readOffset_reset hoff]
      simp only [List.mem_cons, List.not_mem_nil, or_false, not_or] at hoff
      obtain ⟨hid, hversion, hcaps, hmax⟩ := hoff
      rw [if_neg hid, if_neg hversion, if_neg hcaps, if_neg hmax]
      rfl
  · rw [reset_ctx]
    rfl

end Sys2Proof.Machine
end


section
/-! SUPPORT. Bit errors through the stages of DEC: a FEC stage drops the errors its codec corrects, and the de-interleaver moves the
others to their de-interleaved places (41_packetizer_coding.md R161, R164). -/

namespace Sys2Proof.Machine

/-- The FEC stage's correction capability (41_packetizer_coding.md R161; log 18). -/
theorem fecDec_flipBits_fecEnc {P : Params} (hP : P.Lawful) {fec : Byte} (hf : knownFec P fec = true) {n : Nat} {a : List Byte}
    (ha : a.length = n) {ps : List Nat} (hfix : (fecCodec P fec).fixes n ps = true) :
    fecDec P fec (flipBits ps (fecEnc P fec a)) n = a := by
  subst ha
  exact (fecCodec_lawful hP hf).corrects a ps hfix

theorem bits_flipBits_getD {ps : List Nat} {b : List Byte} {k : Nat} (hk : k < 8 * b.length) :
    (bits (flipBits ps b)).getD k false = xor ((bits b).getD k false) (decide (k ∈ ps)) := by
  have hbits : k < (bits b).length := by rwa [bits_length]
  rw [bits_flipBits, List.getD_eq_getElem _ _ (by rwa [List.length_mapIdx]), List.getElem_mapIdx,
    List.getD_eq_getElem _ _ hbits]

/-- The de-interleaver reads its bit k at place π(k), so an error at place j comes out at π⁻¹(j). -/
theorem dilv_flipBits (P : Params) {n : Nat} {b : List Byte} (hb : b.length = n) (ps : List (Fin (8 * n))) :
    dilv P n (flipBits (ps.map Fin.val) b) = flipBits (ps.map fun j => ((P.intlv n).symm j).val) (dilv P n b) := by
  have hmem : ∀ k : Fin (8 * n),
      (P.intlv n k).val ∈ ps.map Fin.val ↔ k.val ∈ ps.map fun j => ((P.intlv n).symm j).val := fun k => by
    simp [Fin.val_inj, Equiv.symm_apply_eq]
  have hbits : bits (dilv P n (flipBits (ps.map Fin.val) b)) =
      bits (flipBits (ps.map fun j => ((P.intlv n).symm j).val) (dilv P n b)) := by
    rw [bits_flipBits, bits_dilv, bits_dilv]
    apply List.ext_getElem
    · simp
    · intro k hk _
      have hk8 : k < 8 * n := by simpa using hk
      rw [List.getElem_ofFn, List.getElem_mapIdx, List.getElem_ofFn, bits_flipBits_getD (by rw [hb]; exact Fin.isLt _)]
      exact congrArg _ (decide_eq_decide.2 (hmem ⟨k, hk8⟩))
  rw [← pack_bits (dilv P n _), hbits, pack_bits]

section Pipeline
variable {P : Params} {p : Pkt} (hP : P.Lawful) (hi : knownFec P p.inner = true) (ho : knownFec P p.outer = true) {m : List Byte}
  (hm : m.length = p.len)
include hm

theorem keyed_length : (m ++ keyOf P p.ed m).length = p.keyedLen := by
  rw [List.length_append, keyOf_length, hm, Pkt.keyedLen]

include hP hi

/-- With no outer FEC an error reaches the inner FEC at its de-interleaved place (41_packetizer_coding.md R171). -/
theorem pktDec_flipBits_of_inner_fixes (hnone : p.outer = schemeNone) {ps : List (Fin (8 * p.innerLen P))}
    (hfix : (fecCodec P p.inner).fixes p.keyedLen (ps.map fun k => ((P.intlv (p.innerLen P)).symm k).val) = true) :
    pktDec P p (flipBits (ps.map Fin.val) (pktEnc P p m)) = (m, true) := by
  have hdec : ∀ d, fecDec P p.outer d (p.innerLen P) = d := fun d => by rw [hnone]; rfl
  have henc : pktEnc P p m = ilv P (p.innerLen P) (fecEnc P p.inner (m ++ keyOf P p.ed m)) := by rw [pktEnc, hnone]; rfl
  have hinner : (fecEnc P p.inner (m ++ keyOf P p.ed m)).length = p.innerLen P := fecEnc_length hP hi (keyed_length hm)
  rw [pktDec, hdec, henc, dilv_flipBits P (ilv_length ..), dilv_ilv P hinner,
    fecDec_flipBits_fecEnc hP hi (keyed_length hm) hfix, pktSplit_append_key hm]

include ho

/-- After an outer FEC that corrects the error, DEC goes on as from the unflipped ENC(m) (41_packetizer_coding.md R171). -/
theorem pktDec_flipBits_of_outer_fixes {ps : List Nat} (hfix : (fecCodec P p.outer).fixes (p.innerLen P) ps = true) :
    pktDec P p (flipBits ps (pktEnc P p m)) = (m, true) := by
  have houter : fecDec P p.outer (flipBits ps (pktEnc P p m)) (p.innerLen P) =
      fecDec P p.outer (pktEnc P p m) (p.innerLen P) :=
    (fecDec_flipBits_fecEnc hP ho (ilv_length ..) hfix).trans (fecDec_fecEnc hP ho (ilv_length ..)).symm
  calc pktDec P p (flipBits ps (pktEnc P p m))
      = pktDec P p (pktEnc P p m) := by rw [pktDec, houter, ← pktDec]
    _ = (m, true) := pktDec_pktEnc hP hi ho hm

end Pipeline

end Sys2Proof.Machine
end

section
/-! PROOFS. The error-correction boundary of the decode (41_packetizer_coding.md R171). -/

namespace Sys2Proof.Machine

/-- Settles O26: the outer FEC hands on what it does for ENC(m) itself; with none, the de-interleaver hands the inner FEC an error
that it corrects. -/
theorem correctableErrorsVanish : Obligations.CorrectableErrorsVanish := fun _ _ _ hP _ hi ho hm =>
  ⟨fun _ hfix => pktDec_flipBits_of_outer_fixes hP hi ho hm hfix,
    fun hnone _ hfix => pktDec_flipBits_of_inner_fixes hP hi hm hnone hfix⟩

end Sys2Proof.Machine
end
